-- ==== Sys2Proof/Word.lean ====
section
/-! DEFINITION. The widths of the spec: bytes, words, doublewords, quadwords (00_scope.md R12), vector and opmask registers. -/

namespace Sys2Proof

/-- A byte: 8 bits (R12). -/
abbrev Byte := BitVec 8

/-- A doubleword: 32 bits (R12). -/
abbrev DWord := BitVec 32

/-- A quadword, and the width of a general register, of `rip` and of an address (R12, R20, R22). -/
abbrev QWord := BitVec 64

/-- The storage of one vector register: the widest register the spec names (R7, R26). -/
abbrev VWord := BitVec 512

end Sys2Proof
end

