-- ==== Sys2Proof/Config.lean ====
section
/-! DEFINITION. The values the spec leaves open per execution: constants with no body, so that nothing can be proved of
the value they take. Each is applied to the counter `State.draws`, which differs from one instruction of a run to the
next (log entry 9). -/

namespace Sys2Proof.Config

/-- FETCH64 of 20_memory.md R56 (D7, U7): whether the execution numbered `n` reads only the low 8 bytes of its 128-bit
memory operand. Free value, log entry 6. -/
opaque fetch64 : Nat → Bool

/-- U6 (20_memory.md R61): whether the execution numbered `n` raises #AC for a misaligned VEX or EVEX operand while
alignment checking is on. Free value, log entry 7. -/
opaque vexAlignCheck : Nat → Bool

/-- Bits 79:64 of x87 register `i` after the MMX form numbered `n` (10_state.md R25: "any value"). Free value, log
entry 8. -/
opaque x87Upper : Nat → Fin 8 → BitVec 16

/-- The x87 tag word after the MMX form numbered `n` (10_state.md R25: "any value"). Free value, log entry 8. -/
opaque x87Tag : Nat → BitVec 16

/-- The x87 top-of-stack field after the MMX form numbered `n` (10_state.md R25: "any value"). Free value, log
entry 8. -/
opaque x87Top : Nat → BitVec 3

end Sys2Proof.Config
end

