-- ==== Sys2Proof/Syntax.lean ====
section
/-! DEFINITION. The instructions, one constructor per row of opcode_table.json, each carrying the parse of its bytes:
the bytes before the opcode and the fields of REX, VEX or EVEX, of ModRM, SIB and displacement (30_encoding.md R80 to
R105). Register numbers are computed from these fields in Machine/Operands.lean (R88, R97, R105). -/

namespace Sys2Proof

/-- The two operating modes the spec admits (00_scope.md R7). -/
inductive Mode where
  | long64
  | prot32
deriving DecidableEq, Repr

/-- The six segment registers (10_state.md R34). -/
inductive SegName where
  | cs
  | ss
  | ds
  | es
  | fs
  | gs
deriving DecidableEq, Repr

/-- A legacy prefix byte (30_encoding.md R114 step 1): 66H, 67H, F0H, F2H, F3H and the six segment overrides. -/
inductive Prefix where
  | opSize
  | addrSize
  | lock
  | repne
  | rep
  | seg (name : SegName)
deriving DecidableEq, Repr

/-- A REX byte `0100 W R X B` (R84). -/
structure Rex where
  w : Bool
  r : Bool
  x : Bool
  b : Bool
deriving DecidableEq, Repr

/-- The displacement that the `mod` field asks for (R89): none (`00B`), one byte (`01B`), four bytes (`10B`). -/
inductive Disp where
  | none
  | d8 (d : BitVec 8)
  | d32 (d : BitVec 32)
deriving DecidableEq, Repr

/-- The addressing of a memory operand (R89 to R91). -/
inductive Addr where
  /-- `rm` names the base register, no SIB byte. -/
  | base (rm : BitVec 3) (disp : Disp)
  /-- `mod = 00B`, `rm = 101B`: RIP-relative in `Long64`, a displacement alone in `Prot32` (R91). -/
  | disp32 (d : BitVec 32)
  /-- `rm = 100B`: a SIB byte with a base register (R90). -/
  | sib (scale : BitVec 2) (index : BitVec 3) (base : BitVec 3) (disp : Disp)
  /-- `rm = 100B`, `mod = 00B`, `SIB.base = 101B`: a SIB byte with no base and a 32-bit displacement (R90). -/
  | sibDisp32 (scale : BitVec 2) (index : BitVec 3) (d : BitVec 32)
deriving DecidableEq, Repr

/-- ModRM:r/m (R87): a register (`mod = 11B`) or a memory operand. -/
inductive Rm where
  | reg (rm : BitVec 3)
  | mem (a : Addr)
deriving DecidableEq, Repr

/-- The operand is memory (`mod ≠ 11B`). -/
def Rm.isMem : Rm → Bool
  | .reg _ => false
  | .mem _ => true

/-- A legacy instruction, Op/En A (R80, R82): its prefix bytes in order, REX, ModRM.reg and ModRM:r/m. -/
structure LegacyForm where
  prefixes : List Prefix
  rex : Option Rex
  reg : BitVec 3
  rm : Rm
deriving DecidableEq, Repr

/-- A VEX instruction, Op/En B (R94 to R97). `r`, `x`, `b` are the complements of the stored bits, `v` is the complement
of the stored `vvvv` field, so each is the value that extends or is a register number. `short` is the two-byte prefix
C5H (R98). -/
structure VexForm where
  prefixes : List Prefix
  rex : Option Rex
  short : Bool
  r : Bool
  x : Bool
  b : Bool
  w : Bool
  v : BitVec 4
  reg : BitVec 3
  rm : Rm
deriving DecidableEq, Repr

/-- An EVEX instruction, Op/En C or D (R101 to R105). `r`, `x`, `b`, `r'`, `v'` and `v` are the complements of the stored
fields. `bc` is `EVEX.b`. -/
structure EvexForm where
  prefixes : List Prefix
  rex : Option Rex
  r : Bool
  x : Bool
  b : Bool
  r' : Bool
  w : Bool
  v : BitVec 4
  z : Bool
  bc : Bool
  v' : Bool
  aaa : BitVec 3
  reg : BitVec 3
  rm : Rm
deriving DecidableEq, Repr

/-- The 27 forms (00_scope.md R1), one constructor per row of opcode_table.json. -/
inductive Instr where
  /-- `NP 0F 60 /r`, rule R160. -/
  | punpcklbwMm (f : LegacyForm)
  /-- `66 0F 60 /r`, rule R161. -/
  | punpcklbwXmm (f : LegacyForm)
  /-- `VEX.128.66.0F.WIG 60 /r`, rule R162. -/
  | vpunpcklbwXmmVex (f : VexForm)
  /-- `VEX.256.66.0F.WIG 60 /r`, rule R163. -/
  | vpunpcklbwYmmVex (f : VexForm)
  /-- `EVEX.128.66.0F.WIG 60 /r`, rule R164. -/
  | vpunpcklbwXmmEvex (f : EvexForm)
  /-- `EVEX.256.66.0F.WIG 60 /r`, rule R165. -/
  | vpunpcklbwYmmEvex (f : EvexForm)
  /-- `EVEX.512.66.0F.WIG 60 /r`, rule R166. -/
  | vpunpcklbwZmmEvex (f : EvexForm)
  /-- `NP 0F 61 /r`, rule R170. -/
  | punpcklwdMm (f : LegacyForm)
  /-- `66 0F 61 /r`, rule R171. -/
  | punpcklwdXmm (f : LegacyForm)
  /-- `VEX.128.66.0F.WIG 61 /r`, rule R172. -/
  | vpunpcklwdXmmVex (f : VexForm)
  /-- `VEX.256.66.0F.WIG 61 /r`, rule R173. -/
  | vpunpcklwdYmmVex (f : VexForm)
  /-- `EVEX.128.66.0F.WIG 61 /r`, rule R174. -/
  | vpunpcklwdXmmEvex (f : EvexForm)
  /-- `EVEX.256.66.0F.WIG 61 /r`, rule R175. -/
  | vpunpcklwdYmmEvex (f : EvexForm)
  /-- `EVEX.512.66.0F.WIG 61 /r`, rule R176. -/
  | vpunpcklwdZmmEvex (f : EvexForm)
  /-- `NP 0F 62 /r`, rule R180. -/
  | punpckldqMm (f : LegacyForm)
  /-- `66 0F 62 /r`, rule R181. -/
  | punpckldqXmm (f : LegacyForm)
  /-- `VEX.128.66.0F.WIG 62 /r`, rule R182. -/
  | vpunpckldqXmmVex (f : VexForm)
  /-- `VEX.256.66.0F.WIG 62 /r`, rule R183. -/
  | vpunpckldqYmmVex (f : VexForm)
  /-- `EVEX.128.66.0F.W0 62 /r`, rule R184. -/
  | vpunpckldqXmmEvex (f : EvexForm)
  /-- `EVEX.256.66.0F.W0 62 /r`, rule R185. -/
  | vpunpckldqYmmEvex (f : EvexForm)
  /-- `EVEX.512.66.0F.W0 62 /r`, rule R186. -/
  | vpunpckldqZmmEvex (f : EvexForm)
  /-- `66 0F 6C /r`, rule R190. -/
  | punpcklqdqXmm (f : LegacyForm)
  /-- `VEX.128.66.0F.WIG 6C /r`, rule R191. -/
  | vpunpcklqdqXmmVex (f : VexForm)
  /-- `VEX.256.66.0F.WIG 6C /r`, rule R192. -/
  | vpunpcklqdqYmmVex (f : VexForm)
  /-- `EVEX.128.66.0F.W1 6C /r`, rule R193. -/
  | vpunpcklqdqXmmEvex (f : EvexForm)
  /-- `EVEX.256.66.0F.W1 6C /r`, rule R194. -/
  | vpunpcklqdqYmmEvex (f : EvexForm)
  /-- `EVEX.512.66.0F.W1 6C /r`, rule R195. -/
  | vpunpcklqdqZmmEvex (f : EvexForm)
deriving DecidableEq, Repr

/-- What the three encoding classes (R80) share: an instruction seen as the parse of its bytes, without its opcode. -/
inductive Form where
  | legacy (f : LegacyForm)
  | vex (f : VexForm)
  | evex (f : EvexForm)
deriving DecidableEq, Repr

/-- The parse an instruction carries. -/
def Instr.form : Instr → Form
  | .punpcklbwMm f => .legacy f
  | .punpcklbwXmm f => .legacy f
  | .vpunpcklbwXmmVex f => .vex f
  | .vpunpcklbwYmmVex f => .vex f
  | .vpunpcklbwXmmEvex f => .evex f
  | .vpunpcklbwYmmEvex f => .evex f
  | .vpunpcklbwZmmEvex f => .evex f
  | .punpcklwdMm f => .legacy f
  | .punpcklwdXmm f => .legacy f
  | .vpunpcklwdXmmVex f => .vex f
  | .vpunpcklwdYmmVex f => .vex f
  | .vpunpcklwdXmmEvex f => .evex f
  | .vpunpcklwdYmmEvex f => .evex f
  | .vpunpcklwdZmmEvex f => .evex f
  | .punpckldqMm f => .legacy f
  | .punpckldqXmm f => .legacy f
  | .vpunpckldqXmmVex f => .vex f
  | .vpunpckldqYmmVex f => .vex f
  | .vpunpckldqXmmEvex f => .evex f
  | .vpunpckldqYmmEvex f => .evex f
  | .vpunpckldqZmmEvex f => .evex f
  | .punpcklqdqXmm f => .legacy f
  | .vpunpcklqdqXmmVex f => .vex f
  | .vpunpcklqdqYmmVex f => .vex f
  | .vpunpcklqdqXmmEvex f => .evex f
  | .vpunpcklqdqYmmEvex f => .evex f
  | .vpunpcklqdqZmmEvex f => .evex f

/-- Why the decoder gives a byte string no instruction. -/
inductive DecodeError where
  /-- The bytes end before the instruction does. -/
  | truncated
  /-- More than one segment-override byte (R85, R114 step 1). -/
  | twoOverrides
  /-- F2H or F3H before a legacy form (R83). -/
  | repBeforeLegacy
  /-- A REX byte followed by anything but 0F, C4H, C5H or 62H (R84). -/
  | rexMisplaced
  /-- The byte string matches no row of opcode_table.json (R115). -/
  | notFamily
  /-- A VEX or EVEX register number above 7 in `Prot32` (R100, R112). -/
  | extensionInProt32
  /-- 16-bit addressing: 67H with a memory operand in `Prot32` (R86, D4). -/
  | addr16
  /-- 16-bit addressing after a prefix that raises #UD (R204): #UD, since step 3 of R114 comes before the refusal of step 5.
  Log entry 14. -/
  | badPrefix
  /-- The same with more than 15 bytes up to and including ModRM: #GP(0) (R81, R211 step 1). Log entry 14. -/
  | tooLong
deriving DecidableEq, Repr

end Sys2Proof
end

