-- ==== Sys2Proof/WellFormed.lean ====
section
/-! DEFINITION. Which terms of `Instr` are the parse of some byte string in a given mode (30_encoding.md R83 to R116). The
two forms that match their rows and are refused by the model (R108, R109) are well formed: their refusal is part of
their meaning. -/

namespace Sys2Proof

/-- How many segment-override bytes a prefix list holds. -/
def overrideCount : List Prefix → Nat
  | [] => 0
  | .seg _ :: ps => overrideCount ps + 1
  | _ :: ps => overrideCount ps

/-- A displacement is in its place: `base` with `rm = 100B` would be a SIB form, `rm = 101B` with no displacement would be
RIP-relative, a SIB base `101B` with no displacement would be the base-less form (R89, R90). -/
def Addr.wf : Addr → Bool
  | .base rm d => rm != 4 && (d != .none || rm != 5)
  | .disp32 _ => true
  | .sib _ _ b d => d != .none || b != 5
  | .sibDisp32 _ _ _ => true

/-- ModRM:r/m is one that the bytes can say. -/
def Rm.wf : Rm → Bool
  | .reg _ => true
  | .mem a => a.wf

/-- What every class asks of its prefix bytes: at most one segment override (R85), and no 67H with a memory operand in
`Prot32` (R86). Their number is free (R114 step 1): what is too long raises #GP(0) (R81). -/
def prefixesWf (m : Mode) (ps : List Prefix) (rm : Rm) : Bool :=
  decide (overrideCount ps ≤ 1) && !(decide (m = .prot32) && ps.contains .addrSize && rm.isMem)

/-- There is no REX byte in `Prot32` (R84). -/
def rexWf (m : Mode) (rex : Option Rex) : Bool :=
  decide (m = .long64) || rex.isNone

/-- A legacy form: neither F2H nor F3H (R83), and 66H exactly when the row has it (`mand66`). -/
def LegacyForm.wf (m : Mode) (mand66 : Bool) (f : LegacyForm) : Bool :=
  f.rm.wf && prefixesWf m f.prefixes f.rm && rexWf m f.rex
    && !f.prefixes.contains .repne && !f.prefixes.contains .rep
    && (f.prefixes.contains .opSize == mand66)

/-- A VEX form: the two-byte prefix has no X, B, W (R94); in `Prot32` only registers 0 to 7 (R100). -/
def VexForm.wf (m : Mode) (f : VexForm) : Bool :=
  f.rm.wf && prefixesWf m f.prefixes f.rm && rexWf m f.rex
    && (!f.short || (!f.x && !f.b && !f.w))
    && (decide (m = .long64) || (!f.r && !f.x && !f.b && decide (f.v < 8)))

/-- An EVEX form: `W` as the row has it (`w`: none for WIG, R107); in `Prot32` only registers 0 to 7 (R112). -/
def EvexForm.wf (m : Mode) (w : Option Bool) (f : EvexForm) : Bool :=
  f.rm.wf && prefixesWf m f.prefixes f.rm && rexWf m f.rex
    && (w.isNone || w == some f.w)
    && (decide (m = .long64) || (!f.r && !f.x && !f.b && !f.r' && !f.v' && decide (f.v < 8)))

/-- The instruction is the parse of some byte string in mode `m`. -/
def Instr.wf (m : Mode) : Instr → Bool
  | .punpcklbwMm f => f.wf m false
  | .punpcklbwXmm f => f.wf m true
  | .vpunpcklbwXmmVex f => f.wf m
  | .vpunpcklbwYmmVex f => f.wf m
  | .vpunpcklbwXmmEvex f => f.wf m none
  | .vpunpcklbwYmmEvex f => f.wf m none
  | .vpunpcklbwZmmEvex f => f.wf m none
  | .punpcklwdMm f => f.wf m false
  | .punpcklwdXmm f => f.wf m true
  | .vpunpcklwdXmmVex f => f.wf m
  | .vpunpcklwdYmmVex f => f.wf m
  | .vpunpcklwdXmmEvex f => f.wf m none
  | .vpunpcklwdYmmEvex f => f.wf m none
  | .vpunpcklwdZmmEvex f => f.wf m none
  | .punpckldqMm f => f.wf m false
  | .punpckldqXmm f => f.wf m true
  | .vpunpckldqXmmVex f => f.wf m
  | .vpunpckldqYmmVex f => f.wf m
  | .vpunpckldqXmmEvex f => f.wf m (some false)
  | .vpunpckldqYmmEvex f => f.wf m (some false)
  | .vpunpckldqZmmEvex f => f.wf m (some false)
  | .punpcklqdqXmm f => f.wf m true
  | .vpunpcklqdqXmmVex f => f.wf m
  | .vpunpcklqdqYmmVex f => f.wf m
  | .vpunpcklqdqXmmEvex f => f.wf m (some true)
  | .vpunpcklqdqYmmEvex f => f.wf m (some true)
  | .vpunpcklqdqZmmEvex f => f.wf m (some true)

end Sys2Proof
end

