-- ==== Sys2Proof/Decode.lean ====
section
/-! DEFINITION. The decoder (30_encoding.md R80 to R116, the procedure of R114), total on any bytes and rejecting by name,
and after it the encoder, written from the same tables. All layouts of the prefixes, of ModRM and of SIB are general
knowledge in the spec itself (log entry 22). -/

namespace Sys2Proof

/-! ## Prefix bytes -/

/-- The legacy prefix a byte is (R114 step 1, R85). -/
def Prefix.ofByte? (b : Byte) : Option Prefix :=
  if b = 0x66 then some .opSize
  else if b = 0x67 then some .addrSize
  else if b = 0xF0 then some .lock
  else if b = 0xF2 then some .repne
  else if b = 0xF3 then some .rep
  else if b = 0x2E then some (.seg .cs)
  else if b = 0x36 then some (.seg .ss)
  else if b = 0x3E then some (.seg .ds)
  else if b = 0x26 then some (.seg .es)
  else if b = 0x64 then some (.seg .fs)
  else if b = 0x65 then some (.seg .gs)
  else none

/-- The byte of a legacy prefix. -/
def Prefix.byte : Prefix → Byte
  | .opSize => 0x66
  | .addrSize => 0x67
  | .lock => 0xF0
  | .repne => 0xF2
  | .rep => 0xF3
  | .seg .cs => 0x2E
  | .seg .ss => 0x36
  | .seg .ds => 0x3E
  | .seg .es => 0x26
  | .seg .fs => 0x64
  | .seg .gs => 0x65

/-- Step 1 of R114: the legacy prefixes in any number and order, and the bytes after them. -/
def scanPrefixes : List Byte → List Prefix × List Byte
  | [] => ([], [])
  | b :: bs =>
    match Prefix.ofByte? b with
    | some p => (p :: (scanPrefixes bs).1, (scanPrefixes bs).2)
    | none => ([], b :: bs)

/-- A byte `40H` … `4FH` (R84). -/
def Rex.ofByte? (b : Byte) : Option Rex :=
  if b.extractLsb' 4 4 = 4 then some ⟨b.getLsbD 3, b.getLsbD 2, b.getLsbD 1, b.getLsbD 0⟩ else none

/-- Step 2 of R114: a REX byte, in `Long64` only. -/
def takeRex (m : Mode) : List Byte → Option Rex × List Byte
  | [] => (none, [])
  | b :: bs =>
    match m, Rex.ofByte? b with
    | .long64, some r => (some r, bs)
    | _, _ => (none, b :: bs)

/-! ## ModRM, SIB, displacement -/

/-- `ModRM[7:6]`, and `SIB[7:6]` (R87, R90). -/
def modField (b : Byte) : BitVec 2 := b.extractLsb' 6 2

/-- `ModRM[5:3]`, and `SIB[5:3]`. -/
def regField (b : Byte) : BitVec 3 := b.extractLsb' 3 3

/-- `ModRM[2:0]`, and `SIB[2:0]`. -/
def rmField (b : Byte) : BitVec 3 := b.extractLsb' 0 3

/-- Four bytes, little-endian (R50). -/
def take32 : List Byte → Option (BitVec 32 × List Byte)
  | b0 :: b1 :: b2 :: b3 :: bs => some (b3 ++ b2 ++ b1 ++ b0, bs)
  | _ => none

/-- The displacement that `mod` asks for (R89): none, disp8 or disp32. -/
def takeDisp (mod : BitVec 2) (bs : List Byte) : Option (Disp × List Byte) :=
  if mod = 0 then some (.none, bs)
  else if mod = 1 then
    match bs with
    | d :: bs => some (.d8 d, bs)
    | [] => none
  else (take32 bs).map fun r => (.d32 r.1, r.2)

/-- The SIB byte and what follows it (R90). -/
def takeSib (mod : BitVec 2) : List Byte → Option (Addr × List Byte)
  | [] => none
  | s :: bs =>
    if mod = 0 ∧ rmField s = 5 then
      (take32 bs).map fun r => (.sibDisp32 (modField s) (regField s) r.1, r.2)
    else
      (takeDisp mod bs).map fun r => (.sib (modField s) (regField s) (rmField s) r.1, r.2)

/-- ModRM:r/m with its SIB byte and displacement (R87, R89 to R91). -/
def takeRm (modrm : Byte) (bs : List Byte) : Option (Rm × List Byte) :=
  if modField modrm = 3 then some (.reg (rmField modrm), bs)
  else if rmField modrm = 4 then (takeSib (modField modrm) bs).map fun r => (.mem r.1, r.2)
  else if modField modrm = 0 ∧ rmField modrm = 5 then
    (take32 bs).map fun r => (.mem (.disp32 r.1), r.2)
  else (takeDisp (modField modrm) bs).map fun r => (.mem (.base (rmField modrm) r.1), r.2)

/-! ## The rows of opcode_table.json -/

/-- A row of opcode_table.json: `mask`, `match` and the instruction it stands for. -/
structure Row (α : Type) where
  mask : List Byte
  pattern : List Byte
  build : α → Instr

/-- `(NF AND mask) = match`, byte by byte (R114). -/
def maskedEq : List Byte → List Byte → List Byte → Bool
  | b :: bs, m :: ms, p :: ps => (b &&& m == p) && maskedEq bs ms ps
  | [], [], [] => true
  | _, _, _ => false

/-- The row a normal form matches (R114 step 4). -/
def findRow {α : Type} (rows : List (Row α)) (nf : List Byte) : Option (Row α) :=
  rows.find? fun r => maskedEq nf r.mask r.pattern

/-- The seven LEGACY rows; the first byte of the normal form is 66H if a 66H prefix was seen, else 00H. -/
def legacyRows : List (Row LegacyForm) :=
  [⟨[0xFF, 0xFF, 0xFF, 0x00], [0x00, 0x0F, 0x60, 0x00], .punpcklbwMm⟩,
   ⟨[0xFF, 0xFF, 0xFF, 0x00], [0x66, 0x0F, 0x60, 0x00], .punpcklbwXmm⟩,
   ⟨[0xFF, 0xFF, 0xFF, 0x00], [0x00, 0x0F, 0x61, 0x00], .punpcklwdMm⟩,
   ⟨[0xFF, 0xFF, 0xFF, 0x00], [0x66, 0x0F, 0x61, 0x00], .punpcklwdXmm⟩,
   ⟨[0xFF, 0xFF, 0xFF, 0x00], [0x00, 0x0F, 0x62, 0x00], .punpckldqMm⟩,
   ⟨[0xFF, 0xFF, 0xFF, 0x00], [0x66, 0x0F, 0x62, 0x00], .punpckldqXmm⟩,
   ⟨[0xFF, 0xFF, 0xFF, 0x00], [0x66, 0x0F, 0x6C, 0x00], .punpcklqdqXmm⟩]

/-- The eight VEX rows. -/
def vexRows : List (Row VexForm) :=
  [⟨[0xFF, 0x1F, 0x07, 0xFF, 0x00], [0xC4, 0x01, 0x01, 0x60, 0x00], .vpunpcklbwXmmVex⟩,
   ⟨[0xFF, 0x1F, 0x07, 0xFF, 0x00], [0xC4, 0x01, 0x05, 0x60, 0x00], .vpunpcklbwYmmVex⟩,
   ⟨[0xFF, 0x1F, 0x07, 0xFF, 0x00], [0xC4, 0x01, 0x01, 0x61, 0x00], .vpunpcklwdXmmVex⟩,
   ⟨[0xFF, 0x1F, 0x07, 0xFF, 0x00], [0xC4, 0x01, 0x05, 0x61, 0x00], .vpunpcklwdYmmVex⟩,
   ⟨[0xFF, 0x1F, 0x07, 0xFF, 0x00], [0xC4, 0x01, 0x01, 0x62, 0x00], .vpunpckldqXmmVex⟩,
   ⟨[0xFF, 0x1F, 0x07, 0xFF, 0x00], [0xC4, 0x01, 0x05, 0x62, 0x00], .vpunpckldqYmmVex⟩,
   ⟨[0xFF, 0x1F, 0x07, 0xFF, 0x00], [0xC4, 0x01, 0x01, 0x6C, 0x00], .vpunpcklqdqXmmVex⟩,
   ⟨[0xFF, 0x1F, 0x07, 0xFF, 0x00], [0xC4, 0x01, 0x05, 0x6C, 0x00], .vpunpcklqdqYmmVex⟩]

/-- The twelve EVEX rows. -/
def evexRows : List (Row EvexForm) :=
  [⟨[0xFF, 0x0F, 0x07, 0x60, 0xFF, 0x00], [0x62, 0x01, 0x05, 0x00, 0x60, 0x00], .vpunpcklbwXmmEvex⟩,
   ⟨[0xFF, 0x0F, 0x07, 0x60, 0xFF, 0x00], [0x62, 0x01, 0x05, 0x20, 0x60, 0x00], .vpunpcklbwYmmEvex⟩,
   ⟨[0xFF, 0x0F, 0x07, 0x60, 0xFF, 0x00], [0x62, 0x01, 0x05, 0x40, 0x60, 0x00], .vpunpcklbwZmmEvex⟩,
   ⟨[0xFF, 0x0F, 0x07, 0x60, 0xFF, 0x00], [0x62, 0x01, 0x05, 0x00, 0x61, 0x00], .vpunpcklwdXmmEvex⟩,
   ⟨[0xFF, 0x0F, 0x07, 0x60, 0xFF, 0x00], [0x62, 0x01, 0x05, 0x20, 0x61, 0x00], .vpunpcklwdYmmEvex⟩,
   ⟨[0xFF, 0x0F, 0x07, 0x60, 0xFF, 0x00], [0x62, 0x01, 0x05, 0x40, 0x61, 0x00], .vpunpcklwdZmmEvex⟩,
   ⟨[0xFF, 0x0F, 0x87, 0x60, 0xFF, 0x00], [0x62, 0x01, 0x05, 0x00, 0x62, 0x00], .vpunpckldqXmmEvex⟩,
   ⟨[0xFF, 0x0F, 0x87, 0x60, 0xFF, 0x00], [0x62, 0x01, 0x05, 0x20, 0x62, 0x00], .vpunpckldqYmmEvex⟩,
   ⟨[0xFF, 0x0F, 0x87, 0x60, 0xFF, 0x00], [0x62, 0x01, 0x05, 0x40, 0x62, 0x00], .vpunpckldqZmmEvex⟩,
   ⟨[0xFF, 0x0F, 0x87, 0x60, 0xFF, 0x00], [0x62, 0x01, 0x85, 0x00, 0x6C, 0x00], .vpunpcklqdqXmmEvex⟩,
   ⟨[0xFF, 0x0F, 0x87, 0x60, 0xFF, 0x00], [0x62, 0x01, 0x85, 0x20, 0x6C, 0x00], .vpunpcklqdqYmmEvex⟩,
   ⟨[0xFF, 0x0F, 0x87, 0x60, 0xFF, 0x00], [0x62, 0x01, 0x85, 0x40, 0x6C, 0x00], .vpunpcklqdqZmmEvex⟩]

/-! ## The decoder -/

/-- A 66H, F2H, F3H or LOCK prefix, or REX, before a VEX or EVEX prefix (R204). -/
def badLead (ps : List Prefix) (rex : Option Rex) : Bool :=
  ps.contains .lock || ps.contains .opSize || ps.contains .repne || ps.contains .rep || rex.isSome

/-- What 16-bit addressing answers: the #UD of a bad prefix, which step 3 of R114 finds first (#GP(0) when the `size` bytes
up to and including ModRM are too many already, R211 step 1), else the refusal of R86. Log entry 14. -/
def addr16Error (bad : Bool) (size : Nat) : DecodeError :=
  if bad then if size > 15 then .tooLong else .badPrefix else .addr16

/-- Step 5 of R114: ModRM:r/m; 16-bit addressing answers no instruction (R86). `bad` says that a prefix raises #UD (step 3),
`size` counts the bytes up to and including ModRM. -/
def decodeOperand (m : Mode) (ps : List Prefix) (bad : Bool) (size : Nat) (modrm : Byte) (bs : List Byte)
    (build : BitVec 3 → Rm → Instr) : Except DecodeError (Instr × List Byte) :=
  if m = .prot32 ∧ ps.contains .addrSize = true ∧ modField modrm ≠ 3 then .error (addr16Error bad size)
  else
    match takeRm modrm bs with
    | some (rm, rest) => .ok (build (regField modrm) rm, rest)
    | none => .error .truncated

/-- Step 3 of R114 after `0F`: format LEGACY. -/
def decodeLegacy (m : Mode) (ps : List Prefix) (rex : Option Rex) :
    List Byte → Except DecodeError (Instr × List Byte)
  | op :: modrm :: bs =>
    if ps.contains .repne || ps.contains .rep then .error .repBeforeLegacy
    else
      match findRow legacyRows [if ps.contains .opSize then 0x66 else 0x00, 0x0F, op, modrm] with
      | some row => decodeOperand m ps (ps.contains .lock) (ps.length + 3) modrm bs fun reg rm =>
        row.build ⟨ps, rex, reg, rm⟩
      | none => .error .notFamily
  | _ => .error .truncated

/-- Step 3 of R114 after `C4H v1 v2`, or `C5H v1` rewritten to it (R98): format VEX. The LOCK, 66H, F2H, F3H and REX bytes
that raise #UD are kept in the form, and its meaning raises it (R204). -/
def decodeVexBody (m : Mode) (ps : List Prefix) (rex : Option Rex) (short : Bool) (v1 v2 : Byte) :
    List Byte → Except DecodeError (Instr × List Byte)
  | op :: modrm :: bs =>
    match findRow vexRows [0xC4, v1, v2, op, modrm] with
    | some row =>
      if m = .prot32 ∧ (v1.extractLsb' 5 3 ≠ 7 ∨ v2.getLsbD 6 = false) then .error .extensionInProt32
      else decodeOperand m ps (badLead ps rex) (ps.length + if short then 4 else 5) modrm bs fun reg rm =>
        row.build
          { prefixes := ps, rex := rex, short := short, r := !v1.getLsbD 7, x := !v1.getLsbD 6,
            b := !v1.getLsbD 5, w := v2.getLsbD 7, v := ~~~(v2.extractLsb' 3 4), reg := reg, rm := rm }
    | none => .error .notFamily
  | _ => .error .truncated

/-- In `Prot32` the bytes C4H, C5H and 62H begin VEX or EVEX only when bits 7:6 of the next byte are `11B` (R100, R112). -/
def isVexIn (m : Mode) (next : Byte) : Bool := decide (m = .long64) || decide (next.extractLsb' 6 2 = 3)

/-- The three-byte prefix `C4 v1 v2` that stands for the two-byte `C5 v` (R98). -/
def expandVex (v : Byte) : Byte × Byte :=
  (v.extractLsb' 7 1 ++ (3 : BitVec 2) ++ (1 : BitVec 5), (0 : BitVec 1) ++ v.extractLsb' 0 7)

/-- Step 3 of R114 after `62H p0 p1 p2`: format EVEX. -/
def decodeEvexBody (m : Mode) (ps : List Prefix) (rex : Option Rex) (p0 p1 p2 : Byte) :
    List Byte → Except DecodeError (Instr × List Byte)
  | op :: modrm :: bs =>
    match findRow evexRows [0x62, p0, p1, p2, op, modrm] with
    | some row =>
      if m = .prot32 ∧ (p0.extractLsb' 4 4 ≠ 15 ∨ p1.getLsbD 6 = false ∨ p2.getLsbD 3 = false) then
        .error .extensionInProt32
      else decodeOperand m ps (badLead ps rex) (ps.length + 6) modrm bs fun reg rm =>
        row.build
          { prefixes := ps, rex := rex, r := !p0.getLsbD 7, x := !p0.getLsbD 6, b := !p0.getLsbD 5,
            r' := !p0.getLsbD 4, w := p1.getLsbD 7, v := ~~~(p1.extractLsb' 3 4), z := p2.getLsbD 7,
            bc := p2.getLsbD 4, v' := !p2.getLsbD 3, aaa := p2.extractLsb' 0 3, reg := reg, rm := rm }
    | none => .error .notFamily
  | _ => .error .truncated

/-- Step 3 of R114: the format, by the byte after the prefixes and REX. -/
def decodeBody (m : Mode) (ps : List Prefix) (rex : Option Rex) :
    List Byte → Except DecodeError (Instr × List Byte)
  | [] => .error .truncated
  | e :: bs =>
    if e = 0x0F then decodeLegacy m ps rex bs
    else if e = 0xC5 then
      match bs with
      | v :: bs =>
        if isVexIn m v then decodeVexBody m ps rex true (expandVex v).1 (expandVex v).2 bs
        else .error .notFamily
      | _ => .error .truncated
    else if e = 0xC4 then
      match bs with
      | v1 :: v2 :: bs => if isVexIn m v1 then decodeVexBody m ps rex false v1 v2 bs else .error .notFamily
      | _ => .error .truncated
    else if e = 0x62 then
      match bs with
      | p0 :: p1 :: p2 :: bs => if isVexIn m p0 then decodeEvexBody m ps rex p0 p1 p2 bs else .error .notFamily
      | _ => .error .truncated
    else if rex.isSome then .error .rexMisplaced
    else .error .notFamily

/-- R114 steps 1 to 5: the instruction at the head of a byte string and the bytes after it. -/
def decode (m : Mode) (bs : List Byte) : Except DecodeError (Instr × List Byte) :=
  if overrideCount (scanPrefixes bs).1 > 1 then .error .twoOverrides
  else decodeBody m (scanPrefixes bs).1 (takeRex m (scanPrefixes bs).2).1 (takeRex m (scanPrefixes bs).2).2

/-! ## The encoder -/

/-- The byte of a REX (R84). -/
def Rex.byte (r : Rex) : Byte :=
  (4 : BitVec 4) ++ BitVec.ofBool r.w ++ BitVec.ofBool r.r ++ BitVec.ofBool r.x ++ BitVec.ofBool r.b

/-- The bytes before the escape: the legacy prefixes, then REX (R80). -/
def leadBytes (ps : List Prefix) (rex : Option Rex) : List Byte :=
  ps.map Prefix.byte ++ (rex.map Rex.byte).toList

/-- A ModRM or SIB byte of its three fields (R87, R90). -/
def fieldByte (hi : BitVec 2) (mid lo : BitVec 3) : Byte := hi ++ mid ++ lo

/-- Four bytes, least significant first (R50). -/
def le32 (d : BitVec 32) : List Byte :=
  [d.extractLsb' 0 8, d.extractLsb' 8 8, d.extractLsb' 16 8, d.extractLsb' 24 8]

/-- The `mod` field of a displacement (R89). -/
def Disp.mod : Disp → BitVec 2
  | .none => 0
  | .d8 _ => 1
  | .d32 _ => 2

/-- The bytes of a displacement. -/
def Disp.bytes : Disp → List Byte
  | .none => []
  | .d8 d => [d]
  | .d32 d => le32 d

/-- ModRM, SIB and displacement (R87, R89, R90). -/
def rmBytes (reg : BitVec 3) : Rm → List Byte
  | .reg rm => [fieldByte 3 reg rm]
  | .mem (.base rm d) => fieldByte d.mod reg rm :: d.bytes
  | .mem (.disp32 d) => fieldByte 0 reg 5 :: le32 d
  | .mem (.sib s i b d) => fieldByte d.mod reg 4 :: fieldByte s i b :: d.bytes
  | .mem (.sibDisp32 s i d) => fieldByte 0 reg 4 :: fieldByte s i 5 :: le32 d

/-- The bytes of a legacy form with opcode `op` (R80, R93). -/
def LegacyForm.bytes (op : Byte) (f : LegacyForm) : List Byte :=
  leadBytes f.prefixes f.rex ++ 0x0F :: op :: rmBytes f.reg f.rm

/-- `v1` of `C4 v1 v2`: `R̄ X̄ B̄ mmmmm` (R95, R96). -/
def VexForm.v1 (f : VexForm) : Byte :=
  BitVec.ofBool (!f.r) ++ BitVec.ofBool (!f.x) ++ BitVec.ofBool (!f.b) ++ (1 : BitVec 5)

/-- `v2` of `C4 v1 v2`: `W v̄v̄v̄v̄ L pp` (R95, R96). -/
def VexForm.v2 (l : Bool) (f : VexForm) : Byte :=
  BitVec.ofBool f.w ++ ~~~f.v ++ BitVec.ofBool l ++ (1 : BitVec 2)

/-- `v1` of `C5 v1`: `R̄ v̄v̄v̄v̄ L pp` (R94). -/
def VexForm.shortByte (l : Bool) (f : VexForm) : Byte :=
  BitVec.ofBool (!f.r) ++ ~~~f.v ++ BitVec.ofBool l ++ (1 : BitVec 2)

/-- The bytes of a VEX form with vector-length bit `l` and opcode `op` (R80, R94 to R99). -/
def VexForm.bytes (l : Bool) (op : Byte) (f : VexForm) : List Byte :=
  leadBytes f.prefixes f.rex
    ++ (if f.short then [0xC5, f.shortByte l] else [0xC4, f.v1, f.v2 l]) ++ op :: rmBytes f.reg f.rm

/-- `p0`: `R̄ X̄ B̄ R̄' 00 mm` (R101). -/
def EvexForm.p0 (f : EvexForm) : Byte :=
  BitVec.ofBool (!f.r) ++ BitVec.ofBool (!f.x) ++ BitVec.ofBool (!f.b) ++ BitVec.ofBool (!f.r') ++ (1 : BitVec 4)

/-- `p1`: `W v̄v̄v̄v̄ 1 pp` (R102). -/
def EvexForm.p1 (f : EvexForm) : Byte := BitVec.ofBool f.w ++ ~~~f.v ++ (5 : BitVec 3)

/-- `p2`: `z L'L b V̄' aaa` (R103). -/
def EvexForm.p2 (ll : BitVec 2) (f : EvexForm) : Byte :=
  BitVec.ofBool f.z ++ ll ++ BitVec.ofBool f.bc ++ BitVec.ofBool (!f.v') ++ f.aaa

/-- The bytes of an EVEX form with vector-length field `ll` and opcode `op` (R80, R101 to R106). -/
def EvexForm.bytes (ll : BitVec 2) (op : Byte) (f : EvexForm) : List Byte :=
  leadBytes f.prefixes f.rex ++ 0x62 :: f.p0 :: f.p1 :: f.p2 ll :: op :: rmBytes f.reg f.rm

/-- The bytes of an instruction: opcode byte, `L` and `L'L` as R93, R99 and R106 have them. -/
def encode : Instr → List Byte
  | .punpcklbwMm f => f.bytes 0x60
  | .punpcklbwXmm f => f.bytes 0x60
  | .vpunpcklbwXmmVex f => f.bytes false 0x60
  | .vpunpcklbwYmmVex f => f.bytes true 0x60
  | .vpunpcklbwXmmEvex f => f.bytes 0 0x60
  | .vpunpcklbwYmmEvex f => f.bytes 1 0x60
  | .vpunpcklbwZmmEvex f => f.bytes 2 0x60
  | .punpcklwdMm f => f.bytes 0x61
  | .punpcklwdXmm f => f.bytes 0x61
  | .vpunpcklwdXmmVex f => f.bytes false 0x61
  | .vpunpcklwdYmmVex f => f.bytes true 0x61
  | .vpunpcklwdXmmEvex f => f.bytes 0 0x61
  | .vpunpcklwdYmmEvex f => f.bytes 1 0x61
  | .vpunpcklwdZmmEvex f => f.bytes 2 0x61
  | .punpckldqMm f => f.bytes 0x62
  | .punpckldqXmm f => f.bytes 0x62
  | .vpunpckldqXmmVex f => f.bytes false 0x62
  | .vpunpckldqYmmVex f => f.bytes true 0x62
  | .vpunpckldqXmmEvex f => f.bytes 0 0x62
  | .vpunpckldqYmmEvex f => f.bytes 1 0x62
  | .vpunpckldqZmmEvex f => f.bytes 2 0x62
  | .punpcklqdqXmm f => f.bytes 0x6C
  | .vpunpcklqdqXmmVex f => f.bytes false 0x6C
  | .vpunpcklqdqYmmVex f => f.bytes true 0x6C
  | .vpunpcklqdqXmmEvex f => f.bytes 0 0x6C
  | .vpunpcklqdqYmmEvex f => f.bytes 1 0x6C
  | .vpunpcklqdqZmmEvex f => f.bytes 2 0x6C

/-- `len` (R81): the count of all bytes of the instruction. -/
def Instr.len (i : Instr) : Nat := (encode i).length

/-! ## The rows as opcode_table.json numbers them -/

/-- The first byte of a row's normal form stands for the mandatory prefix: 00H there is no byte of the instruction
(R114: `PFX = 66 if a 66 prefix was seen, else 00`). Log entry 26. -/
def dropNoPrefix : List Byte → List Byte
  | b0 :: b1 :: bs => if b0 = 0x00 ∧ b1 = 0x0F then b1 :: bs else b0 :: b1 :: bs
  | bs => bs

/-- The instruction bytes of a table word of `nbits` bits, bit 0 the least significant bit of the first byte, filled up
with zero bytes to the longest instruction (15 bytes, R81). -/
def tableBytes (nbits w : Nat) : List Byte :=
  (dropNoPrefix ((List.range ((nbits + 7) / 8)).map fun k => BitVec.ofNat 8 (w >>> (8 * k)))
    ++ List.replicate 15 0).take 15

/-- The instruction the decoder reads, in `Long64`, from a table word. -/
def decodeTableWord (nbits w : Nat) : Option Instr :=
  match decode .long64 (tableBytes nbits w) with
  | .ok (i, _) => some i
  | .error _ => none

end Sys2Proof
end

