-- ==== Sys2Proof/Machine/State.lean ====
section
/-! DEFINITION. The machine's state as plain data (10_state.md, INVENTORY.md '## State'), the reasons a step can stop, and the
state right after reset. -/

namespace Sys2Proof.Machine

/-- A segment register (10_state.md R34): selector, and the hidden base, limit and access rights. `long` and `big` are the
L and D bits that R32 reads from the CS descriptor. The widths are the family's (log entry 30). -/
structure SegReg where
  selector : BitVec 16
  base : QWord
  limit : DWord
  readable : Bool
  expandDown : Bool
  long : Bool
  big : Bool
deriving DecidableEq, Repr

/-- The seven feature flags (00_scope.md R2), read-only bits that CPUID reports (10_state.md R33). -/
structure Features where
  mmx : Bool
  sse2 : Bool
  avx : Bool
  avx2 : Bool
  avx512f : Bool
  avx512bw : Bool
  avx512vl : Bool
deriving DecidableEq, Repr

/-- `LAW`, the number of implemented linear-address bits (00_scope.md R7). -/
inductive LinearWidth where
  | w48
  | w57
deriving DecidableEq, Repr

/-- The part of a page-fault code that the `Access` oracle chooses (60_exceptions.md R210): P, RSVD, PK and the bits above
5. W/R and I/D are 0 for every access of the family, and U/S is computed from CPL. That the code has 32 bits, 26 of them above
bit 5, is the family's width (PRESUMED, log entry 31). -/
structure PfCode where
  p : Bool
  rsvd : Bool
  pk : Bool
  upper : BitVec 26
deriving DecidableEq, Repr

/-- How a region of the linear address space answers a read (20_memory.md R62, R65, 92 D12). -/
inductive RegionKind where
  /-- Readable and executable memory. -/
  | ordinary
  /-- Readable memory whose bytes may not be executed. -/
  | noExecute
  /-- `Access` answers `fault(code)`. -/
  | denied (code : PfCode)
  /-- A region marked as having read side effects (R65). -/
  | sideEffects
deriving DecidableEq, Repr

/-- An entry of the accessibility map: the addresses `base` to `base + size - 1`, at one privilege level or (`none`) at
every one ("extended with CPL", R62). The first entry that holds an address decides; an address that none holds is
ordinary (log entries 4 and 5). -/
structure Region where
  base : Nat
  size : Nat
  cpl : Option (BitVec 2)
  kind : RegionKind
deriving DecidableEq, Repr

/-- A memory-read event (20_memory.md R56 item 3): the linear address of its first byte, and its size in bytes. -/
structure ReadEvent where
  address : QWord
  size : Nat
deriving DecidableEq, Repr

/-- Memory: the bytes that are not what an unlisted address reads as, by linear address, addresses rising. -/
abbrev Memory := List Host.Cell

/-- What an address that memory does not list reads as: 00H (DESIGN CHOICE, unsafe; log entry 4). -/
def unlistedByte : Byte := 0

/-- The canonical form of memory: addresses below 2^64, strictly rising, no entry equal to the unlisted byte. -/
def Memory.wf : Memory → Bool
  | [] => true
  | [c] => decide (c.1 < 2 ^ 64) && (c.2 != unlistedByte)
  | c :: d :: rest => decide (c.1 < d.1) && (c.2 != unlistedByte) && Memory.wf (d :: rest)

/-- The state of the machine: every piece of INVENTORY.md '## State', in its order. The widths of RFLAGS, CR0, CR2, CR4, XCR0,
IA32_EFER and MXCSR, of the x87 tag word and top-of-stack field and of the parts of a segment register are the family's: the
spec states none (PRESUMED, log entry 30). -/
structure State where
  /-- `G[0]` … `G[15]` (R20). -/
  g : Vector QWord 16
  /-- The instruction pointer (R22). -/
  rip : QWord
  /-- RFLAGS (R30, R32); its width: log entry 30. -/
  rflags : QWord
  /-- `MM[0]` … `MM[7]` (R24). -/
  mm : Vector QWord 8
  /-- Bits 79:64 of the x87 registers that alias `MM[i]` (R25). -/
  x87Upper : Vector (BitVec 16) 8
  /-- The x87 tag word (R25). -/
  x87Tag : BitVec 16
  /-- The x87 top-of-stack field (R25). -/
  x87Top : BitVec 3
  /-- A pending unmasked x87 exception (R35, R207). -/
  x87Pending : Bool
  /-- `V[0]` … `V[31]` (R26). -/
  v : Vector VWord 32
  /-- `K[0]` … `K[7]` (R29). -/
  k : Vector QWord 8
  /-- MXCSR (R31); its width: log entry 30. -/
  mxcsr : DWord
  /-- CR0 (R32); its width: log entry 30. -/
  cr0 : QWord
  /-- CR2, the page-fault linear address register (R210); its width: log entry 30. -/
  cr2 : QWord
  /-- CR4 (R32); its width: log entry 30. -/
  cr4 : QWord
  /-- XCR0 (R32); its width: log entry 30. -/
  xcr0 : QWord
  /-- IA32_EFER (R32); its width: log entry 30. -/
  efer : QWord
  /-- The current privilege level (R218). -/
  cpl : BitVec 2
  /-- In system-management mode (R6, D4). -/
  smm : Bool
  cs : SegReg
  ss : SegReg
  ds : SegReg
  es : SegReg
  fs : SegReg
  gs : SegReg
  /-- `features` (R7). -/
  features : Features
  /-- `LAW` (R7). -/
  law : LinearWidth
  mem : Memory
  /-- The `Access` oracle (R62); empty at reset: log entry 2. -/
  map : List Region
  /-- The memory-read event recorded for the last completed instruction (R56 item 3): none when it read no memory. No
  register of the machine; log entry 29. -/
  readEvent : Option ReadEvent
  /-- The model's own counter of completed instructions, which indexes the free values (log entry 9). -/
  draws : Nat
deriving DecidableEq, Repr

/-- The exceptions of the family (60_exceptions.md R201), each with the saved instruction pointer, the address of the
faulting instruction (R210). An exception ends the run with the state of before the instruction (R213, R214). All are
safe stops: the spec ends the run there too. -/
inductive Fault where
  /-- #UD, vector 6: raised by every form (R203, R204, R206). Safe. -/
  | ud (rip : QWord)
  /-- #NM, vector 7: raised by every form when CR0.TS = 1 (R208). Safe. -/
  | nm (rip : QWord)
  /-- #SS(0), vector 12: raised by a memory operand addressed through SS (R59, R60). Safe. -/
  | ss (rip : QWord)
  /-- #GP(0), vector 13: raised by a memory operand (R59, R60, R61) and by more than 15 bytes (R81). Safe. -/
  | gp (rip : QWord)
  /-- #PF(code), vector 14, with the faulting linear address (CR2): raised by a memory operand (R62). Safe. The width
  of the code: log entry 31. -/
  | pf (rip : QWord) (code : DWord) (address : QWord)
  /-- #MF, vector 16: raised by the MMX forms when an x87 exception is pending (R207). Safe. -/
  | mf (rip : QWord)
  /-- #AC(0), vector 17: raised by the MMX forms' memory operand under alignment checking, and, as a free choice, by a
  misaligned VEX or EVEX operand (R61, U6). Safe. -/
  | ac (rip : QWord)
deriving DecidableEq, Repr

/-- The modes and combinations of mode bits that the model refuses by name (92 D4, R32, R242). -/
inductive RefusedMode where
  /-- CR0.PE = 0. -/
  | realAddress
  /-- RFLAGS.VM = 1. -/
  | virtual8086
  /-- A 16-bit code segment: CS.D = 0 outside 64-bit mode. -/
  | code16
  /-- System-management mode. -/
  | systemManagement
  /-- IA32_EFER.LMA = 1 and CS.L = 1 with CR0.PG = 0, CR4.PAE = 0 or CS.D = 1: no mode of the spec. -/
  | inconsistent
deriving DecidableEq, Repr

/-- Why a step gives no meaning. -/
inductive Refusal where
  /-- Raised by `exec` for an instruction that has no meaning yet. Safe. -/
  | notModelled (mnemonic : String)
  /-- Raised by `step` and by every meaning outside the two admitted modes (R6, D4, U10). Safe. -/
  | mode (m : RefusedMode)
  /-- Raised by `step` when RFLAGS.TF = 1 (R224). Safe. -/
  | singleStep
  /-- Raised by `step` when the bytes of the instruction cannot be fetched (D12, U11). Safe. -/
  | fetch
  /-- Raised by `step` when `rip + len` is not canonical, or beyond the code-segment limit (R23, D12, U11). Safe. -/
  | nextRip
  /-- Raised by `step` for a byte string the decoder gives no instruction (R115, R205, D5). Safe. -/
  | encoding (e : DecodeError)
  /-- Raised by the EVEX forms of VPUNPCKLDQ and VPUNPCKLQDQ: `EVEX.b = 1` with a register operand (R108, R205, U3). Safe. -/
  | broadcastRegister
  /-- Raised by the EVEX forms: `aaa = 000B` with `z = 1` (R109, R205, U4). Safe. -/
  | zeroingNoMask
  /-- Raised by a memory operand in an expand-down segment in `Prot32` (R59, D4). Safe. -/
  | expandDown
  /-- Raised by a memory operand that lies in a region with read side effects (R65, U12). Safe. -/
  | sideEffects
deriving DecidableEq, Repr

/-- A data segment register after reset (R36): selector 0, base 0, limit FFFFH; access rights by log entry 2. -/
def SegReg.resetData : SegReg :=
  { selector := 0, base := 0, limit := 0xFFFF, readable := true, expandDown := false, long := false, big := false }

/-- All seven flags present (R243). -/
def Features.all : Features :=
  { mmx := true, sse2 := true, avx := true, avx2 := true, avx512f := true, avx512bw := true, avx512vl := true }

/-- The machine right after power-up or RESET: the table of 10_state.md R36 (general knowledge there: PRESUMED, log entry
1); the fields it does not give, the empty accessibility map among them (every address readable and executable), by log entry
2, memory by log entry 4, the model's own two by log entries 9 and 29. It is in real-address mode, where no form runs (R36,
R241). -/
def State.reset : State :=
  { g := Vector.replicate 16 0
    rip := 0xFFF0
    rflags := 0x2
    mm := Vector.replicate 8 0
    x87Upper := Vector.replicate 8 0
    x87Tag := 0x5555
    x87Top := 0
    x87Pending := false
    v := Vector.replicate 32 0
    k := Vector.replicate 8 0
    mxcsr := 0x1F80
    cr0 := 0x60000010
    cr2 := 0
    cr4 := 0
    xcr0 := 1
    efer := 0
    cpl := 0
    smm := false
    cs := { SegReg.resetData with selector := 0xF000, base := 0xFFFF0000 }
    ss := SegReg.resetData
    ds := SegReg.resetData
    es := SegReg.resetData
    fs := SegReg.resetData
    gs := SegReg.resetData
    features := Features.all
    law := .w48
    mem := []
    map := []
    readEvent := none
    draws := 0 }

end Sys2Proof.Machine
end

