-- ==== Sys2Proof/Machine/Flags.lean ====
section
/-! DEFINITION. The bits of the flags and control registers that the family reads (10_state.md R32), the operating mode they
make (R32, R242), and the flag computation of the family: none (R30). The places of the bits are general knowledge in the
spec itself (log entry 23). -/

namespace Sys2Proof.Machine

/-- CR0.PE, bit 0. -/
def State.pe (s : State) : Bool := s.cr0.getLsbD 0
/-- CR0.EM, bit 2. -/
def State.em (s : State) : Bool := s.cr0.getLsbD 2
/-- CR0.TS, bit 3. -/
def State.ts (s : State) : Bool := s.cr0.getLsbD 3
/-- CR0.AM, bit 18. -/
def State.am (s : State) : Bool := s.cr0.getLsbD 18
/-- CR0.PG, bit 31. -/
def State.pg (s : State) : Bool := s.cr0.getLsbD 31
/-- CR4.PAE, bit 5 (named by R242; its place: log entry 10). -/
def State.pae (s : State) : Bool := s.cr4.getLsbD 5
/-- CR4.OSFXSR, bit 9. -/
def State.osfxsr (s : State) : Bool := s.cr4.getLsbD 9
/-- CR4.OSXSAVE, bit 18. -/
def State.osxsave (s : State) : Bool := s.cr4.getLsbD 18
/-- EFLAGS.TF, bit 8 (named by R224; its place: log entry 10). -/
def State.tf (s : State) : Bool := s.rflags.getLsbD 8
/-- EFLAGS.VM, bit 17. -/
def State.vm (s : State) : Bool := s.rflags.getLsbD 17
/-- EFLAGS.AC, bit 18. -/
def State.acFlag (s : State) : Bool := s.rflags.getLsbD 18
/-- IA32_EFER.LMA, bit 10. -/
def State.lma (s : State) : Bool := s.efer.getLsbD 10

/-- `XCR0[2:1] = 11B`: SSE and AVX state enabled (R203). -/
def State.xcr0Avx (s : State) : Bool := s.xcr0.extractLsb' 1 2 == 3

/-- `XCR0[7:5] = 111B`: opmask and ZMM state enabled (R203). -/
def State.xcr0Avx512 (s : State) : Bool := s.xcr0.extractLsb' 5 3 == 7

/-- Alignment checking is on: CR0.AM = 1, EFLAGS.AC = 1, CPL = 3 (R61). -/
def State.alignChecking (s : State) : Bool := s.am && s.acFlag && s.cpl == 3

/-- The operating mode (R32, R242): `Long64` with CR0.PE, CR0.PG, CR4.PAE, IA32_EFER.LMA and CS.L set and CS.D clear;
`Prot32` with CR0.PE set, CS.L or LMA clear and CS.D set; every other combination is refused by name (D4; log entry 10).
Which name a refusal carries when several conditions hold (system management, then PE = 0, then VM = 1, then LMA and CS) is
the model's choice: DESIGN CHOICE, log entry 15. -/
def State.mode? (s : State) : Except RefusedMode Mode :=
  if s.smm then .error .systemManagement
  else if !s.pe then .error .realAddress
  else if s.vm then .error .virtual8086
  else if s.lma && s.cs.long then
    if s.pg && s.pae && !s.cs.big then .ok .long64 else .error .inconsistent
  else if s.cs.big then .ok .prot32
  else .error .code16

/-- `MAXVL` (R7, D2): 512 when the features admit an EVEX form, else 256 when they admit a VEX form, else 128. -/
def State.maxvl (s : State) : Nat :=
  if s.features.avx512f || s.features.avx512bw then 512
  else if s.features.avx || s.features.avx2 then 256
  else 128

/-- `NV`, the number of vector registers (R26). -/
def State.nv (s : State) : Nat := if s.maxvl = 512 then 32 else 16

/-- "FLAGS AFFECTED: None." (R30): RFLAGS after any form of the family. -/
def flagsAfter (rflags : QWord) : QWord := rflags

end Sys2Proof.Machine
end

