-- ==== Sys2Proof/Machine/Interleave.lean ====
section
/-! DEFINITION. The functions the instruction rules share: `UNPCKL` (40_interleave_primitives.md R139), `MASKWRITE` (R141) and
`BCAST` (R142), by elements. -/

namespace Sys2Proof.Machine

/-- Element `j` of width `esz` of a value: bits `j*esz + esz-1 : j*esz` (R8). -/
def elem {n : Nat} (esz : Nat) (a : BitVec n) (j : Nat) : BitVec esz := a.extractLsb' (j * esz) esz

/-- The `n`-bit value whose elements 0 … `count-1` of width `esz` are `f 0`, `f 1`, …, and whose other bits are 0. -/
def assemble (esz n : Nat) (f : Nat → BitVec esz) : Nat → BitVec n
  | 0 => 0
  | count + 1 => assemble esz n f count ||| ((f count).setWidth n <<< (count * esz))

/-- The `n`-bit value whose element `j` is `f j`, for every `j < n/esz`. -/
def ofElems (esz n : Nat) (f : Nat → BitVec esz) : BitVec n := assemble esz n f (n / esz)

/-- The lane width of an operation of `n` bits: 64 for an MMX operation, else 128 (R139). -/
def laneWidth (n : Nat) : Nat := if n = 64 then 64 else 128

/-- The source element that result element `q` copies: with `EPL` elements a lane, element `l*EPL + t` of the result comes
from element `l*EPL + floor(t/2)` (R139). -/
def sourceIndex (epl q : Nat) : Nat := q / epl * epl + q % epl / 2

/-- `UNPCKL(esz, n, a, b)` (R139): even elements of each lane from `a`, odd ones from `b`. -/
def unpckl (esz n : Nat) (a b : BitVec n) : BitVec n :=
  ofElems esz n fun q =>
    let epl := laneWidth n / esz
    if q % epl % 2 = 0 then elem esz a (sourceIndex epl q) else elem esz b (sourceIndex epl q)

/-- `MASKWRITE(esz, VL, nomask, k, z, old, tmp)` (R141). -/
def maskWrite (esz vl : Nat) (nomask : Bool) (k : QWord) (z : Bool) (old tmp : BitVec vl) : BitVec vl :=
  ofElems esz vl fun j =>
    if k.getLsbD j || nomask then elem esz tmp j
    else if z then 0
    else elem esz old j

/-- `BCAST(esz, VL, m)` (R142): every element is `m`. -/
def bcast (esz vl : Nat) (m : BitVec esz) : BitVec vl := ofElems esz vl fun _ => m

end Sys2Proof.Machine
end

