-- ==== Sys2Proof/Machine/Ops.lean ====
section
/-! DEFINITION. The named operations over registers and memory: register files and their writes, taking an exception and
returning from one, segmentation, the access oracle and the read primitive `MemRead` (20_memory.md R58). -/

namespace Sys2Proof.Machine

/-! ## Register files -/

/-- `G[i]` (R20). -/
def State.gAt (s : State) (i : BitVec 4) : QWord := s.g[i.toNat]'i.isLt

/-- `MM[i]` (R24). -/
def State.mmAt (s : State) (i : BitVec 3) : QWord := s.mm[i.toNat]'i.isLt

/-- `V[i]` (R26). -/
def State.vAt (s : State) (i : BitVec 5) : VWord := s.v[i.toNat]'i.isLt

/-- `V[i][vl-1:0]`: `XMM(i)`, `YMM(i)`, `ZMM(i)` for `vl` = 128, 256, 512 (R26). -/
def State.vLow (s : State) (vl : Nat) (i : BitVec 5) : BitVec vl := (s.vAt i).setWidth vl

/-- `K[i]` (R29). -/
def State.kAt (s : State) (i : BitVec 3) : QWord := s.k[i.toNat]'i.isLt

/-- The segment register of a name (R34). -/
def State.segReg (s : State) : SegName → SegReg
  | .cs => s.cs
  | .ss => s.ss
  | .ds => s.ds
  | .es => s.es
  | .fs => s.fs
  | .gs => s.gs

/-- `MM[i] <- val`. -/
def State.setMm (s : State) (i : BitVec 3) (val : QWord) : State :=
  { s with mm := s.mm.set i.toNat val i.isLt }

/-- `V[i] <- val`, the whole register. -/
def State.setV (s : State) (i : BitVec 5) (val : VWord) : State :=
  { s with v := s.v.set i.toNat val i.isLt }

/-- What WRITEVEC does with the bits above the operation width (R28, R152). -/
inductive Upper where
  | keep
  | zero
deriving DecidableEq, Repr

/-- The new value of a vector register of which the low `w` bits are written (R152). -/
def upperBits {w : Nat} (old : VWord) (val : BitVec w) : Upper → VWord
  | .keep => ((old >>> w) <<< w) ||| val.setWidth 512
  | .zero => val.setWidth 512

/-- `WRITEVEC(d, w, val, upper)` (40_interleave_primitives.md R152). -/
def State.writeVec {w : Nat} (s : State) (d : BitVec 5) (val : BitVec w) (upper : Upper) : State :=
  s.setV d (upperBits (s.vAt d) val upper)

/-- What an MMX form leaves of the x87 state: any value (R25, U8). Free values, log entry 8. -/
def State.x87Any (s : State) : State :=
  { s with
    x87Upper := Vector.ofFn (Config.x87Upper s.draws)
    x87Tag := Config.x87Tag s.draws
    x87Top := Config.x87Top s.draws }

/-- `rip + len`: modulo 2^64 in `Long64`, modulo 2^32 and zero-extended in `Prot32` (R22, R23). -/
def nextRip (m : Mode) (rip : QWord) (len : Nat) : QWord :=
  match m with
  | .long64 => rip + BitVec.ofNat 64 len
  | .prot32 => ((rip + BitVec.ofNat 64 len).setWidth 32).setWidth 64

/-- The end of a completed form: `rip <- rip + len` (R23), the flags as `flagsAfter` says (R30), the memory-read event
recorded (R56 item 3), and the model's own counter of completed instructions advanced. -/
def State.advance (s : State) (m : Mode) (len : Nat) (event : Option ReadEvent) : State :=
  { s with
    rip := nextRip m s.rip len
    rflags := flagsAfter s.rflags
    readEvent := event
    draws := s.draws + 1 }

/-! ## Stopping: exceptions and refusals -/

/-- Why a meaning does not complete. -/
inductive Stop where
  | fault (f : Fault)
  | refused (r : Refusal)
deriving DecidableEq, Repr

/-- TAKING AN EXCEPTION (60_exceptions.md R210, R213, R214): the one exception entry of the spec. It records the vector, the
error code, the faulting address and, as the saved instruction pointer, the address of the faulting instruction; the run
ends with the state of before the instruction; no handler runs, nothing is pushed, no mode changes. -/
def State.takeException (s : State) (exception : QWord → Fault) : Stop := .fault (exception s.rip)

/-- The vector of an exception (R201). -/
def Fault.vector : Fault → Nat
  | .ud _ => 6
  | .nm _ => 7
  | .ss _ => 12
  | .gp _ => 13
  | .pf _ _ _ => 14
  | .mf _ => 16
  | .ac _ => 17

/-- The error code of an exception: 0 for #SS, #GP, #AC; the page-fault code for #PF; none for #UD, #NM, #MF (R210). Its
width, 32 bits, is the family's: R210 gives none (PRESUMED, log entry 31). -/
def Fault.errorCode : Fault → Option DWord
  | .ud _ => none
  | .nm _ => none
  | .ss _ => some 0
  | .gp _ => some 0
  | .pf _ code _ => some code
  | .mf _ => none
  | .ac _ => some 0

/-- The faulting linear address, which the architecture leaves in CR2: for #PF only (R210). -/
def Fault.faultAddress : Fault → Option QWord
  | .pf _ _ address => some address
  | _ => none

/-- The saved instruction pointer (R210). -/
def Fault.savedRip : Fault → QWord
  | .ud rip => rip
  | .nm rip => rip
  | .ss rip => rip
  | .gp rip => rip
  | .pf rip _ _ => rip
  | .mf rip => rip
  | .ac rip => rip

/-- RETURN FROM AN EXCEPTION (R215): the saved instruction pointer is put back, so the same instruction runs again. No form
does this (the return instruction is out of scope); it says what a return restores. -/
def State.resume (s : State) (f : Fault) : State := { s with rip := f.savedRip }

/-- The first stop whose condition holds, in the order of the list (R211). -/
def firstStop : List (Bool × Stop) → Except Stop Unit
  | [] => .ok ()
  | (holds, stop) :: rest => if holds then .error stop else firstStop rest

/-- The outcome of a meaning: the next state, or the stop it met. -/
def outcome : Except Stop State → Host.Outcome State Fault Refusal
  | .ok s => .next s
  | .error (.fault f) => .fault f
  | .error (.refused r) => .refused r

/-- The admitted operating mode, or the refusal of every other (D4). -/
def State.admitted (s : State) : Except Stop Mode :=
  match s.mode? with
  | .ok m => .ok m
  | .error r => .error (.refused (.mode r))

/-! ## Memory -/

/-- The byte memory holds at an address. -/
def Memory.read : Memory → Nat → Byte
  | [], _ => unlistedByte
  | c :: cs, a => if c.1 = a then c.2 else Memory.read cs a

/-- Memory with one byte changed, in canonical form again. No form calls it (R57): a program is loaded with it. -/
def Memory.write : Memory → Nat → Byte → Memory
  | [], a, b => if b = unlistedByte then [] else [(a, b)]
  | c :: cs, a, b =>
    if c.1 < a then c :: Memory.write cs a b
    else if c.1 = a then if b = unlistedByte then cs else (a, b) :: cs
    else if b = unlistedByte then c :: cs
    else (a, b) :: c :: cs

/-- The region holds the address at this privilege level. -/
def Region.holds (r : Region) (cpl : BitVec 2) (a : Nat) : Bool :=
  decide (r.base ≤ a) && decide (a < r.base + r.size) && (r.cpl.isNone || r.cpl == some cpl)

/-- How the address answers at the current privilege level: the first region that holds it, else ordinary memory. -/
def State.kindAt (s : State) (a : Nat) : RegionKind :=
  match s.map.find? fun r => r.holds s.cpl a with
  | some r => r.kind
  | none => .ordinary

/-- The page-fault code (R210): P bit 0, W/R bit 1 = 0, U/S bit 2 = 1 when CPL = 3, RSVD bit 3, I/D bit 4 = 0, PK bit 5; the
bits from 6 to 31 as the oracle says (log entry 31). -/
def PfCode.bits (c : PfCode) (cpl : BitVec 2) : DWord :=
  c.upper ++ BitVec.ofBool c.pk ++ (0 : BitVec 1) ++ BitVec.ofBool c.rsvd ++ BitVec.ofBool (cpl == 3) ++ (0 : BitVec 1)
    ++ BitVec.ofBool c.p

/-- The oracle `Access : LinearAddress -> {ok(byte), fault(code)}` (R62), at the current privilege level. -/
def State.access (s : State) (a : QWord) : Except DWord Byte :=
  match s.kindAt a.toNat with
  | .denied code => .error (code.bits s.cpl)
  | _ => .ok (s.mem.read a.toNat)

/-- The linear address of byte `k` of an operand at `la`; it wraps with the address width of the mode (log entry 12). -/
def byteAddr (m : Mode) (la : QWord) (k : Nat) : QWord :=
  match m with
  | .long64 => la + BitVec.ofNat 64 k
  | .prot32 => ((la + BitVec.ofNat 64 k).setWidth 32).setWidth 64

/-- Bits 63:LAW-1 are all equal (R60). -/
def canonical (law : LinearWidth) (a : QWord) : Bool :=
  match law with
  | .w48 => a.extractLsb' 47 17 == 0 || a.extractLsb' 47 17 == BitVec.allOnes 17
  | .w57 => a.extractLsb' 56 8 == 0 || a.extractLsb' 56 8 == BitVec.allOnes 8

/-- `linear(seg, ea)` (R59): in `Long64` only FS and GS have a base; in `Prot32` base + `ea` modulo 2^32. -/
def State.linear (s : State) (m : Mode) (seg : SegName) (ea : QWord) : QWord :=
  match m with
  | .long64 =>
    match seg with
    | .fs => s.fs.base + ea
    | .gs => s.gs.base + ea
    | _ => ea
  | .prot32 => (((s.segReg seg).base + ea).setWidth 32).setWidth 64

/-- A null selector: 0000H to 0003H (R59; log entry 11). -/
def SegReg.isNull (r : SegReg) : Bool := r.selector.extractLsb' 2 14 == 0

/-- The exception of a failed segment or canonical check: #SS(0) if the segment is SS, else #GP(0) (R59, R60). -/
def segmentException : SegName → QWord → Fault
  | .ss => .ss
  | _ => .gp

/-- `check_segment(seg, ea, n)` (R59, R60). -/
def State.checkSegment (s : State) (m : Mode) (seg : SegName) (ea : QWord) (n : Nat) : Except Stop Unit :=
  match m with
  | .long64 =>
    firstStop
      [((List.range n).any fun k => !canonical s.law (byteAddr .long64 (s.linear .long64 seg ea) k),
        s.takeException (segmentException seg))]
  | .prot32 =>
    firstStop
      [((s.segReg seg).isNull, s.takeException (segmentException seg)),
       (!(s.segReg seg).readable, s.takeException (segmentException seg)),
       ((s.segReg seg).expandDown, .refused .expandDown),
       (decide (ea.toNat + n - 1 > (s.segReg seg).limit.toNat), s.takeException (segmentException seg))]

/-- What a class of forms asks of the alignment of its memory operand (R61). -/
inductive AlignRule where
  /-- MMX forms: none, but #AC under alignment checking when not a multiple of 4. -/
  | mmx
  /-- Legacy 128-bit forms: a multiple of 16, else #GP(0). -/
  | sse
  /-- VEX and EVEX forms: none; #AC under alignment checking is open (U6). -/
  | vector
deriving DecidableEq, Repr

/-- `check_align16` (R61): legacy m128 operands only. -/
def State.checkAlign16 (s : State) (al : AlignRule) (la : QWord) : Except Stop Unit :=
  firstStop [(decide (al = .sse) && decide (la.toNat % 16 ≠ 0), s.takeException .gp)]

/-- An operand in a region with read side effects is refused (R65, U12). -/
def State.checkSideEffects (s : State) (m : Mode) (la : QWord) (n : Nat) : Except Stop Unit :=
  firstStop
    [((List.range n).any fun k => s.kindAt (byteAddr m la k).toNat == .sideEffects, .refused .sideEffects)]

/-- The lowest of the bytes `from`, …, `from + n - 1` of an operand that the oracle denies: code and address (R62, R210). -/
def State.deniedByte (s : State) (m : Mode) (la : QWord) (first n : Nat) : Option (DWord × QWord) :=
  (List.range' first n).findSome? fun k =>
    match s.access (byteAddr m la k) with
    | .error code => some (code, byteAddr m la k)
    | .ok _ => none

/-- `check_access` of every byte (R62). Of a 128-bit operand the bytes 8 to 15 are checked unless FETCH64 holds of this
execution (R56, D7; free value, log entry 6). -/
def State.checkAccess (s : State) (m : Mode) (la : QWord) (w : Nat) : Except Stop Unit :=
  match s.deniedByte m la 0 (if w = 128 then 8 else w / 8) with
  | some (code, address) => .error (s.takeException fun rip => .pf rip code address)
  | none =>
    match s.deniedByte m la 8 (if w = 128 then 8 else 0) with
    | some (code, address) =>
      if Config.fetch64 s.draws then .ok () else .error (s.takeException fun rip => .pf rip code address)
    | none => .ok ()

/-- The size in bytes of the memory-read event of a `w`-bit operand (R56 item 3): a 128-bit operand is read as 8 bytes when
FETCH64 holds of this execution, else as 16; every other operand whole (R52, R54). -/
def State.readSize (s : State) (w : Nat) : Nat := if w = 128 ∧ Config.fetch64 s.draws = true then 8 else w / 8

/-- `check_align_ac` (R61): the MMX m32 operand that is not a multiple of 4; for a VEX or EVEX operand that is not a multiple
of its size the outcome is open (U6; free value, log entry 7). -/
def State.checkAlignAc (s : State) (al : AlignRule) (la : QWord) (n : Nat) : Except Stop Unit :=
  match al with
  | .mmx => firstStop [(s.alignChecking && decide (la.toNat % 4 ≠ 0), s.takeException .ac)]
  | .sse => .ok ()
  | .vector =>
    if s.alignChecking && decide (la.toNat % n ≠ 0) then
      if Config.vexAlignCheck s.draws then .error (s.takeException .ac) else .ok ()
    else .ok ()

/-- The `w`-bit value whose bits `8k+7:8k` are the byte at `la + k` (R50, R58). -/
def State.readBytes (s : State) (m : Mode) (la : QWord) (w : Nat) : BitVec w :=
  ofElems 8 w fun k => s.mem.read (byteAddr m la k).toNat

/-- `MemRead(seg, ea, w/8)` (R58), its checks in the order of R58 and R211. -/
def State.memRead (s : State) (m : Mode) (seg : SegName) (ea : QWord) (w : Nat) (al : AlignRule) :
    Except Stop (BitVec w) := do
  s.checkSegment m seg ea (w / 8)
  s.checkAlign16 al (s.linear m seg ea)
  s.checkSideEffects m (s.linear m seg ea) (w / 8)
  s.checkAccess m (s.linear m seg ea) w
  s.checkAlignAc al (s.linear m seg ea) (w / 8)
  return s.readBytes m (s.linear m seg ea) w

/-! ## Launch -/

/-- A segment register with base 0. -/
def SegReg.flat (r : SegReg) : SegReg := { r with base := 0 }

/-- The standard launch of 70_reset_and_hazards.md R243, with `rip = 1000H` as 95_test_vectors.md has it and every address
accessible: what software outside the scope has done before a form can run (R241, R242). Log entry 3. -/
def State.standardLaunch (s : State) : State :=
  { s with
    rip := 0x1000
    rflags := 0x202
    x87Pending := false
    cr0 := (s.cr0 ||| 0x80000001) &&& ~~~0x4000C
    cr4 := s.cr4 ||| 0x40220
    xcr0 := 0xE7
    efer := s.efer ||| 0x400
    cpl := 3
    smm := false
    cs := { s.cs.flat with long := true, big := false }
    ss := s.ss.flat
    ds := s.ds.flat
    es := s.es.flat
    fs := s.fs.flat
    gs := s.gs.flat
    features := Features.all
    map := [] }

end Sys2Proof.Machine
end

