-- ==== Sys2Proof/Machine/Operands.lean ====
section
/-! DEFINITION. The operand forms of the family: register numbers (30_encoding.md R88, R97, R105), lengths (R81), segments
(R85), effective addresses (R86, R89 to R92, R113), and the second source of each encoding class (20_memory.md R52). -/

namespace Sys2Proof

/-! ## Lengths and register numbers -/

/-- `len` of a legacy form (R81); the opcode byte's value does not change it. -/
def LegacyForm.len (f : LegacyForm) : Nat := (f.bytes 0).length

/-- `len` of a VEX form (R81). -/
def VexForm.len (f : VexForm) : Nat := (f.bytes false 0).length

/-- `len` of an EVEX form (R81). -/
def EvexForm.len (f : EvexForm) : Nat := (f.bytes 0 0).length

/-- A REX bit, 0 when there is no REX (R88). -/
def LegacyForm.rexBit (f : LegacyForm) (bit : Rex → Bool) : Bool :=
  match f.rex with
  | some r => bit r
  | none => false

/-- A register number of an extension bit and a 3-bit field (R88, R97). -/
def num4 (ext : Bool) (field : BitVec 3) : BitVec 4 := BitVec.ofBool ext ++ field

/-- A register number of two extension bits and a 3-bit field (R105). -/
def num5 (high ext : Bool) (field : BitVec 3) : BitVec 5 := BitVec.ofBool high ++ BitVec.ofBool ext ++ field

/-- `d` of a legacy 128-bit form: `REX.R*8 + ModRM.reg` (R88). -/
def LegacyForm.d (f : LegacyForm) : BitVec 5 := num5 false (f.rexBit Rex.r) f.reg

/-- `s` of a legacy 128-bit form with register operand `rm`: `REX.B*8 + ModRM.rm` (R88). -/
def LegacyForm.s (f : LegacyForm) (rm : BitVec 3) : BitVec 5 := num5 false (f.rexBit Rex.b) rm

/-- `d` of a VEX form (R97). -/
def VexForm.d (f : VexForm) : BitVec 5 := num5 false f.r f.reg

/-- `s1` of a VEX form (R97): the field is held complemented. -/
def VexForm.s1 (f : VexForm) : BitVec 5 := f.v.setWidth 5

/-- `s2` of a VEX form with register operand `rm` (R97). -/
def VexForm.s2 (f : VexForm) (rm : BitVec 3) : BitVec 5 := num5 false f.b rm

/-- `d` of an EVEX form (R105). -/
def EvexForm.d (f : EvexForm) : BitVec 5 := num5 f.r' f.r f.reg

/-- `s1` of an EVEX form (R105). -/
def EvexForm.s1 (f : EvexForm) : BitVec 5 := BitVec.ofBool f.v' ++ f.v

/-- `s2` of an EVEX form with register operand `rm` (R105). -/
def EvexForm.s2 (f : EvexForm) (rm : BitVec 3) : BitVec 5 := num5 f.x f.b rm

end Sys2Proof

namespace Sys2Proof.Machine

/-! ## Effective addresses -/

/-- What a form adds to its `Addr`: the prefix bytes, the extension bits `B` and `X`, the scale `N` of disp8 (R113), and its
length for RIP-relative addressing. -/
structure Addressing where
  prefixes : List Prefix
  b : Bool
  x : Bool
  scale : Nat
  len : Nat
deriving DecidableEq, Repr

/-- The addressing of a legacy form: `N = 1` (R113). -/
def legacyAddressing (f : LegacyForm) : Addressing :=
  { prefixes := f.prefixes, b := f.rexBit Rex.b, x := f.rexBit Rex.x, scale := 1, len := f.len }

/-- The addressing of a VEX form: `N = 1` (R113). -/
def vexAddressing (f : VexForm) : Addressing :=
  { prefixes := f.prefixes, b := f.b, x := f.x, scale := 1, len := f.len }

/-- `N` of an EVEX form (R113): the element size in bytes under broadcast, else the vector size in bytes. -/
def evexScale (esz vl : Nat) (bc : Bool) : Nat := if bc then esz / 8 else vl / 8

/-- The addressing of an EVEX form. -/
def evexAddressing (esz vl : Nat) (f : EvexForm) : Addressing :=
  { prefixes := f.prefixes, b := f.b, x := f.x, scale := evexScale esz vl f.bc, len := f.len }

/-- The address size is 32 bits: `Prot32`, or `Long64` with 67H (R86, R92). -/
def Addressing.size32 (c : Addressing) (m : Mode) : Bool := decide (m = .prot32) || c.prefixes.contains .addrSize

/-- A register term of the sum: the register, or its low 32 bits when the address size is 32 (R92). -/
def State.addrTerm (s : State) (size32 : Bool) (i : BitVec 4) : QWord :=
  if size32 then ((s.gAt i).setWidth 32).setWidth 64 else s.gAt i

/-- The displacement term (R89): `sext_64(disp8) * N` or `sext_64(disp32)`. -/
def dispTerm (scale : Nat) : Disp → QWord
  | .none => 0
  | .d8 d => d.signExtend 64 * BitVec.ofNat 64 scale
  | .d32 d => d.signExtend 64

/-- The index term (R90): 0 for `idx = 4`, else `G[idx] * 2^ss`. -/
def State.indexTerm (s : State) (c : Addressing) (size32 : Bool) (scale : BitVec 2) (index : BitVec 3) : QWord :=
  if num4 c.x index = 4 then 0 else s.addrTerm size32 (num4 c.x index) <<< scale.toNat

/-- The sum of R89 to R91, modulo 2^64. -/
def State.addrSum (s : State) (m : Mode) (c : Addressing) : Addr → QWord
  | .base rm d => s.addrTerm (c.size32 m) (num4 c.b rm) + dispTerm c.scale d
  | .disp32 d =>
    match m with
    | .long64 => (s.rip + BitVec.ofNat 64 c.len) + d.signExtend 64
    | .prot32 => d.signExtend 64
  | .sib ss i b d =>
    s.addrTerm (c.size32 m) (num4 c.b b) + s.indexTerm c (c.size32 m) ss i + dispTerm c.scale d
  | .sibDisp32 ss i d => s.indexTerm c (c.size32 m) ss i + d.signExtend 64

/-- The effective address `ea` (R89 to R92): the sum, truncated to 32 bits and zero-extended when the address size is 32. -/
def State.effAddr (s : State) (m : Mode) (c : Addressing) (a : Addr) : QWord :=
  if c.size32 m then ((s.addrSum m c a).setWidth 32).setWidth 64 else s.addrSum m c a

/-! ## Segments -/

/-- The default segment (R85): SS when the base register is number 4 or 5, else DS. -/
def defaultSegment (c : Addressing) : Addr → SegName
  | .base rm _ => if num4 c.b rm = 4 ∨ num4 c.b rm = 5 then .ss else .ds
  | .sib _ _ b _ => if num4 c.b b = 4 ∨ num4 c.b b = 5 then .ss else .ds
  | .disp32 _ => .ds
  | .sibDisp32 _ _ _ => .ds

/-- The segment override among the prefix bytes, if there is one. -/
def overrideOf : List Prefix → Option SegName
  | [] => none
  | .seg n :: _ => some n
  | _ :: ps => overrideOf ps

/-- The segment of a memory operand (R85): in `Long64` only the overrides FS and GS have an effect. -/
def operandSegment (m : Mode) (c : Addressing) (a : Addr) : SegName :=
  match m, overrideOf c.prefixes with
  | .prot32, some n => n
  | .long64, some .fs => .fs
  | .long64, some .gs => .gs
  | _, _ => defaultSegment c a

/-- The read of a memory operand of `w` bits. -/
def State.readOperand (s : State) (m : Mode) (c : Addressing) (a : Addr) (w : Nat) (al : AlignRule) :
    Except Stop (BitVec w) :=
  s.memRead m (operandSegment m c a) (s.effAddr m c a) w al

/-- The memory-read event of an operand of `w` bits (R56 item 3): one read at its linear address (R54, R68), none when the
operand is a register. -/
def State.readEventOf (s : State) (m : Mode) (c : Addressing) (rm : Rm) (w : Nat) : Option ReadEvent :=
  match rm with
  | .reg _ => none
  | .mem a => some { address := s.linear m (operandSegment m c a) (s.effAddr m c a), size := s.readSize w }

/-! ## Second sources -/

/-- The source of an MMX form: `MM[s]`, or a 4-byte memory operand zero-extended (R52, R53, R88). -/
def State.mmSource (s : State) (m : Mode) (f : LegacyForm) : Except Stop QWord :=
  match f.rm with
  | .reg rm => .ok (s.mmAt rm)
  | .mem a => (s.readOperand m (legacyAddressing f) a 32 .mmx).map fun b => b.setWidth 64

/-- The source of a legacy 128-bit form: `XMM(s)`, or a 16-byte memory operand (R52, R88). -/
def State.xmmSource (s : State) (m : Mode) (f : LegacyForm) : Except Stop (BitVec 128) :=
  match f.rm with
  | .reg rm => .ok (s.vLow 128 (f.s rm))
  | .mem a => s.readOperand m (legacyAddressing f) a 128 .sse

/-- The second source of a VEX form: `V[s2][vl-1:0]`, or a memory operand of `vl/8` bytes (R52, R97). -/
def State.vexSource (s : State) (m : Mode) (vl : Nat) (f : VexForm) : Except Stop (BitVec vl) :=
  match f.rm with
  | .reg rm => .ok (s.vLow vl (f.s2 rm))
  | .mem a => s.readOperand m (vexAddressing f) a vl .vector

/-- The second source of an EVEX form: `V[s2][vl-1:0]`, one broadcast element, or a memory operand of `vl/8` bytes (R52,
R54, R105). -/
def State.evexSource (s : State) (m : Mode) (esz vl : Nat) (f : EvexForm) : Except Stop (BitVec vl) :=
  match f.rm with
  | .reg rm => .ok (s.vLow vl (f.s2 rm))
  | .mem a =>
    if f.bc then (s.readOperand m (evexAddressing esz vl f) a esz .vector).map (bcast esz vl)
    else s.readOperand m (evexAddressing esz vl f) a vl .vector

end Sys2Proof.Machine
end

