-- ==== Sys2Proof/Machine/Forms.lean ====
section
/-! DEFINITION. The four shapes of an instruction rule (40_interleave_primitives.md R156), shared by the 27 meanings: the
checks in the order of 60_exceptions.md R211, the sources, the computation, the write of the destination, `rip`. -/

namespace Sys2Proof.Machine

/-! ## Checks before the memory operand -/

/-- An instruction longer than 15 bytes (R81). -/
def tooLong (len : Nat) : Bool := decide (len > 15)

/-- The causes of an MMX form before its memory operand: R211 steps 1, 2, 3, 4, 6, 7. -/
def State.mmCauses (s : State) (f : LegacyForm) : List (Bool × Stop) :=
  [(tooLong f.len, s.takeException .gp),
   (f.prefixes.contains .lock, s.takeException .ud),
   (s.em, s.takeException .ud),
   (!s.features.mmx, s.takeException .ud),
   (s.ts, s.takeException .nm),
   (s.x87Pending, s.takeException .mf)]

/-- The causes of a legacy 128-bit form: R211 steps 1, 2, 3, 4, 6. -/
def State.xmmCauses (s : State) (f : LegacyForm) : List (Bool × Stop) :=
  [(tooLong f.len, s.takeException .gp),
   (f.prefixes.contains .lock, s.takeException .ud),
   (s.em || !s.osfxsr, s.takeException .ud),
   (!s.features.sse2, s.takeException .ud),
   (s.ts, s.takeException .nm)]

/-- The feature flags of a VEX form (R2): AVX for VEX.128, AVX2 for VEX.256. -/
def Features.vex (f : Features) (vl : Nat) : Bool := if vl = 128 then f.avx else f.avx2

/-- The causes of a VEX form: R211 steps 1, 2, 3, 4, 6. -/
def State.vexCauses (s : State) (vl : Nat) (f : VexForm) : List (Bool × Stop) :=
  [(tooLong f.len, s.takeException .gp),
   (badLead f.prefixes f.rex, s.takeException .ud),
   (!s.osxsave || !s.xcr0Avx, s.takeException .ud),
   (!s.features.vex vl, s.takeException .ud),
   (s.ts, s.takeException .nm)]

/-- The feature flags of an EVEX form (R2): AVX512BW for bytes and words, AVX512F for doublewords and quadwords, and AVX512VL
below 512 bits. -/
def Features.evex (f : Features) (esz vl : Nat) : Bool :=
  (if esz < 32 then f.avx512bw else f.avx512f) && (decide (vl = 512) || f.avx512vl)

/-- The causes of an EVEX form: R211 steps 1 and 2 (R114 step 3), the two byte strings that match a row and are refused by
name (R108, R109, R205: zeroing without a mask, and `EVEX.b = 1` with a register operand where the row has broadcast; R114
step 6; log entry 15), and R211 steps 3 to 6. -/
def State.evexCauses (s : State) (esz vl : Nat) (f : EvexForm) : List (Bool × Stop) :=
  [(tooLong f.len, s.takeException .gp),
   (badLead f.prefixes f.rex, s.takeException .ud),
   (decide (f.aaa = 0) && f.z, .refused .zeroingNoMask),
   (decide (32 ≤ esz) && f.bc && !f.rm.isMem, .refused .broadcastRegister),
   (!s.osxsave || !s.xcr0Avx || !s.xcr0Avx512, s.takeException .ud),
   (!s.features.evex esz vl, s.takeException .ud),
   (decide (esz < 32) && f.bc, s.takeException .ud),
   (s.ts, s.takeException .nm)]

/-! ## The shapes -/

/-- The write mask of an EVEX form applied to its result (R104, R141): `aaa = 000B` is no write mask. -/
def State.masked {vl : Nat} (s : State) (esz : Nat) (f : EvexForm) (tmp : BitVec vl) : BitVec vl :=
  maskWrite esz vl (decide (f.aaa = 0)) (s.kAt f.aaa) f.z (s.vLow vl f.d) tmp

/-- An MMX form on elements of `esz` bits (R160, R170, R180). -/
def mmForm (esz : Nat) (f : LegacyForm) (s : State) : Host.Outcome State Fault Refusal :=
  outcome do
    let m ← s.admitted
    firstStop (s.mmCauses f)
    let b ← s.mmSource m f
    return ((s.setMm f.reg (unpckl esz 64 (s.mmAt f.reg) b)).x87Any).advance m f.len
      (s.readEventOf m (legacyAddressing f) f.rm 32)

/-- A legacy 128-bit form (R161, R171, R181, R190). -/
def xmmForm (esz : Nat) (f : LegacyForm) (s : State) : Host.Outcome State Fault Refusal :=
  outcome do
    let m ← s.admitted
    firstStop (s.xmmCauses f)
    let b ← s.xmmSource m f
    return (s.writeVec f.d (unpckl esz 128 (s.vLow 128 f.d) b) .keep).advance m f.len
      (s.readEventOf m (legacyAddressing f) f.rm 128)

/-- A VEX form of `vl` bits (R162, R163, R172, R173, R182, R183, R191, R192). -/
def vexForm (esz vl : Nat) (f : VexForm) (s : State) : Host.Outcome State Fault Refusal :=
  outcome do
    let m ← s.admitted
    firstStop (s.vexCauses vl f)
    let b ← s.vexSource m vl f
    return (s.writeVec f.d (unpckl esz vl (s.vLow vl f.s1) b) .zero).advance m f.len
      (s.readEventOf m (vexAddressing f) f.rm vl)

/-- An EVEX form of `vl` bits (R164 to R167, R174 to R177, R184 to R187, R193 to R196). -/
def evexForm (esz vl : Nat) (f : EvexForm) (s : State) : Host.Outcome State Fault Refusal :=
  outcome do
    let m ← s.admitted
    firstStop (s.evexCauses esz vl f)
    let b ← s.evexSource m esz vl f
    return (s.writeVec f.d (s.masked esz f (unpckl esz vl (s.vLow vl f.s1) b)) .zero).advance m f.len
      (s.readEventOf m (evexAddressing esz vl f) f.rm (if f.bc then esz else vl))

end Sys2Proof.Machine
end

