-- ==== Sys2Proof/Machine/Punpcklbw.lean ====
section
/-! DEFINITION. The meanings of the PUNPCKLBW and VPUNPCKLBW forms, which interleave low-order bytes (41_punpcklbw.md). -/

namespace Sys2Proof.Machine

/-- `PUNPCKLBW mm, mm/m32` (R160). -/
def execPunpcklbwMm (f : LegacyForm) (s : State) : Host.Outcome State Fault Refusal := mmForm 8 f s

/-- `PUNPCKLBW xmm1, xmm2/m128` (R161). -/
def execPunpcklbwXmm (f : LegacyForm) (s : State) : Host.Outcome State Fault Refusal := xmmForm 8 f s

/-- `VPUNPCKLBW xmm1, xmm2, xmm3/m128`, VEX.128 (R162). -/
def execVpunpcklbwXmmVex (f : VexForm) (s : State) : Host.Outcome State Fault Refusal := vexForm 8 128 f s

/-- `VPUNPCKLBW ymm1, ymm2, ymm3/m256`, VEX.256 (R163). -/
def execVpunpcklbwYmmVex (f : VexForm) (s : State) : Host.Outcome State Fault Refusal := vexForm 8 256 f s

/-- `VPUNPCKLBW xmm1 {k1}{z}, xmm2, xmm3/m128`, EVEX.128 (R164). -/
def execVpunpcklbwXmmEvex (f : EvexForm) (s : State) : Host.Outcome State Fault Refusal := evexForm 8 128 f s

/-- `VPUNPCKLBW ymm1 {k1}{z}, ymm2, ymm3/m256`, EVEX.256 (R165). -/
def execVpunpcklbwYmmEvex (f : EvexForm) (s : State) : Host.Outcome State Fault Refusal := evexForm 8 256 f s

/-- `VPUNPCKLBW zmm1 {k1}{z}, zmm2, zmm3/m512`, EVEX.512 (R166). -/
def execVpunpcklbwZmmEvex (f : EvexForm) (s : State) : Host.Outcome State Fault Refusal := evexForm 8 512 f s

end Sys2Proof.Machine
end

