-- ==== Sys2Proof/Machine/Punpckldq.lean ====
section
/-! DEFINITION. The meanings of the PUNPCKLDQ and VPUNPCKLDQ forms, which interleave low-order doublewords (43_punpckldq.md). -/

namespace Sys2Proof.Machine

/-- `PUNPCKLDQ mm, mm/m32` (R180). -/
def execPunpckldqMm (f : LegacyForm) (s : State) : Host.Outcome State Fault Refusal := mmForm 32 f s

/-- `PUNPCKLDQ xmm1, xmm2/m128` (R181). -/
def execPunpckldqXmm (f : LegacyForm) (s : State) : Host.Outcome State Fault Refusal := xmmForm 32 f s

/-- `VPUNPCKLDQ xmm1, xmm2, xmm3/m128`, VEX.128 (R182). -/
def execVpunpckldqXmmVex (f : VexForm) (s : State) : Host.Outcome State Fault Refusal := vexForm 32 128 f s

/-- `VPUNPCKLDQ ymm1, ymm2, ymm3/m256`, VEX.256 (R183). -/
def execVpunpckldqYmmVex (f : VexForm) (s : State) : Host.Outcome State Fault Refusal := vexForm 32 256 f s

/-- `VPUNPCKLDQ xmm1 {k1}{z}, xmm2, xmm3/m128/m32bcst`, EVEX.128 (R184). -/
def execVpunpckldqXmmEvex (f : EvexForm) (s : State) : Host.Outcome State Fault Refusal := evexForm 32 128 f s

/-- `VPUNPCKLDQ ymm1 {k1}{z}, ymm2, ymm3/m256/m32bcst`, EVEX.256 (R185). -/
def execVpunpckldqYmmEvex (f : EvexForm) (s : State) : Host.Outcome State Fault Refusal := evexForm 32 256 f s

/-- `VPUNPCKLDQ zmm1 {k1}{z}, zmm2, zmm3/m512/m32bcst`, EVEX.512 (R186). -/
def execVpunpckldqZmmEvex (f : EvexForm) (s : State) : Host.Outcome State Fault Refusal := evexForm 32 512 f s

end Sys2Proof.Machine
end

