-- ==== Sys2Proof/Machine/Punpcklqdq.lean ====
section
/-! DEFINITION. The meanings of the PUNPCKLQDQ and VPUNPCKLQDQ forms, which interleave low-order quadwords (44_punpcklqdq.md). -/

namespace Sys2Proof.Machine

/-- `PUNPCKLQDQ xmm1, xmm2/m128` (R190). -/
def execPunpcklqdqXmm (f : LegacyForm) (s : State) : Host.Outcome State Fault Refusal := xmmForm 64 f s

/-- `VPUNPCKLQDQ xmm1, xmm2, xmm3/m128`, VEX.128 (R191). -/
def execVpunpcklqdqXmmVex (f : VexForm) (s : State) : Host.Outcome State Fault Refusal := vexForm 64 128 f s

/-- `VPUNPCKLQDQ ymm1, ymm2, ymm3/m256`, VEX.256 (R192). -/
def execVpunpcklqdqYmmVex (f : VexForm) (s : State) : Host.Outcome State Fault Refusal := vexForm 64 256 f s

/-- `VPUNPCKLQDQ xmm1 {k1}{z}, xmm2, xmm3/m128/m64bcst`, EVEX.128 (R193). -/
def execVpunpcklqdqXmmEvex (f : EvexForm) (s : State) : Host.Outcome State Fault Refusal := evexForm 64 128 f s

/-- `VPUNPCKLQDQ ymm1 {k1}{z}, ymm2, ymm3/m256/m64bcst`, EVEX.256 (R194). -/
def execVpunpcklqdqYmmEvex (f : EvexForm) (s : State) : Host.Outcome State Fault Refusal := evexForm 64 256 f s

/-- `VPUNPCKLQDQ zmm1 {k1}{z}, zmm2, zmm3/m512/m64bcst`, EVEX.512 (R195). -/
def execVpunpcklqdqZmmEvex (f : EvexForm) (s : State) : Host.Outcome State Fault Refusal := evexForm 64 512 f s

end Sys2Proof.Machine
end

