-- ==== Sys2Proof/Machine/Punpcklwd.lean ====
section
/-! DEFINITION. The meanings of the PUNPCKLWD and VPUNPCKLWD forms, which interleave low-order words (42_punpcklwd.md). -/

namespace Sys2Proof.Machine

/-- `PUNPCKLWD mm, mm/m32` (R170). -/
def execPunpcklwdMm (f : LegacyForm) (s : State) : Host.Outcome State Fault Refusal := mmForm 16 f s

/-- `PUNPCKLWD xmm1, xmm2/m128` (R171). -/
def execPunpcklwdXmm (f : LegacyForm) (s : State) : Host.Outcome State Fault Refusal := xmmForm 16 f s

/-- `VPUNPCKLWD xmm1, xmm2, xmm3/m128`, VEX.128 (R172). -/
def execVpunpcklwdXmmVex (f : VexForm) (s : State) : Host.Outcome State Fault Refusal := vexForm 16 128 f s

/-- `VPUNPCKLWD ymm1, ymm2, ymm3/m256`, VEX.256 (R173). -/
def execVpunpcklwdYmmVex (f : VexForm) (s : State) : Host.Outcome State Fault Refusal := vexForm 16 256 f s

/-- `VPUNPCKLWD xmm1 {k1}{z}, xmm2, xmm3/m128`, EVEX.128 (R174). -/
def execVpunpcklwdXmmEvex (f : EvexForm) (s : State) : Host.Outcome State Fault Refusal := evexForm 16 128 f s

/-- `VPUNPCKLWD ymm1 {k1}{z}, ymm2, ymm3/m256`, EVEX.256 (R175). -/
def execVpunpcklwdYmmEvex (f : EvexForm) (s : State) : Host.Outcome State Fault Refusal := evexForm 16 256 f s

/-- `VPUNPCKLWD zmm1 {k1}{z}, zmm2, zmm3/m512`, EVEX.512 (R176). -/
def execVpunpcklwdZmmEvex (f : EvexForm) (s : State) : Host.Outcome State Fault Refusal := evexForm 16 512 f s

end Sys2Proof.Machine
end

