-- ==== Sys2Proof/Machine/Dispatch.lean ====
section
/-! DEFINITION. One arm per constructor of `Instr`, each one direct call of its meaning. -/

namespace Sys2Proof.Machine

/-- The meaning of an instruction at a state. -/
def exec (i : Instr) (s : State) : Host.Outcome State Fault Refusal :=
  match i with
  | .punpcklbwMm f => Sys2Proof.Machine.execPunpcklbwMm f s
  | .punpcklbwXmm f => Sys2Proof.Machine.execPunpcklbwXmm f s
  | .vpunpcklbwXmmVex f => Sys2Proof.Machine.execVpunpcklbwXmmVex f s
  | .vpunpcklbwYmmVex f => Sys2Proof.Machine.execVpunpcklbwYmmVex f s
  | .vpunpcklbwXmmEvex f => Sys2Proof.Machine.execVpunpcklbwXmmEvex f s
  | .vpunpcklbwYmmEvex f => Sys2Proof.Machine.execVpunpcklbwYmmEvex f s
  | .vpunpcklbwZmmEvex f => Sys2Proof.Machine.execVpunpcklbwZmmEvex f s
  | .punpcklwdMm f => Sys2Proof.Machine.execPunpcklwdMm f s
  | .punpcklwdXmm f => Sys2Proof.Machine.execPunpcklwdXmm f s
  | .vpunpcklwdXmmVex f => Sys2Proof.Machine.execVpunpcklwdXmmVex f s
  | .vpunpcklwdYmmVex f => Sys2Proof.Machine.execVpunpcklwdYmmVex f s
  | .vpunpcklwdXmmEvex f => Sys2Proof.Machine.execVpunpcklwdXmmEvex f s
  | .vpunpcklwdYmmEvex f => Sys2Proof.Machine.execVpunpcklwdYmmEvex f s
  | .vpunpcklwdZmmEvex f => Sys2Proof.Machine.execVpunpcklwdZmmEvex f s
  | .punpckldqMm f => Sys2Proof.Machine.execPunpckldqMm f s
  | .punpckldqXmm f => Sys2Proof.Machine.execPunpckldqXmm f s
  | .vpunpckldqXmmVex f => Sys2Proof.Machine.execVpunpckldqXmmVex f s
  | .vpunpckldqYmmVex f => Sys2Proof.Machine.execVpunpckldqYmmVex f s
  | .vpunpckldqXmmEvex f => Sys2Proof.Machine.execVpunpckldqXmmEvex f s
  | .vpunpckldqYmmEvex f => Sys2Proof.Machine.execVpunpckldqYmmEvex f s
  | .vpunpckldqZmmEvex f => Sys2Proof.Machine.execVpunpckldqZmmEvex f s
  | .punpcklqdqXmm f => Sys2Proof.Machine.execPunpcklqdqXmm f s
  | .vpunpcklqdqXmmVex f => Sys2Proof.Machine.execVpunpcklqdqXmmVex f s
  | .vpunpcklqdqYmmVex f => Sys2Proof.Machine.execVpunpcklqdqYmmVex f s
  | .vpunpcklqdqXmmEvex f => Sys2Proof.Machine.execVpunpcklqdqXmmEvex f s
  | .vpunpcklqdqYmmEvex f => Sys2Proof.Machine.execVpunpcklqdqYmmEvex f s
  | .vpunpcklqdqZmmEvex f => Sys2Proof.Machine.execVpunpcklqdqZmmEvex f s

end Sys2Proof.Machine
end

