-- ==== Sys2Proof/Machine/Fetch.lean ====
section
/-! DEFINITION. Fetching the bytes of an instruction through CS at `rip` (20_memory.md R51) and decoding them; the refusals of
92 D12 when the bytes or the next instruction pointer are outside what the launch may hold; and the program load that
`State.withFetchWord` stands for. -/

namespace Sys2Proof.Machine

/-- The number of bytes fetched. An instruction has any number of legacy prefixes (R114 step 1) and at most 12 bytes after
them (REX, four EVEX bytes, opcode, ModRM, SIB, disp32). A prefix byte is none that an unlisted address reads as, so as many
as memory lists are enough. An instruction of more than 15 bytes is read whole and raises #GP(0) (R81). Log entry 27. -/
def State.fetchWindow (s : State) : Nat := s.mem.length + 12

/-- The linear address of byte `k` of the instruction at `rip` (R51; CS has base 0 in `Long64`, R59). -/
def State.fetchAddr (s : State) (m : Mode) (k : Nat) : QWord :=
  match m with
  | .long64 => s.rip + BitVec.ofNat 64 k
  | .prot32 => ((s.cs.base + s.rip + BitVec.ofNat 64 k).setWidth 32).setWidth 64

/-- The instruction pointer is one the code segment holds: canonical in `Long64`, within the limit in `Prot32` (D12). -/
def State.ripInside (s : State) (m : Mode) (rip : QWord) : Bool :=
  match m with
  | .long64 => canonical s.law rip
  | .prot32 => decide (rip.toNat ≤ s.cs.limit.toNat)

/-- Byte `k` at `rip` may be fetched: inside the code segment, readable and executable (D12). -/
def State.fetchable (s : State) (m : Mode) (k : Nat) : Bool :=
  s.ripInside m (s.rip + BitVec.ofNat 64 k) && s.kindAt (s.fetchAddr m k).toNat == .ordinary

/-- The fetchable ones of the `n` bytes from byte `k` on, up to the first that is not. -/
def State.fetchFrom (s : State) (m : Mode) : Nat → Nat → List Byte
  | 0, _ => []
  | n + 1, k =>
    if s.fetchable m k then s.mem.read (s.fetchAddr m k).toNat :: s.fetchFrom m n (k + 1) else []

/-- The bytes the decoder is given. -/
def State.fetchBytes (s : State) (m : Mode) : List Byte := s.fetchFrom m s.fetchWindow 0

/-- What a byte string without an instruction means: bytes that cannot be fetched and strings of no row are refused (D12,
R115, R205); of 16-bit addressing after a bad prefix the decoder already knows the exception (R114 step 3, R211 steps 1 and
2; log entry 14). -/
def State.decodeStop (s : State) : DecodeError → Stop
  | .truncated => .refused .fetch
  | .badPrefix => s.takeException .ud
  | .tooLong => s.takeException .gp
  | e => .refused (.encoding e)

/-- The instruction at `rip`; refused when `rip + len` is outside the code segment (R23, D12). -/
def State.fetchInstr (s : State) (m : Mode) : Except Stop Instr :=
  match decode m (s.fetchBytes m) with
  | .error e => .error (s.decodeStop e)
  | .ok (i, _) =>
    if s.ripInside m (nextRip m s.rip i.len) then .ok i else .error (.refused .nextRip)

/-- What the launch must have before an instruction runs: an admitted mode (D4) and RFLAGS.TF = 0 (R224). -/
def State.launched (s : State) : Except Stop Mode := do
  let m ← s.admitted
  firstStop [(s.tf, .refused .singleStep)]
  return m

/-- The instruction that the next step runs, or why there is none. -/
def State.current (s : State) : Except Stop Instr := do
  let m ← s.launched
  s.fetchInstr m

/-! ## Loading a program from outside -/

/-- Bytes stored from byte `k` of the instruction at `rip` on. -/
def State.loadFrom (s : State) (m : Mode) : Nat → List Byte → State
  | _, [] => s
  | k, b :: bs => State.loadFrom { s with mem := s.mem.write (s.fetchAddr m k).toNat b } m (k + 1) bs

/-- `n` bytes can be fetched at `rip` in this mode, and so can the byte after them. -/
def State.windowReady (s : State) (m : Mode) (n : Nat) : Bool := (List.range (n + 1)).all fun k => s.fetchable m k

/-- The state and mode a program of `n` bytes is loaded into: the state itself when they can be fetched there, else the
standard launch (R241, R243; log entry 3). -/
def State.loadTarget (s : State) (n : Nat) : State × Mode :=
  match s.launched with
  | .ok m => if s.windowReady m n then (s, m) else (s.standardLaunch, .long64)
  | .error _ => (s.standardLaunch, .long64)

/-- The bytes loaded where the next step fetches. -/
def State.loadAtRip (s : State) (bytes : List Byte) : State :=
  (s.loadTarget bytes.length).1.loadFrom (s.loadTarget bytes.length).2 0 bytes

end Sys2Proof.Machine
end

