-- ==== Sys2Proof/Machine/Step.lean ====
section
/-! DEFINITION. One step of the machine: fetch, decode, execute (60_exceptions.md R214, R216: one instruction, nothing between
two of them), and the loading of one instruction word. -/

namespace Sys2Proof.Machine

/-- One step. -/
def step (s : State) : Host.Outcome State Fault Refusal :=
  match s.current with
  | .ok i => exec i s
  | .error stop => outcome (.error stop)

/-- The state with the instruction of a table word stored where the next step fetches (log entries 3 and 26). -/
def State.withFetchWord (s : State) (nbits w : Nat) : State := s.loadAtRip (tableBytes nbits w)

end Sys2Proof.Machine
end

