-- ==== Sys2Proof/Machine/Blocks.lean ====
section
/-! DEFINITION. The fifteen pseudocode blocks of the source, transcribed line by line (40_interleave_primitives.md R131 to
R136, R143 to R151): what claims compare `unpckl` and the meanings with. The lines stand most significant first, joined by
`++`. -/

namespace Sys2Proof.Machine

/-- "PUNPCKLBW instruction with 64-bit operands" (R131) of `DEST` (old value), `SRC`. -/
def punpcklbw64 (a b : BitVec 64) : BitVec 64 :=
  b.extractLsb 31 24 ++ a.extractLsb 31 24 ++ b.extractLsb 23 16 ++ a.extractLsb 23 16 ++ b.extractLsb 15 8
    ++ a.extractLsb 15 8 ++ b.extractLsb 7 0 ++ a.extractLsb 7 0

/-- "PUNPCKLWD instruction with 64-bit operands" (R132) of `DEST` (old value), `SRC`. -/
def punpcklwd64 (a b : BitVec 64) : BitVec 64 :=
  b.extractLsb 31 16 ++ a.extractLsb 31 16 ++ b.extractLsb 15 0 ++ a.extractLsb 15 0

/-- "PUNPCKLDQ instruction with 64-bit operands" (R133) of `DEST` (old value), `SRC`. -/
def punpckldq64 (a b : BitVec 64) : BitVec 64 :=
  b.extractLsb 31 0 ++ a.extractLsb 31 0

/-- INTERLEAVE_BYTES, with the line corrected by 90_conflicts.md C4 (R134) of `SRC1`, `SRC2`. -/
def interleaveBytes (a b : BitVec 128) : BitVec 128 :=
  b.extractLsb 63 56 ++ a.extractLsb 63 56 ++ b.extractLsb 55 48 ++ a.extractLsb 55 48 ++ b.extractLsb 47 40
    ++ a.extractLsb 47 40 ++ b.extractLsb 39 32 ++ a.extractLsb 39 32 ++ b.extractLsb 31 24 ++ a.extractLsb 31 24
    ++ b.extractLsb 23 16 ++ a.extractLsb 23 16 ++ b.extractLsb 15 8 ++ a.extractLsb 15 8 ++ b.extractLsb 7 0
    ++ a.extractLsb 7 0

/-- INTERLEAVE_BYTES_256b (R135) of `SRC1`, `SRC2`. -/
def interleaveBytes256 (a b : BitVec 256) : BitVec 256 :=
  b.extractLsb 191 184 ++ a.extractLsb 191 184 ++ b.extractLsb 183 176 ++ a.extractLsb 183 176 ++ b.extractLsb 175 168
    ++ a.extractLsb 175 168 ++ b.extractLsb 167 160 ++ a.extractLsb 167 160 ++ b.extractLsb 159 152
    ++ a.extractLsb 159 152 ++ b.extractLsb 151 144 ++ a.extractLsb 151 144 ++ b.extractLsb 143 136
    ++ a.extractLsb 143 136 ++ b.extractLsb 135 128 ++ a.extractLsb 135 128 ++ b.extractLsb 63 56
    ++ a.extractLsb 63 56 ++ b.extractLsb 55 48 ++ a.extractLsb 55 48 ++ b.extractLsb 47 40 ++ a.extractLsb 47 40
    ++ b.extractLsb 39 32 ++ a.extractLsb 39 32 ++ b.extractLsb 31 24 ++ a.extractLsb 31 24 ++ b.extractLsb 23 16
    ++ a.extractLsb 23 16 ++ b.extractLsb 15 8 ++ a.extractLsb 15 8 ++ b.extractLsb 7 0 ++ a.extractLsb 7 0

/-- INTERLEAVE_BYTES_512b (R136) of `SRC1`, `SRC2`. -/
def interleaveBytes512 (a b : BitVec 512) : BitVec 512 :=
  interleaveBytes256 (a.extractLsb 511 256) (b.extractLsb 511 256)
    ++ interleaveBytes256 (a.extractLsb 255 0) (b.extractLsb 255 0)

/-- INTERLEAVE_WORDS (R143) of `SRC1`, `SRC2`. -/
def interleaveWords (a b : BitVec 128) : BitVec 128 :=
  b.extractLsb 63 48 ++ a.extractLsb 63 48 ++ b.extractLsb 47 32 ++ a.extractLsb 47 32 ++ b.extractLsb 31 16
    ++ a.extractLsb 31 16 ++ b.extractLsb 15 0 ++ a.extractLsb 15 0

/-- INTERLEAVE_WORDS_256b (R144) of `SRC1`, `SRC2`. -/
def interleaveWords256 (a b : BitVec 256) : BitVec 256 :=
  b.extractLsb 191 176 ++ a.extractLsb 191 176 ++ b.extractLsb 175 160 ++ a.extractLsb 175 160 ++ b.extractLsb 159 144
    ++ a.extractLsb 159 144 ++ b.extractLsb 143 128 ++ a.extractLsb 143 128 ++ b.extractLsb 63 48
    ++ a.extractLsb 63 48 ++ b.extractLsb 47 32 ++ a.extractLsb 47 32 ++ b.extractLsb 31 16 ++ a.extractLsb 31 16
    ++ b.extractLsb 15 0 ++ a.extractLsb 15 0

/-- INTERLEAVE_WORDS_512b (R145) of `SRC1`, `SRC2`. -/
def interleaveWords512 (a b : BitVec 512) : BitVec 512 :=
  interleaveWords256 (a.extractLsb 511 256) (b.extractLsb 511 256)
    ++ interleaveWords256 (a.extractLsb 255 0) (b.extractLsb 255 0)

/-- INTERLEAVE_DWORDS (R146) of `SRC1`, `SRC2`. -/
def interleaveDwords (a b : BitVec 128) : BitVec 128 :=
  b.extractLsb 63 32 ++ a.extractLsb 63 32 ++ b.extractLsb 31 0 ++ a.extractLsb 31 0

/-- INTERLEAVE_DWORDS_256b (R147) of `SRC1`, `SRC2`. -/
def interleaveDwords256 (a b : BitVec 256) : BitVec 256 :=
  b.extractLsb 191 160 ++ a.extractLsb 191 160 ++ b.extractLsb 159 128 ++ a.extractLsb 159 128 ++ b.extractLsb 63 32
    ++ a.extractLsb 63 32 ++ b.extractLsb 31 0 ++ a.extractLsb 31 0

/-- INTERLEAVE_DWORDS_512b (R148) of `SRC1`, `SRC2`. -/
def interleaveDwords512 (a b : BitVec 512) : BitVec 512 :=
  interleaveDwords256 (a.extractLsb 511 256) (b.extractLsb 511 256)
    ++ interleaveDwords256 (a.extractLsb 255 0) (b.extractLsb 255 0)

/-- INTERLEAVE_QWORDS (R149) of `SRC1`, `SRC2`. -/
def interleaveQwords (a b : BitVec 128) : BitVec 128 :=
  b.extractLsb 63 0 ++ a.extractLsb 63 0

/-- INTERLEAVE_QWORDS_256b (R150) of `SRC1`, `SRC2`. -/
def interleaveQwords256 (a b : BitVec 256) : BitVec 256 :=
  b.extractLsb 191 128 ++ a.extractLsb 191 128 ++ b.extractLsb 63 0 ++ a.extractLsb 63 0

/-- INTERLEAVE_QWORDS_512b (R151) of `SRC1`, `SRC2`. -/
def interleaveQwords512 (a b : BitVec 512) : BitVec 512 :=
  interleaveQwords256 (a.extractLsb 511 256) (b.extractLsb 511 256)
    ++ interleaveQwords256 (a.extractLsb 255 0) (b.extractLsb 255 0)

end Sys2Proof.Machine
end

