-- ==== Sys2Proof/Safety.lean ====
section
/-! DEFINITION. The terms claims are stated in: the shape of an instruction, what must hold for it to complete, what it
leaves untouched, and the invariant every step keeps. -/

namespace Sys2Proof.Machine

/-! ## Shapes -/

/-- An instruction seen by what its row of opcode_table.json fixes: encoding class, element size, vector length. -/
inductive Shape where
  | mm (esz : Nat) (f : LegacyForm)
  | xmm (esz : Nat) (f : LegacyForm)
  | vex (esz vl : Nat) (f : VexForm)
  | evex (esz vl : Nat) (f : EvexForm)

/-- The shape of an instruction: element size 8, 16, 32, 64 for BW, WD, DQ, QDQ; vector length by the operands of the row. -/
def shape : Instr → Shape
  | .punpcklbwMm f => .mm 8 f
  | .punpcklbwXmm f => .xmm 8 f
  | .vpunpcklbwXmmVex f => .vex 8 128 f
  | .vpunpcklbwYmmVex f => .vex 8 256 f
  | .vpunpcklbwXmmEvex f => .evex 8 128 f
  | .vpunpcklbwYmmEvex f => .evex 8 256 f
  | .vpunpcklbwZmmEvex f => .evex 8 512 f
  | .punpcklwdMm f => .mm 16 f
  | .punpcklwdXmm f => .xmm 16 f
  | .vpunpcklwdXmmVex f => .vex 16 128 f
  | .vpunpcklwdYmmVex f => .vex 16 256 f
  | .vpunpcklwdXmmEvex f => .evex 16 128 f
  | .vpunpcklwdYmmEvex f => .evex 16 256 f
  | .vpunpcklwdZmmEvex f => .evex 16 512 f
  | .punpckldqMm f => .mm 32 f
  | .punpckldqXmm f => .xmm 32 f
  | .vpunpckldqXmmVex f => .vex 32 128 f
  | .vpunpckldqYmmVex f => .vex 32 256 f
  | .vpunpckldqXmmEvex f => .evex 32 128 f
  | .vpunpckldqYmmEvex f => .evex 32 256 f
  | .vpunpckldqZmmEvex f => .evex 32 512 f
  | .punpcklqdqXmm f => .xmm 64 f
  | .vpunpcklqdqXmmVex f => .vex 64 128 f
  | .vpunpcklqdqYmmVex f => .vex 64 256 f
  | .vpunpcklqdqXmmEvex f => .evex 64 128 f
  | .vpunpcklqdqYmmEvex f => .evex 64 256 f
  | .vpunpcklqdqZmmEvex f => .evex 64 512 f

/-- ModRM:r/m of a shape. -/
def Shape.rm : Shape → Rm
  | .mm _ f => f.rm
  | .xmm _ f => f.rm
  | .vex _ _ f => f.rm
  | .evex _ _ f => f.rm

/-- The legacy prefixes of a shape. -/
def Shape.prefixes : Shape → List Prefix
  | .mm _ f => f.prefixes
  | .xmm _ f => f.prefixes
  | .vex _ _ f => f.prefixes
  | .evex _ _ f => f.prefixes

/-- The addressing of a shape's memory operand. -/
def Shape.addressing : Shape → Addressing
  | .mm _ f => legacyAddressing f
  | .xmm _ f => legacyAddressing f
  | .vex _ _ f => vexAddressing f
  | .evex esz vl f => evexAddressing esz vl f

/-- The size in bits of a shape's memory operand (R52). -/
def Shape.width : Shape → Nat
  | .mm _ _ => 32
  | .xmm _ _ => 128
  | .vex _ vl _ => vl
  | .evex esz vl f => if f.bc then esz else vl

/-- What a shape asks of alignment (R61). -/
def Shape.alignment : Shape → AlignRule
  | .mm _ _ => .mmx
  | .xmm _ _ => .sse
  | .vex _ _ _ => .vector
  | .evex _ _ _ => .vector

/-- The segment of a shape's memory operand `a`. -/
def Shape.segment (h : Shape) (m : Mode) (a : Addr) : SegName := operandSegment m h.addressing a

/-- The effective address of a shape's memory operand `a`. -/
def Shape.ea (h : Shape) (m : Mode) (a : Addr) (s : State) : QWord := s.effAddr m h.addressing a

/-- The linear address of a shape's memory operand `a`. -/
def Shape.la (h : Shape) (m : Mode) (a : Addr) (s : State) : QWord := s.linear m (h.segment m a) (h.ea m a s)

/-! ## When a form is refused, raises #UD, or is ready -/

/-- The two byte strings that match a row and are refused (R108, R109, R205). -/
def Shape.Refused : Shape → Prop
  | .mm _ _ => False
  | .xmm _ _ => False
  | .vex _ _ _ => False
  | .evex esz _ f => (f.aaa = 0 ∧ f.z = true) ∨ (32 ≤ esz ∧ f.bc = true ∧ f.rm.isMem = false)

/-- No prefix that raises #UD (R204). -/
def Shape.PrefixesOk : Shape → Prop
  | .mm _ f => .lock ∉ f.prefixes
  | .xmm _ f => .lock ∉ f.prefixes
  | .vex _ _ f =>
    .lock ∉ f.prefixes ∧ .opSize ∉ f.prefixes ∧ .repne ∉ f.prefixes ∧ .rep ∉ f.prefixes ∧ f.rex = none
  | .evex _ _ f =>
    .lock ∉ f.prefixes ∧ .opSize ∉ f.prefixes ∧ .repne ∉ f.prefixes ∧ .rep ∉ f.prefixes ∧ f.rex = none

/-- The control bits that the encoding class asks for (R203). -/
def Shape.ControlOk (s : State) : Shape → Prop
  | .mm _ _ => s.em = false
  | .xmm _ _ => s.em = false ∧ s.osfxsr = true
  | .vex _ _ _ => s.osxsave = true ∧ s.xcr0.getLsbD 1 = true ∧ s.xcr0.getLsbD 2 = true
  | .evex _ _ _ =>
    s.osxsave = true ∧ s.xcr0.getLsbD 1 = true ∧ s.xcr0.getLsbD 2 = true ∧ s.xcr0.getLsbD 5 = true
      ∧ s.xcr0.getLsbD 6 = true ∧ s.xcr0.getLsbD 7 = true

/-- The feature flags of the row are present (R2, R203). -/
def Shape.FeaturesOk (s : State) : Shape → Prop
  | .mm _ _ => s.features.mmx = true
  | .xmm _ _ => s.features.sse2 = true
  | .vex _ vl _ => (vl = 128 → s.features.avx = true) ∧ (vl ≠ 128 → s.features.avx2 = true)
  | .evex esz vl _ =>
    (esz < 32 → s.features.avx512bw = true) ∧ (32 ≤ esz → s.features.avx512f = true)
      ∧ (vl ≠ 512 → s.features.avx512vl = true)

/-- No `EVEX.b = 1` in VPUNPCKLBW and VPUNPCKLWD (R206). -/
def Shape.BroadcastOk : Shape → Prop
  | .mm _ _ => True
  | .xmm _ _ => True
  | .vex _ _ _ => True
  | .evex esz _ f => esz < 32 → f.bc = false

/-- No pending x87 exception where the form looks for one (R207). -/
def Shape.X87Ok (s : State) : Shape → Prop
  | .mm _ _ => s.x87Pending = false
  | .xmm _ _ => True
  | .vex _ _ _ => True
  | .evex _ _ _ => True

/-- Nothing that raises #UD. -/
structure NoUd (i : Instr) (s : State) : Prop where
  prefixes : (shape i).PrefixesOk
  control : (shape i).ControlOk s
  features : (shape i).FeaturesOk s
  broadcast : (shape i).BroadcastOk

/-- Every check before the memory operand passes (R211 steps 1 to 7), and the bytes are none of the refused ones. -/
structure Ready (i : Instr) (s : State) : Prop where
  notRefused : ¬ (shape i).Refused
  length : i.len ≤ 15
  noUd : NoUd i s
  taskSwitched : s.ts = false
  x87 : (shape i).X87Ok s

/-- The segment or canonical check of an operand of `n` bytes passes (R59, R60). -/
def SegmentOk (s : State) (m : Mode) (seg : SegName) (ea : QWord) (n : Nat) : Prop :=
  match m with
  | .long64 => ∀ k < n, canonical s.law (byteAddr .long64 (s.linear .long64 seg ea) k) = true
  | .prot32 =>
    (s.segReg seg).isNull = false ∧ (s.segReg seg).readable = true ∧ (s.segReg seg).expandDown = false
      ∧ ea.toNat + n - 1 ≤ (s.segReg seg).limit.toNat

/-- Byte `k` of an operand at `la` can be read: neither denied nor in a region with read side effects. -/
def ByteOk (s : State) (m : Mode) (la : QWord) (k : Nat) : Prop :=
  s.kindAt (byteAddr m la k).toNat = .ordinary ∨ s.kindAt (byteAddr m la k).toNat = .noExecute

/-- No alignment exception, whatever the open choice of U6 (R61). -/
def AlignOk (s : State) (al : AlignRule) (la : QWord) (n : Nat) : Prop :=
  match al with
  | .mmx => s.alignChecking = true → la.toNat % 4 = 0
  | .sse => la.toNat % 16 = 0
  | .vector => s.alignChecking = true → la.toNat % n = 0

/-- The memory operand of an instruction, if it has one, is readable through its segment and the oracle (R242). -/
def OperandOk (i : Instr) (m : Mode) (s : State) : Prop :=
  ∀ a, (shape i).rm = .mem a →
    SegmentOk s m ((shape i).segment m a) ((shape i).ea m a s) ((shape i).width / 8)
      ∧ (∀ k < (shape i).width / 8, ByteOk s m ((shape i).la m a s) k)
      ∧ AlignOk s (shape i).alignment ((shape i).la m a s) ((shape i).width / 8)

/-- `b` is the little-endian value of the `w/8` bytes of memory at linear address `la` (R50). -/
def IsMemValue (s : State) (m : Mode) (la : QWord) {w : Nat} (b : BitVec w) : Prop :=
  ∀ k < w / 8, elem 8 b k = s.mem.read (byteAddr m la k).toNat

/-! ## Register numbers and displacements -/

/-- The register numbers that an addressing form names: base and index (R89, R90). -/
def addrNumbers (c : Addressing) : Addr → List Nat
  | .base rm _ => [(num4 c.b rm).toNat]
  | .disp32 _ => []
  | .sib _ i b _ => [(num4 c.b b).toNat, (num4 c.x i).toNat]
  | .sibDisp32 _ i _ => [(num4 c.x i).toNat]

/-- The register numbers that an instruction names, in operand positions and in its address (R27). -/
def Shape.numbers : Shape → List Nat
  | .mm _ f =>
    f.reg.toNat :: match f.rm with
      | .reg rm => [rm.toNat]
      | .mem a => addrNumbers (legacyAddressing f) a
  | .xmm _ f =>
    f.d.toNat :: match f.rm with
      | .reg rm => [(f.s rm).toNat]
      | .mem a => addrNumbers (legacyAddressing f) a
  | .vex _ _ f =>
    f.d.toNat :: f.s1.toNat :: match f.rm with
      | .reg rm => [(f.s2 rm).toNat]
      | .mem a => addrNumbers (vexAddressing f) a
  | .evex esz vl f =>
    f.d.toNat :: f.s1.toNat :: match f.rm with
      | .reg rm => [(f.s2 rm).toNat]
      | .mem a => addrNumbers (evexAddressing esz vl f) a

/-- A displacement as a signed number: `disp8` times the scale, `disp32` unscaled (R89, R113). -/
def dispValue (scale : Nat) : Disp → Int
  | .none => 0
  | .d8 d => d.toInt * scale
  | .d32 d => d.toInt

/-- A register term of an address as a number: the register, or its low 32 bits (R92). -/
def termValue (s : State) (size32 : Bool) (i : BitVec 4) : Nat :=
  if size32 then (s.gAt i).toNat % 2 ^ 32 else (s.gAt i).toNat

/-- The exact sum of R89 to R91, before it is cut to the address size. -/
def addrValue (s : State) (m : Mode) (c : Addressing) : Addr → Int
  | .base rm d => termValue s (c.size32 m) (num4 c.b rm) + dispValue c.scale d
  | .disp32 d =>
    match m with
    | .long64 => s.rip.toNat + c.len + d.toInt
    | .prot32 => d.toInt
  | .sib ss i b d =>
    termValue s (c.size32 m) (num4 c.b b)
      + (if num4 c.x i = 4 then 0 else termValue s (c.size32 m) (num4 c.x i) * 2 ^ ss.toNat) + dispValue c.scale d
  | .sibDisp32 ss i d =>
    (if num4 c.x i = 4 then 0 else termValue s (c.size32 m) (num4 c.x i) * 2 ^ ss.toNat) + d.toInt

/-! ## What a form leaves unchanged -/

/-- What no form of the family writes: general registers (R21), opmask registers (R29), flags (R30), MXCSR (R31), control
registers, EFER and CPL (R32, R218), segment registers (R34), features, the pending x87 exception, memory (R57) and the
oracle. The model's two records, `readEvent` and `draws`, are no register (log entries 9 and 29). -/
structure Untouched (s t : State) : Prop where
  g : ∀ i, t.gAt i = s.gAt i
  k : ∀ i, t.kAt i = s.kAt i
  rflags : t.rflags = s.rflags
  mxcsr : t.mxcsr = s.mxcsr
  cr0 : t.cr0 = s.cr0
  cr2 : t.cr2 = s.cr2
  cr4 : t.cr4 = s.cr4
  xcr0 : t.xcr0 = s.xcr0
  efer : t.efer = s.efer
  cpl : t.cpl = s.cpl
  smm : t.smm = s.smm
  segments : ∀ n, t.segReg n = s.segReg n
  features : t.features = s.features
  law : t.law = s.law
  x87Pending : t.x87Pending = s.x87Pending
  map : t.map = s.map
  memory : ∀ a, t.mem.read a = s.mem.read a

/-- The frame of an MMX form with destination `MM[d]`: x87 state is any value afterwards (R25). -/
structure MmFrame (d : BitVec 3) (s t : State) : Prop where
  untouched : Untouched s t
  mm : ∀ i, i ≠ d → t.mmAt i = s.mmAt i
  v : ∀ i, t.vAt i = s.vAt i

/-- The frame of a form with destination `V[d]`. -/
structure VecFrame (d : BitVec 5) (s t : State) : Prop where
  untouched : Untouched s t
  v : ∀ i, i ≠ d → t.vAt i = s.vAt i
  mm : ∀ i, t.mmAt i = s.mmAt i
  x87Upper : t.x87Upper = s.x87Upper
  x87Tag : t.x87Tag = s.x87Tag
  x87Top : t.x87Top = s.x87Top

/-- The frame of an instruction, by its destination. -/
def Frame (i : Instr) (s t : State) : Prop :=
  match shape i with
  | .mm _ f => MmFrame f.reg s t
  | .xmm _ f => VecFrame f.d s t
  | .vex _ _ f => VecFrame f.d s t
  | .evex _ _ f => VecFrame f.d s t

/-! ## What a form computes

`block` is the source's pseudocode block of the row. Each says where the form completes and with what result, with every
operand form of the row and every register number, the same register in several positions included (R157). -/

/-- The register form of an MMX row. -/
def MmRegisterResult (row : LegacyForm → Instr) (block : QWord → QWord → QWord) : Prop :=
  ∀ m f rm s, s.mode? = .ok m → f.rm = .reg rm → Ready (row f) s →
    ∃ t, exec (row f) s = .next t
      ∧ t.mmAt f.reg = block (s.mmAt f.reg) (s.mmAt rm)
      ∧ t.rip = nextRip m s.rip (row f).len ∧ MmFrame f.reg s t

/-- The memory form of an MMX row: 4 bytes. -/
def MmMemoryResult (row : LegacyForm → Instr) (block : QWord → QWord → QWord) : Prop :=
  ∀ m f a s (b : DWord), s.mode? = .ok m → f.rm = .mem a → Ready (row f) s → OperandOk (row f) m s →
    IsMemValue s m ((shape (row f)).la m a s) b →
    ∃ t, exec (row f) s = .next t
      ∧ t.mmAt f.reg = block (s.mmAt f.reg) (b.setWidth 64)
      ∧ t.rip = nextRip m s.rip (row f).len ∧ MmFrame f.reg s t

/-- The register form of a legacy 128-bit row: the bits from 128 on are kept. -/
def XmmRegisterResult (row : LegacyForm → Instr) (block : BitVec 128 → BitVec 128 → BitVec 128) : Prop :=
  ∀ m f rm s, s.mode? = .ok m → f.rm = .reg rm → Ready (row f) s →
    ∃ t, exec (row f) s = .next t
      ∧ t.vLow 128 f.d = block (s.vLow 128 f.d) (s.vLow 128 (f.s rm))
      ∧ (∀ p, 128 ≤ p → (t.vAt f.d).getLsbD p = (s.vAt f.d).getLsbD p)
      ∧ t.rip = nextRip m s.rip (row f).len ∧ VecFrame f.d s t

/-- The memory form of a legacy 128-bit row: 16 bytes. -/
def XmmMemoryResult (row : LegacyForm → Instr) (block : BitVec 128 → BitVec 128 → BitVec 128) : Prop :=
  ∀ m f a s (b : BitVec 128), s.mode? = .ok m → f.rm = .mem a → Ready (row f) s → OperandOk (row f) m s →
    IsMemValue s m ((shape (row f)).la m a s) b →
    ∃ t, exec (row f) s = .next t
      ∧ t.vLow 128 f.d = block (s.vLow 128 f.d) b
      ∧ (∀ p, 128 ≤ p → (t.vAt f.d).getLsbD p = (s.vAt f.d).getLsbD p)
      ∧ t.rip = nextRip m s.rip (row f).len ∧ VecFrame f.d s t

/-- The register form of a VEX row of `vl` bits: the bits from `vl` on are zero. -/
def VexRegisterResult (vl : Nat) (row : VexForm → Instr) (block : BitVec vl → BitVec vl → BitVec vl) : Prop :=
  ∀ m f rm s, s.mode? = .ok m → f.rm = .reg rm → Ready (row f) s →
    ∃ t, exec (row f) s = .next t
      ∧ t.vLow vl f.d = block (s.vLow vl f.s1) (s.vLow vl (f.s2 rm))
      ∧ (∀ p, vl ≤ p → (t.vAt f.d).getLsbD p = false)
      ∧ t.rip = nextRip m s.rip (row f).len ∧ VecFrame f.d s t

/-- The memory form of a VEX row of `vl` bits: `vl/8` bytes. -/
def VexMemoryResult (vl : Nat) (row : VexForm → Instr) (block : BitVec vl → BitVec vl → BitVec vl) : Prop :=
  ∀ m f a s (b : BitVec vl), s.mode? = .ok m → f.rm = .mem a → Ready (row f) s → OperandOk (row f) m s →
    IsMemValue s m ((shape (row f)).la m a s) b →
    ∃ t, exec (row f) s = .next t
      ∧ t.vLow vl f.d = block (s.vLow vl f.s1) b
      ∧ (∀ p, vl ≤ p → (t.vAt f.d).getLsbD p = false)
      ∧ t.rip = nextRip m s.rip (row f).len ∧ VecFrame f.d s t

/-- The destination of an EVEX form under its write mask (R141): element `j` is that of `r` where `aaa = 000B` or bit `j` of
`K[aaa]` is set, else 0 under zeroing and the old element under merging. -/
def MaskedResult {vl : Nat} (esz : Nat) (f : EvexForm) (s t : State) (r : BitVec vl) : Prop :=
  ∀ j < vl / esz, elem esz (t.vLow vl f.d) j =
    if f.aaa = 0 ∨ (s.kAt f.aaa).getLsbD j = true then elem esz r j
    else if f.z = true then 0
    else elem esz (s.vLow vl f.d) j

/-- The register form of an EVEX row. -/
def EvexRegisterResult (esz vl : Nat) (row : EvexForm → Instr) (block : BitVec vl → BitVec vl → BitVec vl) : Prop :=
  ∀ m f rm s, s.mode? = .ok m → f.rm = .reg rm → Ready (row f) s →
    ∃ t, exec (row f) s = .next t
      ∧ MaskedResult esz f s t (block (s.vLow vl f.s1) (s.vLow vl (f.s2 rm)))
      ∧ (∀ p, vl ≤ p → (t.vAt f.d).getLsbD p = false)
      ∧ t.rip = nextRip m s.rip (row f).len ∧ VecFrame f.d s t

/-- The full-width memory form of an EVEX row (`EVEX.b = 0`): `vl/8` bytes, whatever the mask holds (R55). -/
def EvexMemoryResult (esz vl : Nat) (row : EvexForm → Instr) (block : BitVec vl → BitVec vl → BitVec vl) : Prop :=
  ∀ m f a s (b : BitVec vl), s.mode? = .ok m → f.rm = .mem a → f.bc = false → Ready (row f) s →
    OperandOk (row f) m s → IsMemValue s m ((shape (row f)).la m a s) b →
    ∃ t, exec (row f) s = .next t
      ∧ MaskedResult esz f s t (block (s.vLow vl f.s1) b)
      ∧ (∀ p, vl ≤ p → (t.vAt f.d).getLsbD p = false)
      ∧ t.rip = nextRip m s.rip (row f).len ∧ VecFrame f.d s t

/-- The broadcast form of an EVEX row (`EVEX.b = 1`): one element of `esz/8` bytes, at every position of the second source
(R54, R142). -/
def EvexBroadcastResult (esz vl : Nat) (row : EvexForm → Instr) (block : BitVec vl → BitVec vl → BitVec vl) : Prop :=
  ∀ m f a s (b : BitVec esz) (src : BitVec vl), s.mode? = .ok m → f.rm = .mem a → f.bc = true → Ready (row f) s →
    OperandOk (row f) m s → IsMemValue s m ((shape (row f)).la m a s) b → (∀ j < vl / esz, elem esz src j = b) →
    ∃ t, exec (row f) s = .next t
      ∧ MaskedResult esz f s t (block (s.vLow vl f.s1) src)
      ∧ (∀ p, vl ≤ p → (t.vAt f.d).getLsbD p = false)
      ∧ t.rip = nextRip m s.rip (row f).len ∧ VecFrame f.d s t

/-- An outcome with its next state changed. -/
def mapNext (g : State → State) : Host.Outcome State Fault Refusal → Host.Outcome State Fault Refusal
  | .next t => .next (g t)
  | .fault f => .fault f
  | .refused r => .refused r

/-! ## The invariant -/

/-- What every step keeps: memory in canonical form, no bit of a vector register at or above `MAXVL` (R26), no register at or
above `NV` (R26), an instruction pointer that the code segment holds (R22, D12). -/
structure Invariant (s : State) : Prop where
  memory : s.mem.wf = true
  width : ∀ i b, s.maxvl ≤ b → (s.vAt i).getLsbD b = false
  count : ∀ i : BitVec 5, s.nv ≤ i.toNat → s.vAt i = 0
  rip : ∀ m, s.mode? = .ok m → s.ripInside m s.rip = true

end Sys2Proof.Machine
end

