-- ==== Sys2Proof/Certificates/Slice0/Obligations.lean ====
section
/-! DEFINITION. The statements for the provers, one `Prop` each. Their titles, texts and rules stand in OBLIGATIONS.json. -/

open Sys2Proof Sys2Proof.Machine

/-! ## The interleave functions -/

/-- R131, R132, R133: the three 64-bit blocks equal UNPCKL. -/
def Obligations.Unpckl64EqualsBlocks : Prop :=
  ∀ a b : BitVec 64,
    unpckl 8 64 a b = punpcklbw64 a b ∧ unpckl 16 64 a b = punpcklwd64 a b ∧ unpckl 32 64 a b = punpckldq64 a b

/-- R134, R135, R136: the byte functions equal UNPCKL. -/
def Obligations.UnpcklBytesEqualsBlocks : Prop :=
  (∀ a b : BitVec 128, unpckl 8 128 a b = interleaveBytes a b)
    ∧ (∀ a b : BitVec 256, unpckl 8 256 a b = interleaveBytes256 a b)
    ∧ ∀ a b : BitVec 512, unpckl 8 512 a b = interleaveBytes512 a b

/-- R143, R144, R145: the word functions equal UNPCKL. -/
def Obligations.UnpcklWordsEqualsBlocks : Prop :=
  (∀ a b : BitVec 128, unpckl 16 128 a b = interleaveWords a b)
    ∧ (∀ a b : BitVec 256, unpckl 16 256 a b = interleaveWords256 a b)
    ∧ ∀ a b : BitVec 512, unpckl 16 512 a b = interleaveWords512 a b

/-- R146, R147, R148: the doubleword functions equal UNPCKL. -/
def Obligations.UnpcklDwordsEqualsBlocks : Prop :=
  (∀ a b : BitVec 128, unpckl 32 128 a b = interleaveDwords a b)
    ∧ (∀ a b : BitVec 256, unpckl 32 256 a b = interleaveDwords256 a b)
    ∧ ∀ a b : BitVec 512, unpckl 32 512 a b = interleaveDwords512 a b

/-- R149, R150, R151: the quadword functions equal UNPCKL. -/
def Obligations.UnpcklQwordsEqualsBlocks : Prop :=
  (∀ a b : BitVec 128, unpckl 64 128 a b = interleaveQwords a b)
    ∧ (∀ a b : BitVec 256, unpckl 64 256 a b = interleaveQwords256 a b)
    ∧ ∀ a b : BitVec 512, unpckl 64 512 a b = interleaveQwords512 a b

/-- R139 by elements: with `epl` elements a lane, element `l*epl + t` of the result is element `l*epl + t/2` of `a` for even
`t`, of `b` for odd `t`. -/
def Obligations.UnpcklByElements : Prop :=
  ∀ esz n, esz ∈ [8, 16, 32, 64] → n ∈ [64, 128, 256, 512] → ∀ (a b : BitVec n) (l t : Nat),
    l < n / (if n = 64 then 64 else 128) → t < (if n = 64 then 64 else 128) / esz →
    elem esz (unpckl esz n a b) (l * ((if n = 64 then 64 else 128) / esz) + t) =
      if t % 2 = 0 then elem esz a (l * ((if n = 64 then 64 else 128) / esz) + t / 2)
      else elem esz b (l * ((if n = 64 then 64 else 128) / esz) + t / 2)

/-- R140: bits 63:32 of a 64-bit input, bits 127:64 of every lane of a wider one, never reach the result. -/
def Obligations.UnpcklIgnoresHighElements : Prop :=
  (∀ esz, esz ∈ [8, 16, 32] → ∀ a a' b b' : BitVec 64,
    a.extractLsb' 0 32 = a'.extractLsb' 0 32 → b.extractLsb' 0 32 = b'.extractLsb' 0 32 →
    unpckl esz 64 a b = unpckl esz 64 a' b')
    ∧ ∀ esz n, esz ∈ [8, 16, 32, 64] → n ∈ [128, 256, 512] → ∀ a a' b b' : BitVec n,
      (∀ l < n / 128, a.extractLsb' (128 * l) 64 = a'.extractLsb' (128 * l) 64) →
      (∀ l < n / 128, b.extractLsb' (128 * l) 64 = b'.extractLsb' (128 * l) 64) →
      unpckl esz n a b = unpckl esz n a' b'

/-- R153: with a zero second input, element `l*(epl/2) + i` of width `2*esz` is the zero-extension of element `l*epl + i` of
`a`. -/
def Obligations.ZeroSourceZeroExtends : Prop :=
  ∀ esz n, (esz, n) ∈ [(8, 64), (16, 64), (32, 64)] ∨ (esz ∈ [8, 16, 32, 64] ∧ n ∈ [128, 256, 512]) →
    ∀ (a : BitVec n) (l i : Nat),
    l < n / (if n = 64 then 64 else 128) → i < (if n = 64 then 64 else 128) / esz / 2 →
    elem (2 * esz) (unpckl esz n a 0) (l * ((if n = 64 then 64 else 128) / esz / 2) + i) =
      (elem esz a (l * ((if n = 64 then 64 else 128) / esz) + i)).setWidth (2 * esz)

/-- R157: with both inputs the same, elements `2i` and `2i+1` of a lane are both element `i` of that lane. -/
def Obligations.SameSourceDuplicates : Prop :=
  ∀ esz n, (esz, n) ∈ [(8, 64), (16, 64), (32, 64)] ∨ (esz ∈ [8, 16, 32, 64] ∧ n ∈ [128, 256, 512]) →
    ∀ (a : BitVec n) (l i : Nat),
    l < n / (if n = 64 then 64 else 128) → i < (if n = 64 then 64 else 128) / esz / 2 →
    elem esz (unpckl esz n a a) (l * ((if n = 64 then 64 else 128) / esz) + 2 * i) =
        elem esz a (l * ((if n = 64 then 64 else 128) / esz) + i)
      ∧ elem esz (unpckl esz n a a) (l * ((if n = 64 then 64 else 128) / esz) + 2 * i + 1) =
        elem esz a (l * ((if n = 64 then 64 else 128) / esz) + i)

/-- R141: element `j` of MASKWRITE, and that only the mask bits below `KL` are read. -/
def Obligations.MaskWriteByElements : Prop :=
  ∀ esz vl, esz ∈ [8, 16, 32, 64] → vl ∈ [128, 256, 512] →
    ∀ (nomask : Bool) (k k' : QWord) (z : Bool) (old tmp : BitVec vl),
    (∀ j < vl / esz, elem esz (maskWrite esz vl nomask k z old tmp) j =
      if k.getLsbD j = true ∨ nomask = true then elem esz tmp j else if z = true then 0 else elem esz old j)
    ∧ ((∀ j < vl / esz, k.getLsbD j = k'.getLsbD j) →
      maskWrite esz vl nomask k z old tmp = maskWrite esz vl nomask k' z old tmp)

/-- R28, R152: WRITEVEC, and which form keeps and which zeroes the bits above its width; R160, R170, R180: an MMX form writes
`MM[d]` alone. That the zeroing reaches the bits at or above MAXVL is log entry 20. -/
def Obligations.UpperBitsKeptOrZeroed : Prop :=
  (∀ (s : State) (d : BitVec 5) (w : Nat) (val : BitVec w), w ≤ 512 →
    (∀ u, (s.writeVec d val u).vLow w d = val)
      ∧ (∀ p, w ≤ p → ((s.writeVec d val .keep).vAt d).getLsbD p = (s.vAt d).getLsbD p)
      ∧ ∀ p, w ≤ p → ((s.writeVec d val .zero).vAt d).getLsbD p = false)
    ∧ ∀ i s t, exec i s = .next t →
      match shape i with
      | .mm _ f => ∀ d, d ≠ f.reg → t.mmAt d = s.mmAt d
      | .xmm _ f => ∀ p, 128 ≤ p → (t.vAt f.d).getLsbD p = (s.vAt f.d).getLsbD p
      | .vex _ vl f => ∀ p, vl ≤ p → (t.vAt f.d).getLsbD p = false
      | .evex _ vl f => ∀ p, vl ≤ p → (t.vAt f.d).getLsbD p = false

/-! ## What each form computes, where it completes, and its frame -/

/-- R160, R170, R180 with a register source. -/
def Obligations.MmRegisterForms : Prop :=
  MmRegisterResult .punpcklbwMm punpcklbw64 ∧ MmRegisterResult .punpcklwdMm punpcklwd64
    ∧ MmRegisterResult .punpckldqMm punpckldq64

/-- R160, R170, R180 with a memory source. -/
def Obligations.MmMemoryForms : Prop :=
  MmMemoryResult .punpcklbwMm punpcklbw64 ∧ MmMemoryResult .punpcklwdMm punpcklwd64
    ∧ MmMemoryResult .punpckldqMm punpckldq64

/-- R161, R171, R181, R190 with a register source. -/
def Obligations.XmmRegisterForms : Prop :=
  XmmRegisterResult .punpcklbwXmm interleaveBytes ∧ XmmRegisterResult .punpcklwdXmm interleaveWords
    ∧ XmmRegisterResult .punpckldqXmm interleaveDwords ∧ XmmRegisterResult .punpcklqdqXmm interleaveQwords

/-- R161, R171, R181, R190 with a memory source. -/
def Obligations.XmmMemoryForms : Prop :=
  XmmMemoryResult .punpcklbwXmm interleaveBytes ∧ XmmMemoryResult .punpcklwdXmm interleaveWords
    ∧ XmmMemoryResult .punpckldqXmm interleaveDwords ∧ XmmMemoryResult .punpcklqdqXmm interleaveQwords

/-- R162, R163, R172, R173, R182, R183, R191, R192 with a register second source. -/
def Obligations.VexRegisterForms : Prop :=
  VexRegisterResult 128 .vpunpcklbwXmmVex interleaveBytes ∧ VexRegisterResult 256 .vpunpcklbwYmmVex interleaveBytes256
    ∧ VexRegisterResult 128 .vpunpcklwdXmmVex interleaveWords
    ∧ VexRegisterResult 256 .vpunpcklwdYmmVex interleaveWords256
    ∧ VexRegisterResult 128 .vpunpckldqXmmVex interleaveDwords
    ∧ VexRegisterResult 256 .vpunpckldqYmmVex interleaveDwords256
    ∧ VexRegisterResult 128 .vpunpcklqdqXmmVex interleaveQwords
    ∧ VexRegisterResult 256 .vpunpcklqdqYmmVex interleaveQwords256

/-- R162, R163, R172, R173, R182, R183, R191, R192 with a memory second source. -/
def Obligations.VexMemoryForms : Prop :=
  VexMemoryResult 128 .vpunpcklbwXmmVex interleaveBytes ∧ VexMemoryResult 256 .vpunpcklbwYmmVex interleaveBytes256
    ∧ VexMemoryResult 128 .vpunpcklwdXmmVex interleaveWords
    ∧ VexMemoryResult 256 .vpunpcklwdYmmVex interleaveWords256
    ∧ VexMemoryResult 128 .vpunpckldqXmmVex interleaveDwords
    ∧ VexMemoryResult 256 .vpunpckldqYmmVex interleaveDwords256
    ∧ VexMemoryResult 128 .vpunpcklqdqXmmVex interleaveQwords
    ∧ VexMemoryResult 256 .vpunpcklqdqYmmVex interleaveQwords256

/-- R164 to R166, R174 to R176, R184 to R186, R193 to R195 with a register second source. -/
def Obligations.EvexRegisterForms : Prop :=
  (EvexRegisterResult 8 128 .vpunpcklbwXmmEvex interleaveBytes
      ∧ EvexRegisterResult 8 256 .vpunpcklbwYmmEvex interleaveBytes256
      ∧ EvexRegisterResult 8 512 .vpunpcklbwZmmEvex interleaveBytes512)
    ∧ (EvexRegisterResult 16 128 .vpunpcklwdXmmEvex interleaveWords
      ∧ EvexRegisterResult 16 256 .vpunpcklwdYmmEvex interleaveWords256
      ∧ EvexRegisterResult 16 512 .vpunpcklwdZmmEvex interleaveWords512)
    ∧ (EvexRegisterResult 32 128 .vpunpckldqXmmEvex interleaveDwords
      ∧ EvexRegisterResult 32 256 .vpunpckldqYmmEvex interleaveDwords256
      ∧ EvexRegisterResult 32 512 .vpunpckldqZmmEvex interleaveDwords512)
    ∧ EvexRegisterResult 64 128 .vpunpcklqdqXmmEvex interleaveQwords
    ∧ EvexRegisterResult 64 256 .vpunpcklqdqYmmEvex interleaveQwords256
    ∧ EvexRegisterResult 64 512 .vpunpcklqdqZmmEvex interleaveQwords512

/-- R164 to R166, R174 to R176, R184 to R186, R193 to R195 with a full-width memory second source. -/
def Obligations.EvexMemoryForms : Prop :=
  (EvexMemoryResult 8 128 .vpunpcklbwXmmEvex interleaveBytes
      ∧ EvexMemoryResult 8 256 .vpunpcklbwYmmEvex interleaveBytes256
      ∧ EvexMemoryResult 8 512 .vpunpcklbwZmmEvex interleaveBytes512)
    ∧ (EvexMemoryResult 16 128 .vpunpcklwdXmmEvex interleaveWords
      ∧ EvexMemoryResult 16 256 .vpunpcklwdYmmEvex interleaveWords256
      ∧ EvexMemoryResult 16 512 .vpunpcklwdZmmEvex interleaveWords512)
    ∧ (EvexMemoryResult 32 128 .vpunpckldqXmmEvex interleaveDwords
      ∧ EvexMemoryResult 32 256 .vpunpckldqYmmEvex interleaveDwords256
      ∧ EvexMemoryResult 32 512 .vpunpckldqZmmEvex interleaveDwords512)
    ∧ EvexMemoryResult 64 128 .vpunpcklqdqXmmEvex interleaveQwords
    ∧ EvexMemoryResult 64 256 .vpunpcklqdqYmmEvex interleaveQwords256
    ∧ EvexMemoryResult 64 512 .vpunpcklqdqZmmEvex interleaveQwords512

/-- R54, R184 to R186, R193 to R195: embedded broadcast of one memory element. -/
def Obligations.EvexBroadcastForms : Prop :=
  (EvexBroadcastResult 32 128 .vpunpckldqXmmEvex interleaveDwords
      ∧ EvexBroadcastResult 32 256 .vpunpckldqYmmEvex interleaveDwords256
      ∧ EvexBroadcastResult 32 512 .vpunpckldqZmmEvex interleaveDwords512)
    ∧ EvexBroadcastResult 64 128 .vpunpcklqdqXmmEvex interleaveQwords
    ∧ EvexBroadcastResult 64 256 .vpunpcklqdqYmmEvex interleaveQwords256
    ∧ EvexBroadcastResult 64 512 .vpunpcklqdqZmmEvex interleaveQwords512

/-- R156, R242: every instruction completes wherever it is ready and its memory operand, if any, is readable. -/
def Obligations.EveryFormCompletes : Prop :=
  ∀ i m s, s.mode? = .ok m → Ready i s → OperandOk i m s →
    ∃ t, exec i s = .next t ∧ Frame i s t ∧ t.rip = nextRip m s.rip i.len

/-- R242, R211: an instruction that completes was ready, in an admitted mode. -/
def Obligations.CompletesOnlyWhenReady : Prop :=
  ∀ i s t, exec i s = .next t → Ready i s ∧ ∃ m, s.mode? = .ok m

/-! ## What no form does -/

/-- R21, R29, R218, R220, R23: every completed form keeps its frame and falls through to `rip + len`. -/
def Obligations.EveryFormKeepsItsFrame : Prop :=
  ∀ i s t, exec i s = .next t →
    Frame i s t
      ∧ (s.mode? = .ok .long64 → t.rip.toNat = (s.rip.toNat + i.len) % 2 ^ 64)
      ∧ (s.mode? = .ok .prot32 → t.rip.toNat = (s.rip.toNat + i.len) % 2 ^ 32)

/-- R57: no form writes memory; the destination is a register. -/
def Obligations.NoFormWritesMemory : Prop :=
  ∀ i s t, exec i s = .next t →
    (t.mem = s.mem ∧ ∀ a, t.mem.read a = s.mem.read a)
      ∧ match shape i with
        | .mm _ f => ∀ d, d ≠ f.reg → t.mmAt d = s.mmAt d
        | .xmm _ f => ∀ d, d ≠ f.d → t.vAt d = s.vAt d
        | .vex _ _ f => ∀ d, d ≠ f.d → t.vAt d = s.vAt d
        | .evex _ _ f => ∀ d, d ≠ f.d → t.vAt d = s.vAt d

/-- R30: no form changes a flag, and none reads one to compute its result. The second clause compares two runs: that the x87
fields after an MMX form and the FETCH64 choice agree in both is the model's indexing of the free values (log entries 8 and
6), no rule of the spec. -/
def Obligations.FlagsUnchangedAndUnread : Prop :=
  (∀ i s t, exec i s = .next t → t.rflags = s.rflags)
    ∧ ∀ i s (x : QWord) t t', exec i s = .next t → exec i { s with rflags := x } = .next t' →
      t' = { t with rflags := x }

/-- R31: MXCSR is neither written nor read, and no form raises a numeric exception of its own: #MF only for one that was
pending. The second clause compares two runs: that the FETCH64 and #AC choices and the x87 fields after an MMX form agree in
both is the model's indexing of the free values (log entries 6, 7 and 8), no rule of the spec. -/
def Obligations.MxcsrUnchangedAndUnread : Prop :=
  (∀ i s t, exec i s = .next t → t.mxcsr = s.mxcsr)
    ∧ (∀ i s (x : DWord), exec i { s with mxcsr := x } = mapNext (fun t => { t with mxcsr := x }) (exec i s))
    ∧ ∀ i s rip, exec i s = .fault (.mf rip) → s.x87Pending = true

/-- R218: a form with a register operand does the same at every privilege level. That the x87 fields after an MMX form agree
in both runs is the model's indexing of the free values (log entry 8), no rule of the spec. -/
def Obligations.RegisterFormsIgnoreCpl : Prop :=
  ∀ i s (x : BitVec 2), (shape i).rm.isMem = false →
    exec i { s with cpl := x } = mapNext (fun t => { t with cpl := x }) (exec i s)

/-! ## Exceptions and refusals -/

/-- R201, R210, R63: every exception a form raises is one of the seven, saves the address of the instruction, and has its
cause; a register form raises no memory fault. -/
def Obligations.FaultsOnlyAsListed : Prop :=
  ∀ i s f, exec i s = .fault f →
    f.savedRip = s.rip
      ∧ (f.vector = 6 → i.len ≤ 15 ∧ ¬ NoUd i s)
      ∧ (f.vector = 7 → s.ts = true)
      ∧ (f.vector = 16 → ¬ (shape i).X87Ok s)
      ∧ (f.vector = 13 → i.len > 15 ∨ (shape i).rm.isMem = true)
      ∧ (f.vector = 12 → ∃ m a, s.mode? = .ok m ∧ (shape i).rm = .mem a ∧ (shape i).segment m a = .ss)
      ∧ (f.vector = 14 → (shape i).rm.isMem = true ∧ ∃ code address, f = .pf s.rip code address
          ∧ code.getLsbD 1 = false ∧ code.getLsbD 4 = false ∧ code.getLsbD 2 = (s.cpl == 3))
      ∧ (f.vector = 17 → (shape i).rm.isMem = true ∧ s.alignChecking = true ∧ (shape i).alignment ≠ .sse)

/-- R81, R211 step 1: more than 15 bytes raise #GP(0) before any other cause, the refusals of R108 and R109 included (log
entry 15). -/
def Obligations.TooLongRaisesGp : Prop :=
  ∀ i m s, s.mode? = .ok m → i.len > 15 → exec i s = .fault (.gp s.rip)

/-- R204, R114 step 3: a bad prefix raises #UD, even before a byte string that R108 or R109 refuses; R203, R206, R211 steps 3
to 5: so does a control bit, a feature flag or a broadcast bit. That R108 and R109 refuse before these last is the model's
choice (log entry 15). -/
def Obligations.BadEncodingOrControlRaisesUd : Prop :=
  (∀ i m s, s.mode? = .ok m → i.len ≤ 15 → ¬ (shape i).PrefixesOk → exec i s = .fault (.ud s.rip))
    ∧ ∀ i m s, s.mode? = .ok m → ¬ (shape i).Refused → i.len ≤ 15 → ¬ NoUd i s → exec i s = .fault (.ud s.rip)

/-- R208, R211 step 6: CR0.TS = 1 raises #NM when nothing raises #UD. The order of the
checks is the spec's decision D8 (log entries 15 and 18). -/
def Obligations.TaskSwitchedRaisesNm : Prop :=
  ∀ i m s, s.mode? = .ok m → ¬ (shape i).Refused → i.len ≤ 15 → NoUd i s → s.ts = true →
    exec i s = .fault (.nm s.rip)

/-- R207, R211 step 7: a pending x87 exception raises #MF in the MMX forms. The order of the
checks is the spec's decision D8 (log entry 18). -/
def Obligations.PendingX87RaisesMf : Prop :=
  ∀ i m s, s.mode? = .ok m → i.len ≤ 15 → NoUd i s → s.ts = false → ¬ (shape i).X87Ok s →
    exec i s = .fault (.mf s.rip)

/-- R59, R60: a failed segment or canonical check raises #SS(0) in SS, #GP(0) elsewhere. Which selectors are null is PRESUMED
(log entry 11); that this check comes before the others of the operand is the spec's decision D8, which a claim carries as an
assumption (log entry 18). -/
def Obligations.SegmentCheckRaises : Prop :=
  ∀ i m s a, s.mode? = .ok m → Ready i s → (shape i).rm = .mem a →
    (m = .prot32 → (s.segReg ((shape i).segment m a)).expandDown = false) →
    ¬ SegmentOk s m ((shape i).segment m a) ((shape i).ea m a s) ((shape i).width / 8) →
    exec i s = .fault (if (shape i).segment m a = .ss then .ss s.rip else .gp s.rip)

/-- R61, R56: a legacy m128 operand that is not a multiple of 16 raises #GP(0), whatever the oracle and FETCH64 say. That the
16-byte check comes after the segment check and before page access is the spec's decision D8, which a claim carries as an
assumption (log entry 18). -/
def Obligations.MisalignedLegacyRaisesGp : Prop :=
  ∀ i m s a, s.mode? = .ok m → Ready i s → (shape i).rm = .mem a → (shape i).alignment = .sse →
    SegmentOk s m ((shape i).segment m a) ((shape i).ea m a s) 16 →
    ((shape i).la m a s).toNat % 16 ≠ 0 → exec i s = .fault (.gp s.rip)

/-- R62, R210, R55: the lowest denied byte of the operand is reported, whatever the mask holds; of a 128-bit operand this is
fixed for bytes 0 to 7. That the lowest byte is reported is the model's choice (log entry 16). Only the 16-byte check is a
premise, so this says too that #PF comes before #AC: the spec's decision D8, which a claim carries as an assumption (log
entry 18). The width of the code is PRESUMED (log entry 31). -/
def Obligations.DeniedByteRaisesPf : Prop :=
  ∀ i m s a k code, s.mode? = .ok m → Ready i s → (shape i).rm = .mem a →
    SegmentOk s m ((shape i).segment m a) ((shape i).ea m a s) ((shape i).width / 8) →
    ((shape i).alignment = .sse → ((shape i).la m a s).toNat % 16 = 0) →
    (∀ j < (shape i).width / 8, s.kindAt (byteAddr m ((shape i).la m a s) j).toNat ≠ .sideEffects) →
    k < (if (shape i).width = 128 then 8 else (shape i).width / 8) →
    (∀ j < k, ByteOk s m ((shape i).la m a s) j) →
    s.kindAt (byteAddr m ((shape i).la m a s) k).toNat = .denied code →
    exec i s = .fault (.pf s.rip (code.bits s.cpl) (byteAddr m ((shape i).la m a s) k))

/-- R56, D7: when only bytes 8 to 15 of an m128 operand are denied, the instruction raises #PF for the lowest of them or
completes, as FETCH64 says of this execution, and completes with the result it has when they are readable. FETCH64 is a free
value of the model (log entry 6); that the lowest denied byte is reported is the model's choice (log entry 16); the width of
the code is PRESUMED (log entry 31). -/
def Obligations.UpperHalfDeniedEitherWay : Prop :=
  ∀ i m s a k code, s.mode? = .ok m → Ready i s → (shape i).rm = .mem a → (shape i).width = 128 →
    SegmentOk s m ((shape i).segment m a) ((shape i).ea m a s) 16 →
    AlignOk s (shape i).alignment ((shape i).la m a s) 16 →
    (∀ j < 16, s.kindAt (byteAddr m ((shape i).la m a s) j).toNat ≠ .sideEffects) →
    8 ≤ k → k < 16 → (∀ j < k, ByteOk s m ((shape i).la m a s) j) →
    s.kindAt (byteAddr m ((shape i).la m a s) k).toNat = .denied code →
    (Config.fetch64 s.draws = false →
      exec i s = .fault (.pf s.rip (code.bits s.cpl) (byteAddr m ((shape i).la m a s) k)))
    ∧ (Config.fetch64 s.draws = true →
      exec i s = mapNext (fun t => { t with map := s.map }) (exec i { s with map := [] })
        ∧ ∃ t, exec i s = .next t)

/-- R61, U6: a misaligned m32 operand of an MMX form raises #AC(0) under alignment checking; a misaligned VEX or EVEX operand
raises it or completes, as the open choice of this execution says. The choice is a free value, and
what counts as misaligned there is the model's choice (log entry 7). -/
def Obligations.AlignmentChecking : Prop :=
  ∀ i m s a, s.mode? = .ok m → Ready i s → (shape i).rm = .mem a → s.alignChecking = true →
    SegmentOk s m ((shape i).segment m a) ((shape i).ea m a s) ((shape i).width / 8) →
    (∀ j < (shape i).width / 8, ByteOk s m ((shape i).la m a s) j) →
    ((shape i).alignment = .mmx → ((shape i).la m a s).toNat % 4 ≠ 0 → exec i s = .fault (.ac s.rip))
    ∧ ((shape i).alignment = .vector → ((shape i).la m a s).toNat % ((shape i).width / 8) ≠ 0 →
      (Config.vexAlignCheck s.draws = true → exec i s = .fault (.ac s.rip))
        ∧ (Config.vexAlignCheck s.draws = false → ∃ t, exec i s = .next t))

/-- R65, R59: an operand in a region with read side effects, and one in an expand-down segment, are refused by name. The place of
these refusals among the checks is the model's choice (log entry 15). -/
def Obligations.RefusedOperands : Prop :=
  (∀ i m s a, s.mode? = .ok m → Ready i s → (shape i).rm = .mem a →
    SegmentOk s m ((shape i).segment m a) ((shape i).ea m a s) ((shape i).width / 8) →
    ((shape i).alignment = .sse → ((shape i).la m a s).toNat % 16 = 0) →
    (∃ k < (shape i).width / 8, s.kindAt (byteAddr m ((shape i).la m a s) k).toNat = .sideEffects) →
    exec i s = .refused .sideEffects)
    ∧ ∀ i s a, s.mode? = .ok .prot32 → Ready i s → (shape i).rm = .mem a →
      (s.segReg ((shape i).segment .prot32 a)).isNull = false →
      (s.segReg ((shape i).segment .prot32 a)).readable = true →
      (s.segReg ((shape i).segment .prot32 a)).expandDown = true → exec i s = .refused .expandDown

/-- R108, R109, R205: `aaa = 000B` with `z = 1`, and `EVEX.b = 1` with a register operand of VPUNPCKLDQ/QDQ, are refused, once
the length and the prefixes (R211 steps 1 and 2) raise nothing. That they are refused before the other causes, and the order
of the two names, is the model's choice (log entry 15). -/
def Obligations.RefusedEncodings : Prop :=
  ∀ i m s esz vl f, s.mode? = .ok m → i.len ≤ 15 → (shape i).PrefixesOk → shape i = .evex esz vl f →
    (f.aaa = 0 → f.z = true → exec i s = .refused .zeroingNoMask)
      ∧ (¬ (f.aaa = 0 ∧ f.z = true) → 32 ≤ esz → f.bc = true → f.rm.isMem = false →
        exec i s = .refused .broadcastRegister)

/-! ## Addresses and memory -/

/-- R88, R97, R105: register numbers from prefix bits and ModRM fields. -/
def Obligations.RegisterNumbers : Prop :=
  (∀ (f : LegacyForm) (rm : BitVec 3),
    f.d.toNat = 8 * (f.rexBit Rex.r).toNat + f.reg.toNat ∧ (f.s rm).toNat = 8 * (f.rexBit Rex.b).toNat + rm.toNat)
    ∧ (∀ (f : VexForm) (rm : BitVec 3),
      f.d.toNat = 8 * f.r.toNat + f.reg.toNat ∧ f.s1.toNat = f.v.toNat ∧ (f.s2 rm).toNat = 8 * f.b.toNat + rm.toNat)
    ∧ ∀ (f : EvexForm) (rm : BitVec 3),
      f.d.toNat = 16 * f.r'.toNat + 8 * f.r.toNat + f.reg.toNat ∧ f.s1.toNat = 16 * f.v'.toNat + f.v.toNat
        ∧ (f.s2 rm).toNat = 16 * f.x.toNat + 8 * f.b.toNat + rm.toNat

/-- R89, R90, R91, R92, R113: the effective address is the exact sum of its terms modulo 2^64, or modulo 2^32 when the address
size is 32. What an instruction puts into that sum: its own prefixes and, for RIP-relative addressing, its own length (R91);
the bits `B` and `X` of REX, VEX or EVEX (R89, R90, R97, R105); the scale `N` of disp8 (R113). -/
def Obligations.EffectiveAddressSum : Prop :=
  (∀ (s : State) (m : Mode) (c : Addressing) (a : Addr),
    ((s.effAddr m c a).toNat : Int) = addrValue s m c a % (if c.size32 m = true then 2 ^ 32 else 2 ^ 64))
    ∧ ∀ i : Instr, (shape i).addressing.prefixes = (shape i).prefixes ∧ (shape i).addressing.len = i.len
      ∧ match shape i with
        | .mm _ f => (shape i).addressing.scale = 1
            ∧ (f.rex = none → (shape i).addressing.b = false ∧ (shape i).addressing.x = false)
            ∧ ∀ r, f.rex = some r → (shape i).addressing.b = r.b ∧ (shape i).addressing.x = r.x
        | .xmm _ f => (shape i).addressing.scale = 1
            ∧ (f.rex = none → (shape i).addressing.b = false ∧ (shape i).addressing.x = false)
            ∧ ∀ r, f.rex = some r → (shape i).addressing.b = r.b ∧ (shape i).addressing.x = r.x
        | .vex _ _ f => (shape i).addressing.scale = 1
            ∧ (shape i).addressing.b = f.b ∧ (shape i).addressing.x = f.x
        | .evex esz vl f => (f.bc = false → (shape i).addressing.scale = vl / 8)
            ∧ (f.bc = true → 32 ≤ esz → (shape i).addressing.scale = esz / 8)
            ∧ (shape i).addressing.b = f.b ∧ (shape i).addressing.x = f.x

/-- R85: the segment of a memory operand. -/
def Obligations.SegmentChoice : Prop :=
  (∀ (c : Addressing) (a : Addr) (m : Mode), overrideOf c.prefixes = none →
    operandSegment m c a =
      match a with
      | .base rm _ => if (num4 c.b rm).toNat ∈ [4, 5] then .ss else .ds
      | .sib _ _ b _ => if (num4 c.b b).toNat ∈ [4, 5] then .ss else .ds
      | .disp32 _ => .ds
      | .sibDisp32 _ _ _ => .ds)
    ∧ ∀ (c : Addressing) (a : Addr) (n : SegName), overrideOf c.prefixes = some n →
      operandSegment .prot32 c a = n
        ∧ operandSegment .long64 c a =
          if n = .fs ∨ n = .gs then n else operandSegment .long64 { c with prefixes := [] } a

/-- R59, R60: linear addresses, and when one is canonical. -/
def Obligations.LinearAndCanonical : Prop :=
  (∀ (s : State) (n : SegName) (ea : QWord),
    (s.linear .prot32 n ea).toNat = ((s.segReg n).base.toNat + ea.toNat) % 2 ^ 32
      ∧ (s.linear .long64 n ea).toNat =
        if n = .fs ∨ n = .gs then ((s.segReg n).base.toNat + ea.toNat) % 2 ^ 64 else ea.toNat)
    ∧ ∀ a : QWord,
      (canonical .w48 a = true ↔ ∀ p, 47 ≤ p → p < 64 → a.getLsbD p = a.getLsbD 63)
        ∧ (canonical .w57 a = true ↔ ∀ p, 56 ≤ p → p < 64 → a.getLsbD p = a.getLsbD 63)

/-- R50, R58: MemRead returns the bytes of the operand, the one at the lowest address in bits 7:0. That the byte
addresses of an operand wrap is the model's choice (log entry 12). -/
def Obligations.MemReadIsLittleEndian : Prop :=
  ∀ (s : State) (m : Mode) (seg : SegName) (ea : QWord) (w : Nat) (al : AlignRule) (b : BitVec w),
    w ∈ [32, 64, 128, 256, 512] → s.memRead m seg ea w al = .ok b →
    IsMemValue s m (s.linear m seg ea) b
      ∧ ∀ k, (byteAddr .long64 (s.linear .long64 seg ea) k).toNat = ((s.linear .long64 seg ea).toNat + k) % 2 ^ 64
        ∧ (byteAddr .prot32 (s.linear .prot32 seg ea) k).toNat = ((s.linear .prot32 seg ea).toNat + k) % 2 ^ 32

/-- R56 item 3, R54, R52: the memory-read event that a completed instruction leaves: none of a register form, else one read at
the operand's linear address, of 8 bytes instead of 16 when FETCH64 holds of this execution. FETCH64 is a free value (log
entry 6), the field that holds the event is the model's (log entry 29). -/
def Obligations.ReadEventRecorded : Prop :=
  ∀ i m s t, s.mode? = .ok m → exec i s = .next t →
    (∀ r, (shape i).rm = .reg r → t.readEvent = none)
      ∧ ∀ a, (shape i).rm = .mem a →
        t.readEvent = some
          { address := (shape i).la m a s
            size :=
              if (shape i).width = 128 ∧ Config.fetch64 s.draws = true then 8 else (shape i).width / 8 }

/-! ## Encoding -/

/-- Decoding an encoded well-formed instruction gives it back, with the bytes after it. -/
def Obligations.DecodeOfEncode : Prop :=
  ∀ (m : Mode) (i : Instr) (rest : List Byte), i.wf m = true → decode m (encode i ++ rest) = .ok (i, rest)

/-- What the decoder accepts is well formed, and is the bytes of its encoding. -/
def Obligations.EncodeOfDecode : Prop :=
  ∀ (m : Mode) (bs : List Byte) (i : Instr) (rest : List Byte),
    decode m bs = .ok (i, rest) → i.wf m = true ∧ bs = encode i ++ rest

/-- Words written out from the encoding tables decode to the instructions they stand for. -/
def Obligations.WordsDecodeRight : Prop :=
  decode .long64 [0x0F, 0x60, 0xC1] = .ok (.punpcklbwMm ⟨[], none, 0, .reg 1⟩, [])
    ∧ decode .long64 [0x66, 0x45, 0x0F, 0x61, 0xCE] =
      .ok (.punpcklwdXmm ⟨[.opSize], some ⟨false, true, false, true⟩, 1, .reg 6⟩, [])
    ∧ decode .long64 [0xC5, 0xF5, 0x62, 0x1B] =
      .ok (.vpunpckldqYmmVex ⟨[], none, true, false, false, false, false, 1, 3, .mem (.base 3 .none)⟩, [])
    ∧ decode .long64 [0x62, 0xF1, 0xF5, 0xD9, 0x6C, 0x61, 0x01] =
      .ok (.vpunpcklqdqZmmEvex ⟨[], none, false, false, false, false, true, 1, true, true, false, 1, 4,
        .mem (.base 1 (.d8 1))⟩, [])

/-- R27, R100, R112: in `Prot32` an instruction names registers 0 to 7 only. -/
def Obligations.Prot32NamesLowRegisters : Prop :=
  ∀ (bs rest : List Byte) (i : Instr), decode .prot32 bs = .ok (i, rest) → ∀ n ∈ (shape i).numbers, n < 8

/-- R107, R112, R115: EVEX byte strings with a reserved or foreign field match no row. -/
def Obligations.ReservedEvexMatchesNoRow : Prop :=
  ∀ (m : Mode) (p0 p1 p2 op modrm : Byte) (bs : List Byte),
    (p0.extractLsb' 2 2 ≠ 0 ∨ p0.extractLsb' 0 2 ≠ 1 ∨ p1.getLsbD 2 = false ∨ p1.extractLsb' 0 2 ≠ 1
      ∨ p2.extractLsb' 5 2 = 3 ∨ (op = 0x62 ∧ p1.getLsbD 7 = true) ∨ (op = 0x6C ∧ p1.getLsbD 7 = false)
      ∨ op ∉ [0x60, 0x61, 0x62, 0x6C]) →
    decode m (0x62 :: p0 :: p1 :: p2 :: op :: modrm :: bs) = .error .notFamily

/-- R83, R85, R114, R115: a legacy byte string that is no instruction is refused by name, whatever the number of its prefixes;
of the 16-bit addressing of R86 after a LOCK prefix step 3 of R114 raises #UD first, or the length #GP(0). That an opcode byte
of no row is refused after a LOCK prefix too, where step 3 of R114 stands before the row match of step 4, is the model's
reading of R115 (DEDUCED, log entry 13); what stands for the length is the model's choice (log entry 14). -/
def Obligations.LegacyStringsRefused : Prop :=
  ∀ (m : Mode) (ps : List Prefix) (op modrm : Byte) (bs : List Byte),
    (overrideCount ps > 1 →
      decode m (ps.map Prefix.byte ++ 0x0F :: op :: modrm :: bs) = .error .twoOverrides)
    ∧ (overrideCount ps ≤ 1 → .repne ∈ ps ∨ .rep ∈ ps →
      decode m (ps.map Prefix.byte ++ 0x0F :: op :: modrm :: bs) = .error .repBeforeLegacy)
    ∧ (overrideCount ps ≤ 1 → .repne ∉ ps → .rep ∉ ps →
      op ∉ [0x60, 0x61, 0x62, 0x6C] ∨ (op = 0x6C ∧ .opSize ∉ ps) →
      decode m (ps.map Prefix.byte ++ 0x0F :: op :: modrm :: bs) = .error .notFamily)
    ∧ (overrideCount ps ≤ 1 → .repne ∉ ps → .rep ∉ ps →
      op ∈ [0x60, 0x61, 0x62] ∨ (op = 0x6C ∧ .opSize ∈ ps) →
      m = .prot32 → .addrSize ∈ ps → modrm.extractLsb' 6 2 ≠ 3 →
      decode m (ps.map Prefix.byte ++ 0x0F :: op :: modrm :: bs) =
        .error (if .lock ∉ ps then .addr16 else if ps.length + 3 ≤ 15 then .badPrefix else .tooLong))

/-! ## Steps, reset, launch -/

/-- A step runs the decoded instruction; `exec` itself moves past the instruction's bytes. -/
def Obligations.StepRunsDecoded : Prop :=
  ∀ (s : State) (m : Mode) (i : Instr) (rest : List Byte), s.mode? = .ok m → s.tf = false →
    decode m (s.fetchBytes m) = .ok (i, rest) → s.ripInside m (nextRip m s.rip i.len) = true → step s = exec i s

/-- A step runs the well-formed instruction whose bytes stand, fetchable, at `rip`. -/
def Obligations.StepRunsBytesAtRip : Prop :=
  ∀ (s : State) (m : Mode) (i : Instr), s.mode? = .ok m → s.tf = false → i.wf m = true →
    (∀ k, ∀ h : k < (encode i).length,
      s.fetchable m k = true ∧ s.mem.read (s.fetchAddr m k).toNat = (encode i)[k]) →
    s.ripInside m (nextRip m s.rip i.len) = true → step s = exec i s

/-- When a step stops before `exec`, or in it by the length alone, and how: a mode that is not admitted (D4), RFLAGS.TF = 1
(R224), bytes that decode to nothing (R115; #UD and #GP(0) where R114 step 3 and R81 raise them first), `rip + len` outside
the code segment (D12), a byte of the instruction that cannot be fetched (D12), more than 15 bytes (R81). The order of these
is the model's choice (log entry 15). -/
def Obligations.StepStopsBeforeExec : Prop :=
  (∀ s r, s.mode? = .error r → step s = .refused (.mode r))
    ∧ (∀ s m, s.mode? = .ok m → s.tf = true → step s = .refused .singleStep)
    ∧ (∀ s m e, s.mode? = .ok m → s.tf = false → decode m (s.fetchBytes m) = .error e →
      step s = match e with
        | .truncated => .refused .fetch
        | .badPrefix => .fault (.ud s.rip)
        | .tooLong => .fault (.gp s.rip)
        | e => .refused (.encoding e))
    ∧ (∀ s m i rest, s.mode? = .ok m → s.tf = false → decode m (s.fetchBytes m) = .ok (i, rest) →
      s.ripInside m (nextRip m s.rip i.len) = false → step s = .refused .nextRip)
    ∧ (∀ s m i n, s.mode? = .ok m → s.tf = false → i.wf m = true → n < (encode i).length →
      (∀ k, ∀ h : k < (encode i).length, k < n →
        s.fetchable m k = true ∧ s.mem.read (s.fetchAddr m k).toNat = (encode i)[k]) →
      s.fetchable m n = false → step s = .refused .fetch)
    ∧ ∀ s m i rest, s.mode? = .ok m → s.tf = false → decode m (s.fetchBytes m) = .ok (i, rest) →
      s.ripInside m (nextRip m s.rip i.len) = true → i.len > 15 → step s = .fault (.gp s.rip)

/-- Every step keeps the invariant. The canonical form of memory is the model's (log entry 4), MAXVL and NV follow from the
features (log entry 20). -/
def Obligations.StepKeepsInvariant : Prop :=
  ∀ s t, Invariant s → step s = .next t → Invariant t

/-- The invariant holds after reset. Some reset values are the model's choices (log entries 1, 2 and 4). -/
def Obligations.ResetHoldsInvariant : Prop := Invariant State.reset

/-- A step changes nothing that no form writes. -/
def Obligations.StepLeavesSystemStateUntouched : Prop :=
  ∀ s t, step s = .next t → Untouched s t

/-- R36: the reset values of the spec's table, and that nothing runs there. The table is general knowledge in the spec
(log entry 1). -/
def Obligations.ResetValues : Prop :=
  (∀ i : BitVec 4, i ≠ 0 → i ≠ 2 → State.reset.gAt i = 0)
    ∧ State.reset.rip = 0xFFF0 ∧ State.reset.cs.selector = 0xF000 ∧ State.reset.cs.base = 0xFFFF0000
    ∧ State.reset.cs.limit = 0xFFFF ∧ State.reset.rflags = 0x2 ∧ State.reset.cr0 = 0x60000010
    ∧ State.reset.cr4 = 0 ∧ State.reset.xcr0 = 1 ∧ State.reset.efer = 0
    ∧ (∀ n, n ≠ .cs → (State.reset.segReg n).selector = 0 ∧ (State.reset.segReg n).base = 0
        ∧ (State.reset.segReg n).limit = 0xFFFF)
    ∧ (∀ i, State.reset.mmAt i = 0) ∧ State.reset.x87Tag = 0x5555 ∧ (∀ i, State.reset.vAt i = 0)
    ∧ (∀ i, State.reset.kAt i = 0) ∧ State.reset.mxcsr = 0x1F80 ∧ State.reset.cpl = 0
    ∧ State.reset.mode? = .error .realAddress ∧ step State.reset = .refused (.mode .realAddress)
    ∧ ∀ i, exec i State.reset = .refused (.mode .realAddress)

/-- R242, R243: after the standard launch every instruction that is not refused, too long or wrongly encoded is ready, in
`Long64`. The launch stands for software outside the scope (log entry 3). -/
def Obligations.StandardLaunchIsReady : Prop :=
  ∀ s : State, s.standardLaunch.mode? = .ok .long64 ∧ s.standardLaunch.maxvl = 512 ∧ s.standardLaunch.nv = 32
    ∧ ∀ i, ¬ (shape i).Refused → i.len ≤ 15 → (shape i).PrefixesOk → (shape i).BroadcastOk →
      Ready i s.standardLaunch
end

