-- ==== Sys2Proof/Laws/Interleave.lean ====
section
/-! SUPPORT. What `elem`, `ofElems`, `unpckl`, `maskWrite` and `bcast` hold, bit by bit and element by element. -/

namespace Sys2Proof.Machine

/-- A bit of an element. -/
theorem elem_getLsbD {n : Nat} (esz : Nat) (a : BitVec n) (j i : Nat) :
    (elem esz a j).getLsbD i = (decide (i < esz) && a.getLsbD (j * esz + i)) := by
  simp [elem, BitVec.getLsbD_extractLsb']

/-- A bit of a value assembled from `count` elements. -/
theorem assemble_getLsbD {esz : Nat} (n : Nat) (f : Nat → BitVec esz) (hesz : 0 < esz) (count i : Nat)
    (hn : count * esz ≤ n) :
    (assemble esz n f count).getLsbD i = (decide (i < count * esz) && (f (i / esz)).getLsbD (i % esz)) := by
  induction count with
  | zero => simp [assemble]
  | succ c ih =>
    have hc : (c + 1) * esz = c * esz + esz := by ring
    rw [assemble, BitVec.getLsbD_or, ih (by omega), BitVec.getLsbD_shiftLeft, BitVec.getLsbD_setWidth]
    rcases Nat.lt_or_ge i (c * esz) with h | h
    · have h1 : i < n := by omega
      have h2 : i < c * esz + esz := by omega
      simp [h, h1, hc, h2]
    · rcases Nat.lt_or_ge i (c * esz + esz) with h' | h'
      · obtain ⟨r, rfl⟩ := Nat.exists_eq_add_of_le h
        have hr : r < esz := by omega
        have hdiv : (c * esz + r) / esz = c := by
          rw [Nat.mul_comm, Nat.mul_add_div hesz, Nat.div_eq_of_lt hr]; omega
        have hmod : (c * esz + r) % esz = r := by
          rw [Nat.mul_comm, Nat.mul_add_mod, Nat.mod_eq_of_lt hr]
        have h1 : c * esz + r < n := by omega
        have h2 : r < n := by omega
        simp [hdiv, hmod, hc, hr, h1, h2]
      · have h1 : ¬ i < c * esz + esz := by omega
        have h2 : ¬ i < c * esz := by omega
        have h3 : (f c).getLsbD (i - c * esz) = false := BitVec.getLsbD_of_ge _ _ (by omega)
        simp [h1, h2, hc, h3]

/-- A bit of `ofElems`. -/
theorem ofElems_getLsbD {esz n : Nat} (f : Nat → BitVec esz) (hesz : 0 < esz) (hdvd : esz ∣ n) (i : Nat) :
    (ofElems esz n f).getLsbD i = (decide (i < n) && (f (i / esz)).getLsbD (i % esz)) := by
  have h : n / esz * esz = n := Nat.div_mul_cancel hdvd
  rw [ofElems, assemble_getLsbD n f hesz _ _ (by omega), h]

/-- An element of `ofElems` is the one it was made of. -/
theorem elem_ofElems {esz n : Nat} (f : Nat → BitVec esz) (hesz : 0 < esz) (hdvd : esz ∣ n) {j : Nat}
    (hj : j < n / esz) : elem esz (ofElems esz n f) j = f j := by
  apply BitVec.eq_of_getLsbD_eq
  intro i hi
  have h : n / esz * esz = n := Nat.div_mul_cancel hdvd
  have h1 : (j + 1) * esz ≤ n / esz * esz := Nat.mul_le_mul_right _ hj
  have h2 : (j + 1) * esz = j * esz + esz := by ring
  have hdiv : (j * esz + i) / esz = j := by
    rw [Nat.mul_comm, Nat.mul_add_div hesz, Nat.div_eq_of_lt hi]; omega
  have hmod : (j * esz + i) % esz = i := by rw [Nat.mul_comm, Nat.mul_add_mod, Nat.mod_eq_of_lt hi]
  have h3 : j * esz + i < n := by omega
  rw [elem_getLsbD, ofElems_getLsbD f hesz hdvd, hdiv, hmod]
  simp [hi, h3]

/-- Two values with the same elements are equal. -/
theorem eq_of_elem_eq {esz n : Nat} (hesz : 0 < esz) (hdvd : esz ∣ n) {a b : BitVec n}
    (h : ∀ j < n / esz, elem esz a j = elem esz b j) : a = b := by
  apply BitVec.eq_of_getLsbD_eq
  intro i hi
  have hlt : i / esz < n / esz := Nat.div_lt_div_of_lt_of_dvd hdvd hi
  have hm : i % esz < esz := Nat.mod_lt _ hesz
  have h2 : i / esz * esz + i % esz = i := by rw [Nat.mul_comm]; exact Nat.div_add_mod i esz
  have h1 : (elem esz a (i / esz)).getLsbD (i % esz) = (elem esz b (i / esz)).getLsbD (i % esz) := by rw [h _ hlt]
  rw [elem_getLsbD, elem_getLsbD, h2] at h1
  simpa only [hm, decide_true, Bool.true_and] using h1

/-- An element of `UNPCKL` (R139). -/
theorem elem_unpckl {esz n : Nat} (hesz : 0 < esz) (hdvd : esz ∣ n) (a b : BitVec n) {q : Nat} (hq : q < n / esz) :
    elem esz (unpckl esz n a b) q =
      if q % (laneWidth n / esz) % 2 = 0 then elem esz a (sourceIndex (laneWidth n / esz) q)
      else elem esz b (sourceIndex (laneWidth n / esz) q) := by
  rw [unpckl, elem_ofElems _ hesz hdvd hq]

/-- An element of `MASKWRITE` (R141). -/
theorem elem_maskWrite {esz vl : Nat} (hesz : 0 < esz) (hdvd : esz ∣ vl) (nomask : Bool) (k : QWord) (z : Bool)
    (old tmp : BitVec vl) {j : Nat} (hj : j < vl / esz) :
    elem esz (maskWrite esz vl nomask k z old tmp) j =
      if k.getLsbD j || nomask then elem esz tmp j else if z then 0 else elem esz old j := by
  rw [maskWrite, elem_ofElems _ hesz hdvd hj]

/-- An element of `BCAST` (R142). -/
theorem elem_bcast {esz vl : Nat} (hesz : 0 < esz) (hdvd : esz ∣ vl) (m : BitVec esz) {j : Nat} (hj : j < vl / esz) :
    elem esz (bcast esz vl m) j = m := by
  rw [bcast, elem_ofElems _ hesz hdvd hj]

/-! ## Elements of a concatenation -/

/-- The lowest element of a concatenation is its right part. -/
theorem elem_append_zero {w e : Nat} (x : BitVec w) (y : BitVec e) : elem e (x ++ y) 0 = y := by
  apply BitVec.eq_of_getLsbD_eq
  intro i hi
  rw [elem_getLsbD, BitVec.getLsbD_append]
  simp [hi]

/-- The other elements of a concatenation are those of its left part. -/
theorem elem_append_succ {w e : Nat} (x : BitVec w) (y : BitVec e) (q : Nat) :
    elem e (x ++ y) (q + 1) = elem e x q := by
  apply BitVec.eq_of_getLsbD_eq
  intro i hi
  have h1 : ¬ ((q + 1) * e + i < e) := by rw [Nat.add_mul]; omega
  have h2 : (q + 1) * e + i - e = q * e + i := by rw [Nat.add_mul]; omega
  rw [elem_getLsbD, elem_getLsbD, BitVec.getLsbD_append, h2]
  simp [h1]

/-- A value of one element is that element. -/
theorem elem_self {e : Nat} (y : BitVec e) : elem e y 0 = y := by
  apply BitVec.eq_of_getLsbD_eq
  intro i hi
  rw [elem_getLsbD]
  simp [hi]

end Sys2Proof.Machine
end

