-- ==== Sys2Proof/Laws/Checks.lean ====
section
/-! SUPPORT. What each check of an instruction answers, in the terms of Safety.lean: `firstStop`, the segment, access and
alignment checks, and `memRead` as a whole. -/

namespace Sys2Proof.Machine

/-! ## Lists of causes -/

@[simp] theorem firstStop_nil : firstStop [] = .ok () := rfl

@[simp] theorem firstStop_cons (c : Bool) (x : Stop) (l : List (Bool × Stop)) :
    firstStop ((c, x) :: l) = if c then .error x else firstStop l := rfl

/-- No cause holds. -/
theorem firstStop_ok_iff (l : List (Bool × Stop)) : firstStop l = .ok () ↔ ∀ c ∈ l, c.1 = false := by
  induction l with
  | nil => simp
  | cons c l ih =>
    obtain ⟨b, x⟩ := c
    cases b <;> simp [firstStop_cons, ih]

/-- The stop met is that of a cause that holds. -/
theorem firstStop_eq_error {l : List (Bool × Stop)} {x : Stop} (h : firstStop l = .error x) :
    ∃ c ∈ l, c.1 = true ∧ c.2 = x := by
  induction l with
  | nil => cases h
  | cons c l ih =>
    obtain ⟨b, y⟩ := c
    cases b with
    | true => exact ⟨_, List.mem_cons_self .., rfl, by simpa using h⟩
    | false =>
      obtain ⟨c, hc, h1⟩ := ih (by simpa using h)
      exact ⟨c, List.mem_cons_of_mem _ hc, h1⟩

/-- Two lists one after the other. -/
theorem firstStop_append (l r : List (Bool × Stop)) :
    firstStop (l ++ r) = (do firstStop l; firstStop r) := by
  induction l with
  | nil => rfl
  | cons c l ih =>
    obtain ⟨b, x⟩ := c
    cases b
    · simpa using ih
    · rfl

/-! ## Segment check -/

/-- The segment check passes exactly when `SegmentOk` says so. -/
theorem checkSegment_ok_iff (s : State) (m : Mode) (seg : SegName) (ea : QWord) (n : Nat) :
    s.checkSegment m seg ea n = .ok () ↔ SegmentOk s m seg ea n := by
  cases m
  · rw [State.checkSegment, firstStop_ok_iff]
    simp [SegmentOk, List.any_eq_false]
  · rw [State.checkSegment, firstStop_ok_iff]
    simp [SegmentOk]

/-- A failed segment check is the exception of the segment, but for an expand-down segment. -/
theorem checkSegment_fails (s : State) (m : Mode) (seg : SegName) (ea : QWord) (n : Nat)
    (he : m = .prot32 → (s.segReg seg).expandDown = false) (h : ¬ SegmentOk s m seg ea n) :
    s.checkSegment m seg ea n = .error (s.takeException (segmentException seg)) := by
  cases m
  · have h' : ((List.range n).any fun k =>
        !canonical s.law (byteAddr .long64 (s.linear .long64 seg ea) k)) = true := by
      simpa [SegmentOk] using h
    simp only [State.checkSegment, firstStop_cons, h', if_true]
  · have he := he rfl
    simp only [State.checkSegment, firstStop_cons, firstStop_nil, he]
    simp only [SegmentOk, he, true_and] at h
    cases hn : (s.segReg seg).isNull <;> cases hr : (s.segReg seg).readable <;> simp [hn, hr] at h ⊢
    simpa using h

/-- A segment check stops with the exception of the segment or refuses an expand-down segment. -/
theorem checkSegment_error {s : State} {m : Mode} {seg : SegName} {ea : QWord} {n : Nat} {x : Stop}
    (h : s.checkSegment m seg ea n = .error x) :
    x = s.takeException (segmentException seg) ∨ x = .refused .expandDown := by
  cases m
  · simp only [State.checkSegment, firstStop_cons, firstStop_nil] at h
    split at h
    · exact .inl (Except.error.inj h).symm
    · simp at h
  · simp only [State.checkSegment, firstStop_cons, firstStop_nil] at h
    repeat' split at h
    · exact .inl (Except.error.inj h).symm
    · exact .inl (Except.error.inj h).symm
    · exact .inr (Except.error.inj h).symm
    · exact .inl (Except.error.inj h).symm
    · simp at h

/-! ## Access -/

/-- A readable byte is not denied. -/
theorem access_of_byteOk {s : State} {m : Mode} {la : QWord} {k : Nat} (h : ByteOk s m la k) :
    s.access (byteAddr m la k) = .ok (s.mem.read (byteAddr m la k).toNat) := by
  rcases h with h | h <;> simp [State.access, h]

/-- A denied byte answers its code. -/
theorem access_of_denied {s : State} {m : Mode} {la : QWord} {k : Nat} {code : PfCode}
    (h : s.kindAt (byteAddr m la k).toNat = .denied code) :
    s.access (byteAddr m la k) = .error (code.bits s.cpl) := by
  simp [State.access, h]

/-- No byte of a readable stretch is denied. -/
theorem deniedByte_none {s : State} {m : Mode} {la : QWord} {first n : Nat}
    (h : ∀ k, first ≤ k → k < first + n → ByteOk s m la k) : s.deniedByte m la first n = none := by
  rw [State.deniedByte, List.findSome?_eq_none_iff]
  intro k hk
  rw [List.mem_range'_1] at hk
  rw [access_of_byteOk (h k hk.1 hk.2)]

/-- The lowest denied byte of a stretch. -/
theorem deniedByte_some {s : State} {m : Mode} {la : QWord} {first n k : Nat} {code : PfCode} (h1 : first ≤ k)
    (h2 : k < first + n) (hlow : ∀ j, first ≤ j → j < k → ByteOk s m la j)
    (hk : s.kindAt (byteAddr m la k).toNat = .denied code) :
    s.deniedByte m la first n = some (code.bits s.cpl, byteAddr m la k) := by
  induction n generalizing first with
  | zero => omega
  | succ n ih =>
    rw [State.deniedByte, List.range'_succ, List.findSome?_cons]
    rcases Nat.eq_or_lt_of_le h1 with rfl | hlt
    · simp [access_of_denied hk]
    · simp only [access_of_byteOk (hlow first (Nat.le_refl _) hlt)]
      exact ih hlt (by omega) fun j hj hj' => hlow j (by omega) hj'

/-- What a denied byte is, read back. -/
theorem deniedByte_eq_some {s : State} {m : Mode} {la : QWord} {first n : Nat} {r : DWord × QWord}
    (h : s.deniedByte m la first n = some r) :
    ∃ k code, first ≤ k ∧ k < first + n ∧ s.kindAt (byteAddr m la k).toNat = .denied code
      ∧ r = (code.bits s.cpl, byteAddr m la k) := by
  rw [State.deniedByte] at h
  obtain ⟨k, hk, hr⟩ := List.exists_of_findSome?_eq_some h
  rw [List.mem_range'_1] at hk
  rw [State.access] at hr
  cases hkind : s.kindAt (byteAddr m la k).toNat with
  | denied code =>
    rw [hkind] at hr
    exact ⟨k, code, hk.1, hk.2, hkind, by simpa using hr.symm⟩
  | _ => rw [hkind] at hr; simp at hr

/-- Every byte readable: the access check passes, whatever FETCH64. -/
theorem checkAccess_ok {s : State} {m : Mode} {la : QWord} {w : Nat} (h : ∀ k < w / 8, ByteOk s m la k) :
    s.checkAccess m la w = .ok () := by
  by_cases hw : w = 128
  · subst hw
    rw [State.checkAccess, deniedByte_none fun k _ hk => h k (by simp at hk; omega),
      deniedByte_none fun k _ hk => h k (by simp at hk; omega)]
  · rw [State.checkAccess, deniedByte_none fun k _ hk => h k (by simpa [hw] using hk),
      deniedByte_none fun k h1 h2 => by simp [hw] at h2; omega]

/-- No byte in a region with read side effects. -/
theorem checkSideEffects_ok_iff (s : State) (m : Mode) (la : QWord) (n : Nat) :
    s.checkSideEffects m la n = .ok () ↔ ∀ k < n, s.kindAt (byteAddr m la k).toNat ≠ .sideEffects := by
  rw [State.checkSideEffects, firstStop_ok_iff]
  simp

/-- A byte in a region with read side effects is refused. -/
theorem checkSideEffects_refused {s : State} {m : Mode} {la : QWord} {n k : Nat} (hk : k < n)
    (h : s.kindAt (byteAddr m la k).toNat = .sideEffects) :
    s.checkSideEffects m la n = .error (.refused .sideEffects) := by
  have h' : ((List.range n).any fun k => s.kindAt (byteAddr m la k).toNat == .sideEffects) = true := by
    rw [List.any_eq_true]
    exact ⟨k, List.mem_range.mpr hk, by simp [h]⟩
  simp only [State.checkSideEffects, firstStop_cons, h', if_true]

/-- A readable byte is in no region with read side effects. -/
theorem ByteOk.not_sideEffects {s : State} {m : Mode} {la : QWord} {k : Nat} (h : ByteOk s m la k) :
    s.kindAt (byteAddr m la k).toNat ≠ .sideEffects := by
  rcases h with h | h <;> simp [h]

/-! ## Alignment -/

/-- The 16-byte alignment check. -/
theorem checkAlign16_eq (s : State) (al : AlignRule) (la : QWord) :
    s.checkAlign16 al la =
      if al = .sse ∧ la.toNat % 16 ≠ 0 then .error (s.takeException .gp) else .ok () := by
  simp [State.checkAlign16]

/-- An operand that satisfies `AlignOk` passes both alignment checks. -/
theorem checkAlign16_ok {s : State} {al : AlignRule} {la : QWord} {n : Nat} (h : AlignOk s al la n) :
    s.checkAlign16 al la = .ok () := by
  cases al <;> simp_all [checkAlign16_eq, AlignOk]

/-- The second alignment check. -/
theorem checkAlignAc_ok {s : State} {al : AlignRule} {la : QWord} {n : Nat} (h : AlignOk s al la n) :
    s.checkAlignAc al la n = .ok () := by
  cases al
  · simp only [AlignOk] at h
    by_cases hc : s.alignChecking = true
    · simp [State.checkAlignAc, hc, h hc]
    · simp [State.checkAlignAc, hc]
  · rfl
  · simp only [AlignOk] at h
    by_cases hc : s.alignChecking = true
    · simp [State.checkAlignAc, hc, h hc]
    · simp [State.checkAlignAc, hc]

/-! ## The read -/

/-- The read of a readable operand answers its bytes. -/
theorem memRead_ok {s : State} {m : Mode} {seg : SegName} {ea : QWord} {w : Nat} {al : AlignRule}
    (hs : SegmentOk s m seg ea (w / 8)) (hb : ∀ k < w / 8, ByteOk s m (s.linear m seg ea) k)
    (ha : AlignOk s al (s.linear m seg ea) (w / 8)) :
    s.memRead m seg ea w al = .ok (s.readBytes m (s.linear m seg ea) w) := by
  rw [State.memRead, (checkSegment_ok_iff s m seg ea _).mpr hs, checkAlign16_ok ha,
    (checkSideEffects_ok_iff s m _ _).mpr fun k hk => (hb k hk).not_sideEffects, checkAccess_ok hb,
    checkAlignAc_ok ha]
  rfl

/-- Whatever a read answers is the bytes of the operand. -/
theorem memRead_eq_ok {s : State} {m : Mode} {seg : SegName} {ea : QWord} {w : Nat} {al : AlignRule} {b : BitVec w}
    (h : s.memRead m seg ea w al = .ok b) : b = s.readBytes m (s.linear m seg ea) w := by
  unfold State.memRead at h
  cases h1 : s.checkSegment m seg ea (w / 8) with
  | error x => rw [h1] at h; cases h
  | ok _ =>
    cases h2 : s.checkAlign16 al (s.linear m seg ea) with
    | error x => rw [h1, h2] at h; cases h
    | ok _ =>
      cases h3 : s.checkSideEffects m (s.linear m seg ea) (w / 8) with
      | error x => rw [h1, h2, h3] at h; cases h
      | ok _ =>
        cases h4 : s.checkAccess m (s.linear m seg ea) w with
        | error x => rw [h1, h2, h3, h4] at h; cases h
        | ok _ =>
          cases h5 : s.checkAlignAc al (s.linear m seg ea) (w / 8) with
          | error x => rw [h1, h2, h3, h4, h5] at h; cases h
          | ok _ => rw [h1, h2, h3, h4, h5] at h; exact (Except.ok.inj h).symm

/-- Every way a read can stop: the segment's exception, an expand-down segment, a misaligned legacy operand, a region with
read side effects, a denied byte, or alignment checking. -/
theorem memRead_error {s : State} {m : Mode} {seg : SegName} {ea : QWord} {w : Nat} {al : AlignRule} {x : Stop}
    (h : s.memRead m seg ea w al = .error x) :
    x = s.takeException (segmentException seg) ∨ x = .refused .expandDown
      ∨ (al = .sse ∧ x = s.takeException .gp) ∨ x = .refused .sideEffects
      ∨ (∃ code : PfCode, ∃ address, x = s.takeException fun rip => .pf rip (code.bits s.cpl) address)
      ∨ (al ≠ .sse ∧ s.alignChecking = true ∧ x = s.takeException .ac) := by
  unfold State.memRead at h
  cases h1 : s.checkSegment m seg ea (w / 8) with
  | error y =>
    rw [h1] at h
    cases h
    rcases checkSegment_error h1 with h | h <;> simp [h]
  | ok _ =>
    cases h2 : s.checkAlign16 al (s.linear m seg ea) with
    | error y =>
      rw [h1, h2] at h
      cases h
      rw [checkAlign16_eq] at h2
      split at h2
      · next hc => exact .inr (.inr (.inl ⟨hc.1, (Except.error.inj h2).symm⟩))
      · cases h2
    | ok _ =>
      cases h3 : s.checkSideEffects m (s.linear m seg ea) (w / 8) with
      | error y =>
        rw [h1, h2, h3] at h
        cases h
        simp only [State.checkSideEffects, firstStop_cons, firstStop_nil] at h3
        split at h3
        · exact .inr (.inr (.inr (.inl (Except.error.inj h3).symm)))
        · cases h3
      | ok _ =>
        cases h4 : s.checkAccess m (s.linear m seg ea) w with
        | error y =>
          rw [h1, h2, h3, h4] at h
          cases h
          refine .inr (.inr (.inr (.inr (.inl ?_))))
          unfold State.checkAccess at h4
          split at h4
          · next c a hd =>
            obtain ⟨_, code, _, _, _, hr⟩ := deniedByte_eq_some hd
            cases hr
            exact ⟨code, _, (Except.error.inj h4).symm⟩
          · split at h4
            · next c a hd =>
              split at h4
              · cases h4
              · obtain ⟨_, code, _, _, _, hr⟩ := deniedByte_eq_some hd
                cases hr
                exact ⟨code, _, (Except.error.inj h4).symm⟩
            · cases h4
        | ok _ =>
          cases h5 : s.checkAlignAc al (s.linear m seg ea) (w / 8) with
          | error y =>
            rw [h1, h2, h3, h4, h5] at h
            cases h
            refine .inr (.inr (.inr (.inr (.inr ?_))))
            cases al with
            | mmx =>
              simp only [State.checkAlignAc, firstStop_cons, firstStop_nil] at h5
              split at h5
              · next hc =>
                rw [Bool.and_eq_true] at hc
                exact ⟨by decide, hc.1, (Except.error.inj h5).symm⟩
              · cases h5
            | sse => cases h5
            | vector =>
              simp only [State.checkAlignAc] at h5
              split at h5
              · next hc =>
                rw [Bool.and_eq_true] at hc
                split at h5
                · exact ⟨by decide, hc.1, (Except.error.inj h5).symm⟩
                · cases h5
              · cases h5
          | ok _ => rw [h1, h2, h3, h4, h5] at h; cases h

end Sys2Proof.Machine
end

