-- ==== Sys2Proof/Laws/Decode.lean ====
section
/-! SUPPORT. The decoder's parts read back what the encoder's parts write. -/

namespace Sys2Proof

@[simp] theorem modField_fieldByte (h : BitVec 2) (m l : BitVec 3) : modField (fieldByte h m l) = h := by
  revert h m l; decide

@[simp] theorem regField_fieldByte (h : BitVec 2) (m l : BitVec 3) : regField (fieldByte h m l) = m := by
  revert h m l; decide

@[simp] theorem rmField_fieldByte (h : BitVec 2) (m l : BitVec 3) : rmField (fieldByte h m l) = l := by
  revert h m l; decide

/-- A prefix's byte is read as that prefix. -/
@[simp] theorem Prefix.ofByte?_byte (p : Prefix) : Prefix.ofByte? p.byte = some p := by
  cases p with
  | seg n => cases n <;> rfl
  | _ => rfl

/-- A byte read as a prefix is that prefix's byte. -/
theorem Prefix.byte_of_ofByte? {b : Byte} {p : Prefix} (h : Prefix.ofByte? b = some p) : p.byte = b := by
  revert h; revert p; revert b; decide +revert

/-- Scanning stops at the first byte that is no prefix. -/
theorem scanPrefixes_map (ps : List Prefix) {bs : List Byte} (h : (scanPrefixes bs).1 = []) :
    scanPrefixes (ps.map Prefix.byte ++ bs) = (ps, bs) := by
  have hbs : scanPrefixes bs = ([], bs) := by
    cases bs with
    | nil => rfl
    | cons b bs =>
      unfold scanPrefixes at h ⊢
      cases hb : Prefix.ofByte? b with
      | none => rfl
      | some p => rw [hb] at h; simp at h
  induction ps with
  | nil => simpa using hbs
  | cons p ps ih => simp [scanPrefixes, ih]

/-- What scanning answers, put back together. -/
theorem scanPrefixes_eq (bs : List Byte) :
    (scanPrefixes bs).1.map Prefix.byte ++ (scanPrefixes bs).2 = bs := by
  induction bs with
  | nil => rfl
  | cons b bs ih =>
    unfold scanPrefixes
    cases hb : Prefix.ofByte? b with
    | none => rfl
    | some p => simp [Prefix.byte_of_ofByte? hb, ih]

/-- A REX byte is read as that REX. -/
@[simp] theorem Rex.ofByte?_byte (r : Rex) : Rex.ofByte? r.byte = some r := by
  obtain ⟨w, r, x, b⟩ := r
  cases w <;> cases r <;> cases x <;> cases b <;> rfl

/-- Four little-endian bytes are read back. -/
@[simp] theorem take32_le32 (d : BitVec 32) (bs : List Byte) : take32 (le32 d ++ bs) = some (d, bs) := by
  have h : d.extractLsb' 24 8 ++ d.extractLsb' 16 8 ++ d.extractLsb' 8 8 ++ d.extractLsb' 0 8 = d := by
    apply BitVec.eq_of_getLsbD_eq
    intro p hp
    simp only [BitVec.getLsbD_append, BitVec.getLsbD_extractLsb']
    rcases Nat.lt_or_ge p 8 with h1 | h1
    · simp [h1]
    · rcases Nat.lt_or_ge p 16 with h2 | h2
      · simp [Nat.not_lt.mpr h1, show p - 8 < 8 by omega, show 8 + (p - 8) = p by omega]
      · rcases Nat.lt_or_ge p 24 with h3 | h3
        · simp [Nat.not_lt.mpr h1, show ¬ p - 8 < 8 by omega, show p - 8 - 8 < 8 by omega,
            show 16 + (p - 8 - 8) = p by omega]
        · simp [Nat.not_lt.mpr h1, show ¬ p - 8 < 8 by omega, show ¬ p - 8 - 8 < 8 by omega,
            show p - 8 - 8 - 8 < 8 by omega, show 24 + (p - 8 - 8 - 8) = p by omega]
  simp [le32, take32, h]

/-- What `take32` answers, put back together. -/
theorem le32_of_take32 {bs rest : List Byte} {d : BitVec 32} (h : take32 bs = some (d, rest)) : le32 d ++ rest = bs := by
  match bs, h with
  | b0 :: b1 :: b2 :: b3 :: tail, h =>
    simp only [take32, Option.some.injEq, Prod.mk.injEq] at h
    obtain ⟨rfl, rfl⟩ := h
    have e0 : (b3 ++ b2 ++ b1 ++ b0).extractLsb' 0 8 = b0 := by
      apply BitVec.eq_of_getLsbD_eq
      intro p hp
      simp only [BitVec.getLsbD_extractLsb', BitVec.getLsbD_append]
      simp [hp]
    have e1 : (b3 ++ b2 ++ b1 ++ b0).extractLsb' 8 8 = b1 := by
      apply BitVec.eq_of_getLsbD_eq
      intro p hp
      simp only [BitVec.getLsbD_extractLsb', BitVec.getLsbD_append]
      simp [hp]
    have e2 : (b3 ++ b2 ++ b1 ++ b0).extractLsb' 16 8 = b2 := by
      apply BitVec.eq_of_getLsbD_eq
      intro p hp
      simp only [BitVec.getLsbD_extractLsb', BitVec.getLsbD_append]
      simp [hp, show ¬ 16 + p < 8 by omega, show 16 + p - 8 - 8 = p by omega, show ¬ 16 + p - 8 < 8 by omega]
    have e3 : (b3 ++ b2 ++ b1 ++ b0).extractLsb' 24 8 = b3 := by
      apply BitVec.eq_of_getLsbD_eq
      intro p hp
      simp only [BitVec.getLsbD_extractLsb', BitVec.getLsbD_append]
      simp [hp, show ¬ 24 + p < 8 by omega, show ¬ 24 + p - 8 < 8 by omega, show ¬ 24 + p - 8 - 8 < 8 by omega,
        show 24 + p - 8 - 8 - 8 = p by omega]
    simp [le32, e0, e1, e2, e3]

/-- A displacement is read back. -/
@[simp] theorem takeDisp_bytes (d : Disp) (bs : List Byte) : takeDisp d.mod (d.bytes ++ bs) = some (d, bs) := by
  cases d <;> simp [takeDisp, Disp.mod, Disp.bytes]

/-- The `mod` field of a displacement is not `11B`. -/
@[simp] theorem Disp.mod_ne_three (d : Disp) : ¬ d.mod = 3#2 := by
  cases d <;> simp [Disp.mod]

/-- ModRM, SIB and displacement are read back. -/
theorem takeRm_rmBytes (reg : BitVec 3) (rm : Rm) (h : rm.wf = true) (bs : List Byte) :
    ∃ modrm tail, rmBytes reg rm = modrm :: tail ∧ regField modrm = reg
      ∧ (modField modrm = 3 ↔ rm.isMem = false) ∧ takeRm modrm (tail ++ bs) = some (rm, bs) := by
  cases rm with
  | reg r => exact ⟨_, _, rfl, by simp, by simp [Rm.isMem], by simp [takeRm]⟩
  | mem a =>
    cases a with
    | base r d =>
      refine ⟨_, _, rfl, by simp, by simp [Rm.isMem], ?_⟩
      simp only [Rm.wf, Addr.wf, Bool.and_eq_true, bne_iff_ne, Bool.or_eq_true, ne_eq] at h
      have h1 : ¬ r = 4#3 := h.1
      have h2 : ¬ (d.mod = 0#2 ∧ r = 5#3) := by
        rintro ⟨h0, h5⟩
        cases d <;> simp_all [Disp.mod]
      simp [takeRm, h1, h2]
    | disp32 d => exact ⟨_, _, rfl, by simp, by simp [Rm.isMem], by simp [takeRm]⟩
    | sib s i b d =>
      refine ⟨_, _, rfl, by simp, by simp [Rm.isMem], ?_⟩
      simp only [Rm.wf, Addr.wf, Bool.or_eq_true, bne_iff_ne, ne_eq] at h
      have h2 : ¬ (d.mod = 0#2 ∧ b = 5#3) := by
        rintro ⟨h0, h5⟩
        cases d <;> simp_all [Disp.mod]
      simp [takeRm, takeSib, h2]
    | sibDisp32 s i d => exact ⟨_, _, rfl, by simp, by simp [Rm.isMem], by simp [takeRm, takeSib]⟩

end Sys2Proof
end

