-- ==== Sys2Proof/Laws/State.lean ====
section
/-! SUPPORT. One lemma per field per update of `State`, true by rfl, and what the register accessors answer after an update. -/

namespace Sys2Proof.Machine

/-! ## `State.setMm` -/

@[simp] theorem State.setMm_g (s : State) (i : BitVec 3) (x : QWord) : (s.setMm i x).g = s.g := rfl
@[simp] theorem State.setMm_rip (s : State) (i : BitVec 3) (x : QWord) : (s.setMm i x).rip = s.rip := rfl
@[simp] theorem State.setMm_rflags (s : State) (i : BitVec 3) (x : QWord) : (s.setMm i x).rflags = s.rflags := rfl
@[simp] theorem State.setMm_x87Upper (s : State) (i : BitVec 3) (x : QWord) : (s.setMm i x).x87Upper = s.x87Upper := rfl
@[simp] theorem State.setMm_x87Tag (s : State) (i : BitVec 3) (x : QWord) : (s.setMm i x).x87Tag = s.x87Tag := rfl
@[simp] theorem State.setMm_x87Top (s : State) (i : BitVec 3) (x : QWord) : (s.setMm i x).x87Top = s.x87Top := rfl
@[simp] theorem State.setMm_x87Pending (s : State) (i : BitVec 3) (x : QWord) : (s.setMm i x).x87Pending = s.x87Pending := rfl
@[simp] theorem State.setMm_v (s : State) (i : BitVec 3) (x : QWord) : (s.setMm i x).v = s.v := rfl
@[simp] theorem State.setMm_k (s : State) (i : BitVec 3) (x : QWord) : (s.setMm i x).k = s.k := rfl
@[simp] theorem State.setMm_mxcsr (s : State) (i : BitVec 3) (x : QWord) : (s.setMm i x).mxcsr = s.mxcsr := rfl
@[simp] theorem State.setMm_cr0 (s : State) (i : BitVec 3) (x : QWord) : (s.setMm i x).cr0 = s.cr0 := rfl
@[simp] theorem State.setMm_cr2 (s : State) (i : BitVec 3) (x : QWord) : (s.setMm i x).cr2 = s.cr2 := rfl
@[simp] theorem State.setMm_cr4 (s : State) (i : BitVec 3) (x : QWord) : (s.setMm i x).cr4 = s.cr4 := rfl
@[simp] theorem State.setMm_xcr0 (s : State) (i : BitVec 3) (x : QWord) : (s.setMm i x).xcr0 = s.xcr0 := rfl
@[simp] theorem State.setMm_efer (s : State) (i : BitVec 3) (x : QWord) : (s.setMm i x).efer = s.efer := rfl
@[simp] theorem State.setMm_cpl (s : State) (i : BitVec 3) (x : QWord) : (s.setMm i x).cpl = s.cpl := rfl
@[simp] theorem State.setMm_smm (s : State) (i : BitVec 3) (x : QWord) : (s.setMm i x).smm = s.smm := rfl
@[simp] theorem State.setMm_cs (s : State) (i : BitVec 3) (x : QWord) : (s.setMm i x).cs = s.cs := rfl
@[simp] theorem State.setMm_ss (s : State) (i : BitVec 3) (x : QWord) : (s.setMm i x).ss = s.ss := rfl
@[simp] theorem State.setMm_ds (s : State) (i : BitVec 3) (x : QWord) : (s.setMm i x).ds = s.ds := rfl
@[simp] theorem State.setMm_es (s : State) (i : BitVec 3) (x : QWord) : (s.setMm i x).es = s.es := rfl
@[simp] theorem State.setMm_fs (s : State) (i : BitVec 3) (x : QWord) : (s.setMm i x).fs = s.fs := rfl
@[simp] theorem State.setMm_gs (s : State) (i : BitVec 3) (x : QWord) : (s.setMm i x).gs = s.gs := rfl
@[simp] theorem State.setMm_features (s : State) (i : BitVec 3) (x : QWord) : (s.setMm i x).features = s.features := rfl
@[simp] theorem State.setMm_law (s : State) (i : BitVec 3) (x : QWord) : (s.setMm i x).law = s.law := rfl
@[simp] theorem State.setMm_mem (s : State) (i : BitVec 3) (x : QWord) : (s.setMm i x).mem = s.mem := rfl
@[simp] theorem State.setMm_map (s : State) (i : BitVec 3) (x : QWord) : (s.setMm i x).map = s.map := rfl
@[simp] theorem State.setMm_readEvent (s : State) (i : BitVec 3) (x : QWord) : (s.setMm i x).readEvent = s.readEvent := rfl
@[simp] theorem State.setMm_draws (s : State) (i : BitVec 3) (x : QWord) : (s.setMm i x).draws = s.draws := rfl

/-! ## `State.setV` -/

@[simp] theorem State.setV_g (s : State) (i : BitVec 5) (x : VWord) : (s.setV i x).g = s.g := rfl
@[simp] theorem State.setV_rip (s : State) (i : BitVec 5) (x : VWord) : (s.setV i x).rip = s.rip := rfl
@[simp] theorem State.setV_rflags (s : State) (i : BitVec 5) (x : VWord) : (s.setV i x).rflags = s.rflags := rfl
@[simp] theorem State.setV_mm (s : State) (i : BitVec 5) (x : VWord) : (s.setV i x).mm = s.mm := rfl
@[simp] theorem State.setV_x87Upper (s : State) (i : BitVec 5) (x : VWord) : (s.setV i x).x87Upper = s.x87Upper := rfl
@[simp] theorem State.setV_x87Tag (s : State) (i : BitVec 5) (x : VWord) : (s.setV i x).x87Tag = s.x87Tag := rfl
@[simp] theorem State.setV_x87Top (s : State) (i : BitVec 5) (x : VWord) : (s.setV i x).x87Top = s.x87Top := rfl
@[simp] theorem State.setV_x87Pending (s : State) (i : BitVec 5) (x : VWord) : (s.setV i x).x87Pending = s.x87Pending := rfl
@[simp] theorem State.setV_k (s : State) (i : BitVec 5) (x : VWord) : (s.setV i x).k = s.k := rfl
@[simp] theorem State.setV_mxcsr (s : State) (i : BitVec 5) (x : VWord) : (s.setV i x).mxcsr = s.mxcsr := rfl
@[simp] theorem State.setV_cr0 (s : State) (i : BitVec 5) (x : VWord) : (s.setV i x).cr0 = s.cr0 := rfl
@[simp] theorem State.setV_cr2 (s : State) (i : BitVec 5) (x : VWord) : (s.setV i x).cr2 = s.cr2 := rfl
@[simp] theorem State.setV_cr4 (s : State) (i : BitVec 5) (x : VWord) : (s.setV i x).cr4 = s.cr4 := rfl
@[simp] theorem State.setV_xcr0 (s : State) (i : BitVec 5) (x : VWord) : (s.setV i x).xcr0 = s.xcr0 := rfl
@[simp] theorem State.setV_efer (s : State) (i : BitVec 5) (x : VWord) : (s.setV i x).efer = s.efer := rfl
@[simp] theorem State.setV_cpl (s : State) (i : BitVec 5) (x : VWord) : (s.setV i x).cpl = s.cpl := rfl
@[simp] theorem State.setV_smm (s : State) (i : BitVec 5) (x : VWord) : (s.setV i x).smm = s.smm := rfl
@[simp] theorem State.setV_cs (s : State) (i : BitVec 5) (x : VWord) : (s.setV i x).cs = s.cs := rfl
@[simp] theorem State.setV_ss (s : State) (i : BitVec 5) (x : VWord) : (s.setV i x).ss = s.ss := rfl
@[simp] theorem State.setV_ds (s : State) (i : BitVec 5) (x : VWord) : (s.setV i x).ds = s.ds := rfl
@[simp] theorem State.setV_es (s : State) (i : BitVec 5) (x : VWord) : (s.setV i x).es = s.es := rfl
@[simp] theorem State.setV_fs (s : State) (i : BitVec 5) (x : VWord) : (s.setV i x).fs = s.fs := rfl
@[simp] theorem State.setV_gs (s : State) (i : BitVec 5) (x : VWord) : (s.setV i x).gs = s.gs := rfl
@[simp] theorem State.setV_features (s : State) (i : BitVec 5) (x : VWord) : (s.setV i x).features = s.features := rfl
@[simp] theorem State.setV_law (s : State) (i : BitVec 5) (x : VWord) : (s.setV i x).law = s.law := rfl
@[simp] theorem State.setV_mem (s : State) (i : BitVec 5) (x : VWord) : (s.setV i x).mem = s.mem := rfl
@[simp] theorem State.setV_map (s : State) (i : BitVec 5) (x : VWord) : (s.setV i x).map = s.map := rfl
@[simp] theorem State.setV_readEvent (s : State) (i : BitVec 5) (x : VWord) : (s.setV i x).readEvent = s.readEvent := rfl
@[simp] theorem State.setV_draws (s : State) (i : BitVec 5) (x : VWord) : (s.setV i x).draws = s.draws := rfl

/-! ## `State.x87Any` -/

@[simp] theorem State.x87Any_g (s : State) : (s.x87Any).g = s.g := rfl
@[simp] theorem State.x87Any_rip (s : State) : (s.x87Any).rip = s.rip := rfl
@[simp] theorem State.x87Any_rflags (s : State) : (s.x87Any).rflags = s.rflags := rfl
@[simp] theorem State.x87Any_mm (s : State) : (s.x87Any).mm = s.mm := rfl
@[simp] theorem State.x87Any_x87Pending (s : State) : (s.x87Any).x87Pending = s.x87Pending := rfl
@[simp] theorem State.x87Any_v (s : State) : (s.x87Any).v = s.v := rfl
@[simp] theorem State.x87Any_k (s : State) : (s.x87Any).k = s.k := rfl
@[simp] theorem State.x87Any_mxcsr (s : State) : (s.x87Any).mxcsr = s.mxcsr := rfl
@[simp] theorem State.x87Any_cr0 (s : State) : (s.x87Any).cr0 = s.cr0 := rfl
@[simp] theorem State.x87Any_cr2 (s : State) : (s.x87Any).cr2 = s.cr2 := rfl
@[simp] theorem State.x87Any_cr4 (s : State) : (s.x87Any).cr4 = s.cr4 := rfl
@[simp] theorem State.x87Any_xcr0 (s : State) : (s.x87Any).xcr0 = s.xcr0 := rfl
@[simp] theorem State.x87Any_efer (s : State) : (s.x87Any).efer = s.efer := rfl
@[simp] theorem State.x87Any_cpl (s : State) : (s.x87Any).cpl = s.cpl := rfl
@[simp] theorem State.x87Any_smm (s : State) : (s.x87Any).smm = s.smm := rfl
@[simp] theorem State.x87Any_cs (s : State) : (s.x87Any).cs = s.cs := rfl
@[simp] theorem State.x87Any_ss (s : State) : (s.x87Any).ss = s.ss := rfl
@[simp] theorem State.x87Any_ds (s : State) : (s.x87Any).ds = s.ds := rfl
@[simp] theorem State.x87Any_es (s : State) : (s.x87Any).es = s.es := rfl
@[simp] theorem State.x87Any_fs (s : State) : (s.x87Any).fs = s.fs := rfl
@[simp] theorem State.x87Any_gs (s : State) : (s.x87Any).gs = s.gs := rfl
@[simp] theorem State.x87Any_features (s : State) : (s.x87Any).features = s.features := rfl
@[simp] theorem State.x87Any_law (s : State) : (s.x87Any).law = s.law := rfl
@[simp] theorem State.x87Any_mem (s : State) : (s.x87Any).mem = s.mem := rfl
@[simp] theorem State.x87Any_map (s : State) : (s.x87Any).map = s.map := rfl
@[simp] theorem State.x87Any_readEvent (s : State) : (s.x87Any).readEvent = s.readEvent := rfl
@[simp] theorem State.x87Any_draws (s : State) : (s.x87Any).draws = s.draws := rfl

/-! ## `State.advance` -/

@[simp] theorem State.advance_g (s : State) (m : Mode) (n : Nat) (e : Option ReadEvent) : (s.advance m n e).g = s.g := rfl
@[simp] theorem State.advance_mm (s : State) (m : Mode) (n : Nat) (e : Option ReadEvent) : (s.advance m n e).mm = s.mm := rfl
@[simp] theorem State.advance_x87Upper (s : State) (m : Mode) (n : Nat) (e : Option ReadEvent) : (s.advance m n e).x87Upper = s.x87Upper := rfl
@[simp] theorem State.advance_x87Tag (s : State) (m : Mode) (n : Nat) (e : Option ReadEvent) : (s.advance m n e).x87Tag = s.x87Tag := rfl
@[simp] theorem State.advance_x87Top (s : State) (m : Mode) (n : Nat) (e : Option ReadEvent) : (s.advance m n e).x87Top = s.x87Top := rfl
@[simp] theorem State.advance_x87Pending (s : State) (m : Mode) (n : Nat) (e : Option ReadEvent) : (s.advance m n e).x87Pending = s.x87Pending := rfl
@[simp] theorem State.advance_v (s : State) (m : Mode) (n : Nat) (e : Option ReadEvent) : (s.advance m n e).v = s.v := rfl
@[simp] theorem State.advance_k (s : State) (m : Mode) (n : Nat) (e : Option ReadEvent) : (s.advance m n e).k = s.k := rfl
@[simp] theorem State.advance_mxcsr (s : State) (m : Mode) (n : Nat) (e : Option ReadEvent) : (s.advance m n e).mxcsr = s.mxcsr := rfl
@[simp] theorem State.advance_cr0 (s : State) (m : Mode) (n : Nat) (e : Option ReadEvent) : (s.advance m n e).cr0 = s.cr0 := rfl
@[simp] theorem State.advance_cr2 (s : State) (m : Mode) (n : Nat) (e : Option ReadEvent) : (s.advance m n e).cr2 = s.cr2 := rfl
@[simp] theorem State.advance_cr4 (s : State) (m : Mode) (n : Nat) (e : Option ReadEvent) : (s.advance m n e).cr4 = s.cr4 := rfl
@[simp] theorem State.advance_xcr0 (s : State) (m : Mode) (n : Nat) (e : Option ReadEvent) : (s.advance m n e).xcr0 = s.xcr0 := rfl
@[simp] theorem State.advance_efer (s : State) (m : Mode) (n : Nat) (e : Option ReadEvent) : (s.advance m n e).efer = s.efer := rfl
@[simp] theorem State.advance_cpl (s : State) (m : Mode) (n : Nat) (e : Option ReadEvent) : (s.advance m n e).cpl = s.cpl := rfl
@[simp] theorem State.advance_smm (s : State) (m : Mode) (n : Nat) (e : Option ReadEvent) : (s.advance m n e).smm = s.smm := rfl
@[simp] theorem State.advance_cs (s : State) (m : Mode) (n : Nat) (e : Option ReadEvent) : (s.advance m n e).cs = s.cs := rfl
@[simp] theorem State.advance_ss (s : State) (m : Mode) (n : Nat) (e : Option ReadEvent) : (s.advance m n e).ss = s.ss := rfl
@[simp] theorem State.advance_ds (s : State) (m : Mode) (n : Nat) (e : Option ReadEvent) : (s.advance m n e).ds = s.ds := rfl
@[simp] theorem State.advance_es (s : State) (m : Mode) (n : Nat) (e : Option ReadEvent) : (s.advance m n e).es = s.es := rfl
@[simp] theorem State.advance_fs (s : State) (m : Mode) (n : Nat) (e : Option ReadEvent) : (s.advance m n e).fs = s.fs := rfl
@[simp] theorem State.advance_gs (s : State) (m : Mode) (n : Nat) (e : Option ReadEvent) : (s.advance m n e).gs = s.gs := rfl
@[simp] theorem State.advance_features (s : State) (m : Mode) (n : Nat) (e : Option ReadEvent) : (s.advance m n e).features = s.features := rfl
@[simp] theorem State.advance_law (s : State) (m : Mode) (n : Nat) (e : Option ReadEvent) : (s.advance m n e).law = s.law := rfl
@[simp] theorem State.advance_mem (s : State) (m : Mode) (n : Nat) (e : Option ReadEvent) : (s.advance m n e).mem = s.mem := rfl
@[simp] theorem State.advance_map (s : State) (m : Mode) (n : Nat) (e : Option ReadEvent) : (s.advance m n e).map = s.map := rfl

@[simp] theorem State.advance_rip (s : State) (m : Mode) (n : Nat) (e : Option ReadEvent) : (s.advance m n e).rip = nextRip m s.rip n := rfl
@[simp] theorem State.advance_rflags (s : State) (m : Mode) (n : Nat) (e : Option ReadEvent) : (s.advance m n e).rflags = s.rflags := rfl
@[simp] theorem State.advance_readEvent (s : State) (m : Mode) (n : Nat) (e : Option ReadEvent) : (s.advance m n e).readEvent = e := rfl
@[simp] theorem State.advance_draws (s : State) (m : Mode) (n : Nat) (e : Option ReadEvent) : (s.advance m n e).draws = s.draws + 1 := rfl

/-! ## Accessors -/

@[simp] theorem State.setMm_gAt (s : State) (i : BitVec 3) (x : QWord) (j : BitVec 4) : (s.setMm i x).gAt j = s.gAt j := rfl
@[simp] theorem State.setMm_vAt (s : State) (i : BitVec 3) (x : QWord) (j : BitVec 5) : (s.setMm i x).vAt j = s.vAt j := rfl
@[simp] theorem State.setMm_kAt (s : State) (i : BitVec 3) (x : QWord) (j : BitVec 3) : (s.setMm i x).kAt j = s.kAt j := rfl
@[simp] theorem State.setMm_segReg (s : State) (i : BitVec 3) (x : QWord) (seg : SegName) : (s.setMm i x).segReg seg = s.segReg seg := by
  cases seg <;> rfl
@[simp] theorem State.setMm_mode? (s : State) (i : BitVec 3) (x : QWord) : (s.setMm i x).mode? = s.mode? := rfl
@[simp] theorem State.setMm_vLow (s : State) (i : BitVec 3) (x : QWord) (vl : Nat) (j : BitVec 5) : (s.setMm i x).vLow vl j = s.vLow vl j := rfl
@[simp] theorem State.setV_gAt (s : State) (i : BitVec 5) (x : VWord) (j : BitVec 4) : (s.setV i x).gAt j = s.gAt j := rfl
@[simp] theorem State.setV_mmAt (s : State) (i : BitVec 5) (x : VWord) (j : BitVec 3) : (s.setV i x).mmAt j = s.mmAt j := rfl
@[simp] theorem State.setV_kAt (s : State) (i : BitVec 5) (x : VWord) (j : BitVec 3) : (s.setV i x).kAt j = s.kAt j := rfl
@[simp] theorem State.setV_segReg (s : State) (i : BitVec 5) (x : VWord) (seg : SegName) : (s.setV i x).segReg seg = s.segReg seg := by
  cases seg <;> rfl
@[simp] theorem State.setV_mode? (s : State) (i : BitVec 5) (x : VWord) : (s.setV i x).mode? = s.mode? := rfl
@[simp] theorem State.x87Any_gAt (s : State) (j : BitVec 4) : (s.x87Any).gAt j = s.gAt j := rfl
@[simp] theorem State.x87Any_mmAt (s : State) (j : BitVec 3) : (s.x87Any).mmAt j = s.mmAt j := rfl
@[simp] theorem State.x87Any_vAt (s : State) (j : BitVec 5) : (s.x87Any).vAt j = s.vAt j := rfl
@[simp] theorem State.x87Any_kAt (s : State) (j : BitVec 3) : (s.x87Any).kAt j = s.kAt j := rfl
@[simp] theorem State.x87Any_segReg (s : State) (seg : SegName) : (s.x87Any).segReg seg = s.segReg seg := by
  cases seg <;> rfl
@[simp] theorem State.x87Any_mode? (s : State) : (s.x87Any).mode? = s.mode? := rfl
@[simp] theorem State.x87Any_vLow (s : State) (vl : Nat) (j : BitVec 5) : (s.x87Any).vLow vl j = s.vLow vl j := rfl
@[simp] theorem State.advance_gAt (s : State) (m : Mode) (n : Nat) (e : Option ReadEvent) (j : BitVec 4) : (s.advance m n e).gAt j = s.gAt j := rfl
@[simp] theorem State.advance_mmAt (s : State) (m : Mode) (n : Nat) (e : Option ReadEvent) (j : BitVec 3) : (s.advance m n e).mmAt j = s.mmAt j := rfl
@[simp] theorem State.advance_vAt (s : State) (m : Mode) (n : Nat) (e : Option ReadEvent) (j : BitVec 5) : (s.advance m n e).vAt j = s.vAt j := rfl
@[simp] theorem State.advance_kAt (s : State) (m : Mode) (n : Nat) (e : Option ReadEvent) (j : BitVec 3) : (s.advance m n e).kAt j = s.kAt j := rfl
@[simp] theorem State.advance_segReg (s : State) (m : Mode) (n : Nat) (e : Option ReadEvent) (seg : SegName) : (s.advance m n e).segReg seg = s.segReg seg := by
  cases seg <;> rfl
@[simp] theorem State.advance_mode? (s : State) (m : Mode) (n : Nat) (e : Option ReadEvent) : (s.advance m n e).mode? = s.mode? := rfl
@[simp] theorem State.advance_vLow (s : State) (m : Mode) (n : Nat) (e : Option ReadEvent) (vl : Nat) (j : BitVec 5) : (s.advance m n e).vLow vl j = s.vLow vl j := rfl

/-- `MM[i]` after it is written. -/
@[simp] theorem State.setMm_mmAt_same (s : State) (i : BitVec 3) (x : QWord) : (s.setMm i x).mmAt i = x := by
  simp [State.setMm, State.mmAt]

/-- The other MMX registers. -/
theorem State.setMm_mmAt_ne (s : State) {i j : BitVec 3} (x : QWord) (h : j ≠ i) : (s.setMm i x).mmAt j = s.mmAt j := by
  have h' : i.toNat ≠ j.toNat := fun e => h (BitVec.eq_of_toNat_eq e.symm)
  simp [State.setMm, State.mmAt, Vector.getElem_set_ne _ _ h']

/-- `V[i]` after it is written. -/
@[simp] theorem State.setV_vAt_same (s : State) (i : BitVec 5) (x : VWord) : (s.setV i x).vAt i = x := by
  simp [State.setV, State.vAt]

/-- The other vector registers. -/
theorem State.setV_vAt_ne (s : State) {i j : BitVec 5} (x : VWord) (h : j ≠ i) : (s.setV i x).vAt j = s.vAt j := by
  have h' : i.toNat ≠ j.toNat := fun e => h (BitVec.eq_of_toNat_eq e.symm)
  simp [State.setV, State.vAt, Vector.getElem_set_ne _ _ h']

/-- Every bit of a register written by WRITEVEC (R152). -/
theorem upperBits_getLsbD {w : Nat} (hw : w ≤ 512) (old : VWord) (val : BitVec w) (u : Upper) (b : Nat) :
    (upperBits old val u).getLsbD b =
      if b < w then val.getLsbD b
      else match u with
        | .keep => old.getLsbD b
        | .zero => false := by
  cases u
  · rcases Nat.lt_or_ge b w with h | h
    · have h' : b < 512 := by omega
      simp [upperBits, h, h']
    · have hv : val.getLsbD b = false := BitVec.getLsbD_of_ge _ _ h
      rcases Nat.lt_or_ge b 512 with h' | h'
      · simp [upperBits, Nat.not_lt.mpr h, h', hv, Nat.add_sub_cancel' h]
      · have ho : old.getLsbD b = false := BitVec.getLsbD_of_ge _ _ h'
        simp [upperBits, Nat.not_lt.mpr h, Nat.not_lt.mpr h', ho]
  · rcases Nat.lt_or_ge b w with h | h
    · have h' : b < 512 := by omega
      simp [upperBits, h, h']
    · have hv : val.getLsbD b = false := BitVec.getLsbD_of_ge _ _ h
      simp [upperBits, Nat.not_lt.mpr h, hv]

end Sys2Proof.Machine
end

