-- ==== Sys2Proof/Laws/Forms.lean ====
section
/-! SUPPORT. What an instruction can do, said once: `exec_eq` cuts it into the mode, the checks and the completion of its
shape, and the lemmas below say what each of the three answers. -/

namespace Sys2Proof.Machine

/-- The checks of a shape in their order. -/
def Shape.checks (s : State) : Shape → List (Bool × Stop)
  | .mm _ f => s.mmCauses f
  | .xmm _ f => s.xmmCauses f
  | .vex _ vl f => s.vexCauses vl f
  | .evex esz vl f => s.evexCauses esz vl f

/-- The completion of a shape: second source, computation, write, `rip`. -/
def Shape.finish (m : Mode) (s : State) : Shape → Except Stop State
  | .mm esz f =>
    (s.mmSource m f).map fun b => ((s.setMm f.reg (unpckl esz 64 (s.mmAt f.reg) b)).x87Any).advance m f.len
      (s.readEventOf m (legacyAddressing f) f.rm 32)
  | .xmm esz f =>
    (s.xmmSource m f).map fun b => (s.writeVec f.d (unpckl esz 128 (s.vLow 128 f.d) b) .keep).advance m f.len
      (s.readEventOf m (legacyAddressing f) f.rm 128)
  | .vex esz vl f =>
    (s.vexSource m vl f).map fun b => (s.writeVec f.d (unpckl esz vl (s.vLow vl f.s1) b) .zero).advance m f.len
      (s.readEventOf m (vexAddressing f) f.rm vl)
  | .evex esz vl f =>
    (s.evexSource m esz vl f).map fun b =>
      (s.writeVec f.d (s.masked esz f (unpckl esz vl (s.vLow vl f.s1) b)) .zero).advance m f.len
        (s.readEventOf m (evexAddressing esz vl f) f.rm (if f.bc then esz else vl))

/-- A register operand is no memory read. -/
@[simp] theorem State.readEventOf_reg (s : State) (m : Mode) (c : Addressing) (r : BitVec 3) (w : Nat) :
    s.readEventOf m c (.reg r) w = none := rfl

/-- A memory operand is one read at its linear address. -/
@[simp] theorem State.readEventOf_mem (s : State) (m : Mode) (c : Addressing) (a : Addr) (w : Nat) :
    s.readEventOf m c (.mem a) w =
      some { address := s.linear m (operandSegment m c a) (s.effAddr m c a), size := s.readSize w } := rfl

/-- Every meaning is: an admitted mode, the checks, the completion. -/
theorem exec_eq (i : Instr) (s : State) :
    exec i s = outcome (do
      let m ← s.admitted
      firstStop ((shape i).checks s)
      (shape i).finish m s) := by
  have hmm : ∀ esz f, mmForm esz f s = outcome (do
      let m ← s.admitted
      firstStop ((Shape.mm esz f).checks s)
      (Shape.mm esz f).finish m s) := by
    intro esz f
    cases h : s.admitted with
    | error x => simp only [mmForm, h]; rfl
    | ok m =>
      simp only [mmForm, h, Shape.checks, Shape.finish]
      cases firstStop (s.mmCauses f) <;> cases s.mmSource m f <;> rfl
  have hxmm : ∀ esz f, xmmForm esz f s = outcome (do
      let m ← s.admitted
      firstStop ((Shape.xmm esz f).checks s)
      (Shape.xmm esz f).finish m s) := by
    intro esz f
    cases h : s.admitted with
    | error x => simp only [xmmForm, h]; rfl
    | ok m =>
      simp only [xmmForm, h, Shape.checks, Shape.finish]
      cases firstStop (s.xmmCauses f) <;> cases s.xmmSource m f <;> rfl
  have hvex : ∀ esz vl f, vexForm esz vl f s = outcome (do
      let m ← s.admitted
      firstStop ((Shape.vex esz vl f).checks s)
      (Shape.vex esz vl f).finish m s) := by
    intro esz vl f
    cases h : s.admitted with
    | error x => simp only [vexForm, h]; rfl
    | ok m =>
      simp only [vexForm, h, Shape.checks, Shape.finish]
      cases firstStop (s.vexCauses vl f) <;> cases s.vexSource m vl f <;> rfl
  have hevex : ∀ esz vl f, evexForm esz vl f s = outcome (do
      let m ← s.admitted
      firstStop ((Shape.evex esz vl f).checks s)
      (Shape.evex esz vl f).finish m s) := by
    intro esz vl f
    cases h : s.admitted with
    | error x => simp only [evexForm, h]; rfl
    | ok m =>
      simp only [evexForm, h, Shape.checks, Shape.finish]
      cases firstStop (s.evexCauses esz vl f) <;> cases s.evexSource m esz vl f <;> rfl
  cases i with
  | punpcklbwMm f => exact hmm 8 f
  | punpcklbwXmm f => exact hxmm 8 f
  | vpunpcklbwXmmVex f => exact hvex 8 128 f
  | vpunpcklbwYmmVex f => exact hvex 8 256 f
  | vpunpcklbwXmmEvex f => exact hevex 8 128 f
  | vpunpcklbwYmmEvex f => exact hevex 8 256 f
  | vpunpcklbwZmmEvex f => exact hevex 8 512 f
  | punpcklwdMm f => exact hmm 16 f
  | punpcklwdXmm f => exact hxmm 16 f
  | vpunpcklwdXmmVex f => exact hvex 16 128 f
  | vpunpcklwdYmmVex f => exact hvex 16 256 f
  | vpunpcklwdXmmEvex f => exact hevex 16 128 f
  | vpunpcklwdYmmEvex f => exact hevex 16 256 f
  | vpunpcklwdZmmEvex f => exact hevex 16 512 f
  | punpckldqMm f => exact hmm 32 f
  | punpckldqXmm f => exact hxmm 32 f
  | vpunpckldqXmmVex f => exact hvex 32 128 f
  | vpunpckldqYmmVex f => exact hvex 32 256 f
  | vpunpckldqXmmEvex f => exact hevex 32 128 f
  | vpunpckldqYmmEvex f => exact hevex 32 256 f
  | vpunpckldqZmmEvex f => exact hevex 32 512 f
  | punpcklqdqXmm f => exact hxmm 64 f
  | vpunpcklqdqXmmVex f => exact hvex 64 128 f
  | vpunpcklqdqYmmVex f => exact hvex 64 256 f
  | vpunpcklqdqXmmEvex f => exact hevex 64 128 f
  | vpunpcklqdqYmmEvex f => exact hevex 64 256 f
  | vpunpcklqdqZmmEvex f => exact hevex 64 512 f

/-- The mode and the checks passed: what is left is the completion. -/
theorem exec_of_checks {i : Instr} {s : State} {m : Mode} (hm : s.mode? = .ok m)
    (hc : firstStop ((shape i).checks s) = .ok ()) : exec i s = outcome ((shape i).finish m s) := by
  rw [exec_eq, show s.admitted = .ok m by simp [State.admitted, hm], hc]
  rfl

/-- A check that fails is the outcome. -/
theorem exec_of_stop {i : Instr} {s : State} {m : Mode} {x : Stop} (hm : s.mode? = .ok m)
    (hc : firstStop ((shape i).checks s) = .error x) : exec i s = outcome (.error x) := by
  rw [exec_eq, show s.admitted = .ok m by simp [State.admitted, hm], hc]
  rfl

/-- No mode, no meaning. -/
theorem exec_of_mode_error {i : Instr} {s : State} {r : RefusedMode} (hm : s.mode? = .error r) :
    exec i s = .refused (.mode r) := by
  rw [exec_eq, show s.admitted = .error (.refused (.mode r)) by simp [State.admitted, hm]]
  rfl

/-- A next state comes from an admitted mode, checks that passed, and the completion. -/
theorem exec_eq_next {i : Instr} {s t : State} (h : exec i s = .next t) :
    ∃ m, s.mode? = .ok m ∧ firstStop ((shape i).checks s) = .ok () ∧ (shape i).finish m s = .ok t := by
  cases hm : s.mode? with
  | error r => rw [exec_of_mode_error hm] at h; cases h
  | ok m =>
    cases hc : firstStop ((shape i).checks s) with
    | error x =>
      rw [exec_of_stop hm hc] at h
      cases x <;> cases h
    | ok _ =>
      rw [exec_of_checks hm hc] at h
      cases hf : (shape i).finish m s with
      | error x => rw [hf] at h; cases x <;> cases h
      | ok t' =>
        rw [hf] at h
        have ht : t' = t := by simpa [outcome] using h
        exact ⟨m, rfl, rfl, ht ▸ hf⟩

/-! ## Lengths -/

/-- The length that a shape's meaning adds to `rip`. -/
def Shape.len : Shape → Nat
  | .mm _ f => f.len
  | .xmm _ f => f.len
  | .vex _ _ f => f.len
  | .evex _ _ f => f.len

theorem LegacyForm.bytes_length (f : LegacyForm) (op : Byte) : (f.bytes op).length = f.len := by
  simp [LegacyForm.len, LegacyForm.bytes]

theorem VexForm.bytes_length (f : VexForm) (l : Bool) (op : Byte) : (f.bytes l op).length = f.len := by
  simp only [VexForm.len, VexForm.bytes]
  split <;> simp

theorem EvexForm.bytes_length (f : EvexForm) (ll : BitVec 2) (op : Byte) : (f.bytes ll op).length = f.len := by
  simp [EvexForm.len, EvexForm.bytes]

/-- The length a meaning uses is the length of the encoding (R81). -/
theorem len_eq_shape_len (i : Instr) : i.len = (shape i).len := by
  cases i with
  | punpcklbwMm f => exact LegacyForm.bytes_length f _
  | punpcklbwXmm f => exact LegacyForm.bytes_length f _
  | vpunpcklbwXmmVex f => exact VexForm.bytes_length f _ _
  | vpunpcklbwYmmVex f => exact VexForm.bytes_length f _ _
  | vpunpcklbwXmmEvex f => exact EvexForm.bytes_length f _ _
  | vpunpcklbwYmmEvex f => exact EvexForm.bytes_length f _ _
  | vpunpcklbwZmmEvex f => exact EvexForm.bytes_length f _ _
  | punpcklwdMm f => exact LegacyForm.bytes_length f _
  | punpcklwdXmm f => exact LegacyForm.bytes_length f _
  | vpunpcklwdXmmVex f => exact VexForm.bytes_length f _ _
  | vpunpcklwdYmmVex f => exact VexForm.bytes_length f _ _
  | vpunpcklwdXmmEvex f => exact EvexForm.bytes_length f _ _
  | vpunpcklwdYmmEvex f => exact EvexForm.bytes_length f _ _
  | vpunpcklwdZmmEvex f => exact EvexForm.bytes_length f _ _
  | punpckldqMm f => exact LegacyForm.bytes_length f _
  | punpckldqXmm f => exact LegacyForm.bytes_length f _
  | vpunpckldqXmmVex f => exact VexForm.bytes_length f _ _
  | vpunpckldqYmmVex f => exact VexForm.bytes_length f _ _
  | vpunpckldqXmmEvex f => exact EvexForm.bytes_length f _ _
  | vpunpckldqYmmEvex f => exact EvexForm.bytes_length f _ _
  | vpunpckldqZmmEvex f => exact EvexForm.bytes_length f _ _
  | punpcklqdqXmm f => exact LegacyForm.bytes_length f _
  | vpunpcklqdqXmmVex f => exact VexForm.bytes_length f _ _
  | vpunpcklqdqYmmVex f => exact VexForm.bytes_length f _ _
  | vpunpcklqdqXmmEvex f => exact EvexForm.bytes_length f _ _
  | vpunpcklqdqYmmEvex f => exact EvexForm.bytes_length f _ _
  | vpunpcklqdqZmmEvex f => exact EvexForm.bytes_length f _ _

/-! ## Checks -/

theorem not_contains_iff {ps : List Prefix} {p : Prefix} : ps.contains p = false ↔ p ∉ ps := by
  rw [Bool.eq_false_iff, ne_eq, List.contains_iff_mem]

/-- No bad byte before VEX or EVEX. -/
theorem badLead_false_iff (ps : List Prefix) (rex : Option Rex) :
    badLead ps rex = false ↔
      .lock ∉ ps ∧ .opSize ∉ ps ∧ .repne ∉ ps ∧ .rep ∉ ps ∧ rex = none := by
  simp only [badLead, Bool.or_eq_false_iff, not_contains_iff, Option.isSome_eq_false_iff, Option.isNone_iff_eq_none]
  tauto

theorem xcr0Avx_iff (s : State) : s.xcr0Avx = true ↔ s.xcr0.getLsbD 1 = true ∧ s.xcr0.getLsbD 2 = true := by
  rw [State.xcr0Avx, beq_iff_eq]
  constructor
  · intro h
    have h0 := congrArg (fun x => x.getLsbD 0) h
    have h1 := congrArg (fun x => x.getLsbD 1) h
    simpa using And.intro h0 h1
  · rintro ⟨h1, h2⟩
    apply BitVec.eq_of_getLsbD_eq
    intro p hp
    interval_cases p <;> simp_all

theorem xcr0Avx512_iff (s : State) :
    s.xcr0Avx512 = true ↔ s.xcr0.getLsbD 5 = true ∧ s.xcr0.getLsbD 6 = true ∧ s.xcr0.getLsbD 7 = true := by
  rw [State.xcr0Avx512, beq_iff_eq]
  constructor
  · intro h
    have h0 := congrArg (fun x => x.getLsbD 0) h
    have h1 := congrArg (fun x => x.getLsbD 1) h
    have h2 := congrArg (fun x => x.getLsbD 2) h
    simpa using And.intro h0 (And.intro h1 h2)
  · rintro ⟨h1, h2, h3⟩
    apply BitVec.eq_of_getLsbD_eq
    intro p hp
    interval_cases p <;> simp_all

/-- The checks pass exactly when the instruction is ready. -/
theorem checks_ok_iff (i : Instr) (s : State) : firstStop ((shape i).checks s) = .ok () ↔ Ready i s := by
  have hl := len_eq_shape_len i
  have key : ∀ h : Shape, firstStop (h.checks s) = .ok () ↔
      ¬ h.Refused ∧ h.len ≤ 15 ∧ (h.PrefixesOk ∧ h.ControlOk s ∧ h.FeaturesOk s ∧ h.BroadcastOk) ∧ s.ts = false
        ∧ h.X87Ok s := by
    intro h
    cases h with
    | mm esz f =>
      simp only [Shape.checks, State.mmCauses, firstStop_ok_iff, List.mem_cons, List.not_mem_nil, or_false,
        forall_eq_or_imp, forall_eq, tooLong, decide_eq_false_iff_not, not_lt, not_contains_iff, Bool.not_eq_false',
        Shape.Refused, Shape.len, Shape.PrefixesOk, Shape.ControlOk, Shape.FeaturesOk, Shape.BroadcastOk, Shape.X87Ok]
      tauto
    | xmm esz f =>
      simp only [Shape.checks, State.xmmCauses, firstStop_ok_iff, List.mem_cons, List.not_mem_nil, or_false,
        forall_eq_or_imp, forall_eq, tooLong, decide_eq_false_iff_not, not_lt, not_contains_iff, Bool.not_eq_false',
        Shape.Refused, Shape.len, Shape.PrefixesOk, Shape.ControlOk, Shape.FeaturesOk, Shape.BroadcastOk, Shape.X87Ok,
        Bool.or_eq_false_iff]
      tauto
    | vex esz vl f =>
      have hf : s.features.vex vl = true ↔
          (vl = 128 → s.features.avx = true) ∧ (vl ≠ 128 → s.features.avx2 = true) := by
        by_cases hv : vl = 128 <;> simp [Features.vex, hv]
      simp only [Shape.checks, State.vexCauses, firstStop_ok_iff, List.mem_cons, List.not_mem_nil, or_false,
        forall_eq_or_imp, forall_eq, tooLong, decide_eq_false_iff_not, not_lt, badLead_false_iff, Bool.not_eq_false',
        Shape.Refused, Shape.len, Shape.PrefixesOk, Shape.ControlOk, Shape.FeaturesOk, Shape.BroadcastOk, Shape.X87Ok,
        Bool.or_eq_false_iff, xcr0Avx_iff, hf]
      tauto
    | evex esz vl f =>
      have hf : s.features.evex esz vl = true ↔
          (esz < 32 → s.features.avx512bw = true) ∧ (32 ≤ esz → s.features.avx512f = true)
            ∧ (vl ≠ 512 → s.features.avx512vl = true) := by
        by_cases he : esz < 32 <;> by_cases hv : vl = 512 <;> simp [Features.evex, he, hv] <;> omega
      have hr : (decide (f.aaa = 0) && f.z) = false ∧ (decide (32 ≤ esz) && f.bc && !f.rm.isMem) = false ↔
          ¬ ((f.aaa = 0 ∧ f.z = true) ∨ (32 ≤ esz ∧ f.bc = true ∧ f.rm.isMem = false)) := by
        simp only [← Bool.not_eq_true, Bool.and_eq_true, decide_eq_true_eq, Bool.not_eq_true']
        tauto
      have hb : (decide (esz < 32) && f.bc) = false ↔ (esz < 32 → f.bc = false) := by
        by_cases he : esz < 32 <;> simp [he]
      simp only [Shape.checks, State.evexCauses, firstStop_ok_iff,
        List.mem_cons, List.not_mem_nil, or_false, forall_eq_or_imp, forall_eq, tooLong, decide_eq_false_iff_not,
        not_lt, badLead_false_iff, Bool.not_eq_false', Shape.Refused, Shape.len, Shape.PrefixesOk, Shape.ControlOk,
        Shape.FeaturesOk, Shape.BroadcastOk, Shape.X87Ok, Bool.or_eq_false_iff, xcr0Avx_iff, xcr0Avx512_iff, hf, hb]
      rw [← hr]
      constructor
      · rintro ⟨c1, c2, r1, r2, ⟨⟨c3, c4⟩, c5⟩, c6, c7, c8⟩
        exact ⟨⟨r1, r2⟩, c1, ⟨c2, ⟨c3, c4.1, c4.2, c5⟩, c6, c7⟩, c8, trivial⟩
      · rintro ⟨⟨r1, r2⟩, c1, ⟨c2, ⟨c3, c4, c4', c5⟩, c6, c7⟩, c8, -⟩
        exact ⟨c1, c2, r1, r2, ⟨⟨c3, c4, c4'⟩, c5⟩, c6, c7, c8⟩
  rw [key]
  constructor
  · rintro ⟨h1, h2, ⟨h3, h4, h5, h6⟩, h7, h8⟩
    exact ⟨h1, hl ▸ h2, ⟨h3, h4, h5, h6⟩, h7, h8⟩
  · rintro ⟨h1, h2, ⟨h3, h4, h5, h6⟩, h7, h8⟩
    exact ⟨h1, hl ▸ h2, ⟨h3, h4, h5, h6⟩, h7, h8⟩

/-- A ready instruction in an admitted mode: what is left is the completion. -/
theorem exec_of_ready {i : Instr} {s : State} {m : Mode} (hm : s.mode? = .ok m) (hr : Ready i s) :
    exec i s = outcome ((shape i).finish m s) :=
  exec_of_checks hm ((checks_ok_iff i s).mpr hr)

/-! ## Completion -/

/-- A completion keeps the frame of the instruction and falls through. -/
theorem finish_frame {i : Instr} {s t : State} {m : Mode} (h : (shape i).finish m s = .ok t) :
    Frame i s t ∧ t.rip = nextRip m s.rip i.len := by
  have base : ∀ (u : State) (n : Nat) (e : Option ReadEvent), Untouched s u → Untouched s (u.advance m n e) := by
    intro u n e hu
    constructor <;> simp [hu.g, hu.k, hu.rflags, hu.mxcsr, hu.cr0, hu.cr2, hu.cr4, hu.xcr0, hu.efer, hu.cpl, hu.smm,
      hu.segments, hu.features, hu.law, hu.x87Pending, hu.map, hu.memory]
  have hmm : ∀ f x e, MmFrame f.reg s (((s.setMm (f : LegacyForm).reg x).x87Any).advance m f.len e) := by
    intro f x e
    refine ⟨base _ _ _ (by constructor <;> simp), fun j hj => ?_, fun j => by simp⟩
    simp [State.setMm_mmAt_ne _ _ hj]
  have hv : ∀ (d : BitVec 5) (n : Nat) (x : VWord) (e : Option ReadEvent), VecFrame d s ((s.setV d x).advance m n e) := by
    intro d n x e
    refine ⟨base _ _ _ (by constructor <;> simp), fun j hj => ?_, fun j => by simp, by simp, by simp, by simp⟩
    simp [State.setV_vAt_ne _ _ hj]
  have hl := len_eq_shape_len i
  unfold Frame
  cases hsh : shape i with
  | mm esz f =>
    rw [hsh, Shape.finish] at h
    rw [hsh, Shape.len] at hl
    cases hs : s.mmSource m f with
    | error x => rw [hs] at h; cases h
    | ok b => rw [hs] at h; cases h; exact ⟨hmm f _ _, by simp [hl]⟩
  | xmm esz f =>
    rw [hsh, Shape.finish] at h
    rw [hsh, Shape.len] at hl
    cases hs : s.xmmSource m f with
    | error x => rw [hs] at h; cases h
    | ok b => rw [hs] at h; cases h; exact ⟨hv f.d _ _ _, by simp [hl, State.writeVec]⟩
  | vex esz vl f =>
    rw [hsh, Shape.finish] at h
    rw [hsh, Shape.len] at hl
    cases hs : s.vexSource m vl f with
    | error x => rw [hs] at h; cases h
    | ok b => rw [hs] at h; cases h; exact ⟨hv f.d _ _ _, by simp [hl, State.writeVec]⟩
  | evex esz vl f =>
    rw [hsh, Shape.finish] at h
    rw [hsh, Shape.len] at hl
    cases hs : s.evexSource m esz vl f with
    | error x => rw [hs] at h; cases h
    | ok b => rw [hs] at h; cases h; exact ⟨hv f.d _ _ _, by simp [hl, State.writeVec]⟩

/-- The read a shape makes of its memory operand `a`. -/
def Shape.operandRead (h : Shape) (m : Mode) (a : Addr) (s : State) : Except Stop (BitVec h.width) :=
  s.memRead m (h.segment m a) (h.ea m a s) h.width h.alignment

/-- A form with a memory operand stops where its read stops. -/
theorem finish_mem_error {h : Shape} {m : Mode} {s : State} {a : Addr} {x : Stop} (ha : h.rm = .mem a)
    (hx : h.operandRead m a s = .error x) : h.finish m s = .error x := by
  cases h with
  | mm esz f =>
    have hx' : s.readOperand m (legacyAddressing f) a 32 .mmx = .error x := hx
    have ha : f.rm = .mem a := ha
    simp only [Shape.finish, State.mmSource, ha, hx']
    rfl
  | xmm esz f =>
    have hx' : s.readOperand m (legacyAddressing f) a 128 .sse = .error x := hx
    have ha : f.rm = .mem a := ha
    simp only [Shape.finish, State.xmmSource, ha, hx']
    rfl
  | vex esz vl f =>
    have hx' : s.readOperand m (vexAddressing f) a vl .vector = .error x := hx
    have ha : f.rm = .mem a := ha
    simp only [Shape.finish, State.vexSource, ha, hx']
    rfl
  | evex esz vl f =>
    have ha : f.rm = .mem a := ha
    cases hb : f.bc with
    | true =>
      have hw : (Shape.evex esz vl f).width = esz := by simp [Shape.width, hb]
      have hx' : s.readOperand m (evexAddressing esz vl f) a esz .vector = .error x := by
        rw [Shape.operandRead, hw] at hx
        exact hx
      simp only [Shape.finish, State.evexSource, ha, hb, hx']
      rfl
    | false =>
      have hw : (Shape.evex esz vl f).width = vl := by simp [Shape.width, hb]
      have hx' : s.readOperand m (evexAddressing esz vl f) a vl .vector = .error x := by
        rw [Shape.operandRead, hw] at hx
        exact hx
      simp only [Shape.finish, State.evexSource, ha, hb, hx']
      rfl

/-- A form with a memory operand completes where its read answers. -/
theorem finish_mem_ok {h : Shape} {m : Mode} {s : State} {a : Addr} {b : BitVec h.width} (ha : h.rm = .mem a)
    (hb : h.operandRead m a s = .ok b) : ∃ t, h.finish m s = .ok t := by
  cases h with
  | mm esz f =>
    have hb' : s.readOperand m (legacyAddressing f) a 32 .mmx = .ok b := hb
    have ha : f.rm = .mem a := ha
    simp only [Shape.finish, State.mmSource, ha, hb']
    exact ⟨_, rfl⟩
  | xmm esz f =>
    have hb' : s.readOperand m (legacyAddressing f) a 128 .sse = .ok b := hb
    have ha : f.rm = .mem a := ha
    simp only [Shape.finish, State.xmmSource, ha, hb']
    exact ⟨_, rfl⟩
  | vex esz vl f =>
    have hb' : s.readOperand m (vexAddressing f) a vl .vector = .ok b := hb
    have ha : f.rm = .mem a := ha
    simp only [Shape.finish, State.vexSource, ha, hb']
    exact ⟨_, rfl⟩
  | evex esz vl f =>
    have ha : f.rm = .mem a := ha
    have hm := memRead_eq_ok hb
    cases hc : f.bc with
    | true =>
      have hw : (Shape.evex esz vl f).width = esz := by simp [Shape.width, hc]
      have hb' : s.readOperand m (evexAddressing esz vl f) a esz .vector =
          .ok (s.readBytes m ((Shape.evex esz vl f).la m a s) esz) := by
        rw [hm, Shape.operandRead, hw] at hb
        exact hb
      simp only [Shape.finish, State.evexSource, ha, hc, hb']
      exact ⟨_, rfl⟩
    | false =>
      have hw : (Shape.evex esz vl f).width = vl := by simp [Shape.width, hc]
      have hb' : s.readOperand m (evexAddressing esz vl f) a vl .vector =
          .ok (s.readBytes m ((Shape.evex esz vl f).la m a s) vl) := by
        rw [hm, Shape.operandRead, hw] at hb
        exact hb
      simp only [Shape.finish, State.evexSource, ha, hc, hb']
      exact ⟨_, rfl⟩

/-- A form with a register operand completes. -/
theorem finish_reg_ok {h : Shape} {m : Mode} {s : State} (hr : h.rm.isMem = false) : ∃ t, h.finish m s = .ok t := by
  cases h with
  | mm esz f =>
    cases hf : f.rm with
    | reg rm => exact ⟨_, by rw [Shape.finish, State.mmSource, hf]; rfl⟩
    | mem a => simp [Shape.rm, hf, Rm.isMem] at hr
  | xmm esz f =>
    cases hf : f.rm with
    | reg rm => exact ⟨_, by rw [Shape.finish, State.xmmSource, hf]; rfl⟩
    | mem a => simp [Shape.rm, hf, Rm.isMem] at hr
  | vex esz vl f =>
    cases hf : f.rm with
    | reg rm => exact ⟨_, by rw [Shape.finish, State.vexSource, hf]; rfl⟩
    | mem a => simp [Shape.rm, hf, Rm.isMem] at hr
  | evex esz vl f =>
    cases hf : f.rm with
    | reg rm => exact ⟨_, by rw [Shape.finish, State.evexSource, hf]; rfl⟩
    | mem a => simp [Shape.rm, hf, Rm.isMem] at hr

/-- A completion stops only where the read of its memory operand does. -/
theorem finish_eq_error {h : Shape} {m : Mode} {s : State} {x : Stop} (hf : h.finish m s = .error x) :
    ∃ a, h.rm = .mem a ∧ h.operandRead m a s = .error x := by
  cases hr : h.rm with
  | reg r =>
    obtain ⟨t, ht⟩ := finish_reg_ok (m := m) (s := s) (h := h) (by rw [hr]; rfl)
    rw [ht] at hf
    cases hf
  | mem a =>
    refine ⟨a, rfl, ?_⟩
    cases ho : h.operandRead m a s with
    | error y =>
      rw [finish_mem_error hr ho] at hf
      cases hf
      rfl
    | ok b =>
      obtain ⟨t, ht⟩ := finish_mem_ok hr ho
      rw [ht] at hf
      cases hf

/-- An exception is that of a check, or that of the completion of a ready instruction. -/
theorem exec_eq_fault {i : Instr} {s : State} {f : Fault} (h : exec i s = .fault f) :
    ∃ m, s.mode? = .ok m ∧ (firstStop ((shape i).checks s) = .error (.fault f)
      ∨ (Ready i s ∧ (shape i).finish m s = .error (.fault f))) := by
  cases hm : s.mode? with
  | error r =>
    rw [exec_of_mode_error hm] at h
    cases h
  | ok m =>
    refine ⟨m, rfl, ?_⟩
    cases hc : firstStop ((shape i).checks s) with
    | error x =>
      rw [exec_of_stop hm hc] at h
      cases x <;> simp only [outcome, Host.Outcome.fault.injEq, reduceCtorEq] at h
      exact .inl (by rw [h])
    | ok u =>
      refine .inr ⟨(checks_ok_iff i s).mp hc, ?_⟩
      rw [exec_of_checks hm hc] at h
      cases hf : (shape i).finish m s with
      | error x =>
        rw [hf] at h
        cases x <;> simp only [outcome, Host.Outcome.fault.injEq, reduceCtorEq] at h
        rw [h]
      | ok t =>
        rw [hf] at h
        cases h

/-! ## Vector lengths of the rows -/

/-- A VEX row has 128 or 256 bits (R80). -/
theorem shape_vex_vl {i : Instr} {esz vl : Nat} {f : VexForm} (h : shape i = .vex esz vl f) : vl = 128 ∨ vl = 256 := by
  cases i <;> simp only [shape, Shape.vex.injEq, reduceCtorEq] at h <;> obtain ⟨-, rfl, -⟩ := h <;> simp

/-- An EVEX row has 128, 256 or 512 bits (R80). -/
theorem shape_evex_vl {i : Instr} {esz vl : Nat} {f : EvexForm} (h : shape i = .evex esz vl f) :
    vl = 128 ∨ vl = 256 ∨ vl = 512 := by
  cases i <;> simp only [shape, Shape.evex.injEq, reduceCtorEq] at h <;> obtain ⟨-, rfl, -⟩ := h <;> simp

end Sys2Proof.Machine
end

