-- ==== Sys2Proof/Laws/PerInstr.lean ====
section
/-! SUPPORT. Statements made per instruction. Family `Size`: an instruction is its legacy prefixes and 3 to 12 bytes after
them; and that the fetch window therefore holds every instruction whose bytes stand at `rip`. -/

namespace Sys2Proof.Laws

/-- ModRM, SIB and displacement are 1 to 6 bytes (R81). -/
theorem rmBytes_length (reg : BitVec 3) (rm : Rm) : 1 ≤ (rmBytes reg rm).length ∧ (rmBytes reg rm).length ≤ 6 := by
  have hd : ∀ d : Disp, d.bytes.length ≤ 4 := by intro d; cases d <;> simp [Disp.bytes, le32]
  cases rm with
  | reg r => simp [rmBytes]
  | mem a =>
    cases a with
    | base r d => have := hd d; simp [rmBytes]; omega
    | disp32 d => simp [rmBytes, le32]
    | sib s i b d => have := hd d; simp [rmBytes]; omega
    | sibDisp32 s i d => simp [rmBytes, le32]

/-- `bytes` is the prefix bytes and 3 to 12 bytes more. -/
def PrefixesThen (ps : List Prefix) (bytes : List Byte) : Prop :=
  ∃ tail, bytes = ps.map Prefix.byte ++ tail ∧ 3 ≤ tail.length ∧ tail.length ≤ 12

/-- The prefixes, a REX or none, and 3 to 11 bytes more. -/
theorem prefixesThen_of_lead {ps : List Prefix} {rex : Option Rex} {tail : List Byte} (h3 : 3 ≤ tail.length)
    (h11 : tail.length ≤ 11) : PrefixesThen ps (leadBytes ps rex ++ tail) := by
  refine ⟨(rex.map Rex.byte).toList ++ tail, by simp [leadBytes], ?_⟩
  cases rex <;> simp <;> omega

/-- The bytes of a legacy form. -/
theorem legacy_size (op : Byte) (f : LegacyForm) : PrefixesThen f.prefixes (f.bytes op) := by
  have h := rmBytes_length f.reg f.rm
  exact prefixesThen_of_lead (by simp; omega) (by simp; omega)

/-- The bytes of a VEX form. -/
theorem vex_size (l : Bool) (op : Byte) (f : VexForm) : PrefixesThen f.prefixes (f.bytes l op) := by
  have h := rmBytes_length f.reg f.rm
  rw [VexForm.bytes, List.append_assoc]
  refine prefixesThen_of_lead ?_ ?_ <;> split <;> simp <;> omega

/-- The bytes of an EVEX form. -/
theorem evex_size (ll : BitVec 2) (op : Byte) (f : EvexForm) : PrefixesThen f.prefixes (f.bytes ll op) := by
  have h := rmBytes_length f.reg f.rm
  exact prefixesThen_of_lead (by simp) (by simp; omega)

/-- An instruction is its legacy prefixes and 3 to 12 bytes after them (R80, R81). -/
def Size.Statement (i : Instr) : Prop := PrefixesThen (Machine.shape i).prefixes (encode i)

theorem Size.punpcklbwMm (f : LegacyForm) : Size.Statement (.punpcklbwMm f) := legacy_size _ f

theorem Size.punpcklbwXmm (f : LegacyForm) : Size.Statement (.punpcklbwXmm f) := legacy_size _ f

theorem Size.vpunpcklbwXmmVex (f : VexForm) : Size.Statement (.vpunpcklbwXmmVex f) := vex_size _ _ f

theorem Size.vpunpcklbwYmmVex (f : VexForm) : Size.Statement (.vpunpcklbwYmmVex f) := vex_size _ _ f

theorem Size.vpunpcklbwXmmEvex (f : EvexForm) : Size.Statement (.vpunpcklbwXmmEvex f) := evex_size _ _ f

theorem Size.vpunpcklbwYmmEvex (f : EvexForm) : Size.Statement (.vpunpcklbwYmmEvex f) := evex_size _ _ f

theorem Size.vpunpcklbwZmmEvex (f : EvexForm) : Size.Statement (.vpunpcklbwZmmEvex f) := evex_size _ _ f

theorem Size.punpcklwdMm (f : LegacyForm) : Size.Statement (.punpcklwdMm f) := legacy_size _ f

theorem Size.punpcklwdXmm (f : LegacyForm) : Size.Statement (.punpcklwdXmm f) := legacy_size _ f

theorem Size.vpunpcklwdXmmVex (f : VexForm) : Size.Statement (.vpunpcklwdXmmVex f) := vex_size _ _ f

theorem Size.vpunpcklwdYmmVex (f : VexForm) : Size.Statement (.vpunpcklwdYmmVex f) := vex_size _ _ f

theorem Size.vpunpcklwdXmmEvex (f : EvexForm) : Size.Statement (.vpunpcklwdXmmEvex f) := evex_size _ _ f

theorem Size.vpunpcklwdYmmEvex (f : EvexForm) : Size.Statement (.vpunpcklwdYmmEvex f) := evex_size _ _ f

theorem Size.vpunpcklwdZmmEvex (f : EvexForm) : Size.Statement (.vpunpcklwdZmmEvex f) := evex_size _ _ f

theorem Size.punpckldqMm (f : LegacyForm) : Size.Statement (.punpckldqMm f) := legacy_size _ f

theorem Size.punpckldqXmm (f : LegacyForm) : Size.Statement (.punpckldqXmm f) := legacy_size _ f

theorem Size.vpunpckldqXmmVex (f : VexForm) : Size.Statement (.vpunpckldqXmmVex f) := vex_size _ _ f

theorem Size.vpunpckldqYmmVex (f : VexForm) : Size.Statement (.vpunpckldqYmmVex f) := vex_size _ _ f

theorem Size.vpunpckldqXmmEvex (f : EvexForm) : Size.Statement (.vpunpckldqXmmEvex f) := evex_size _ _ f

theorem Size.vpunpckldqYmmEvex (f : EvexForm) : Size.Statement (.vpunpckldqYmmEvex f) := evex_size _ _ f

theorem Size.vpunpckldqZmmEvex (f : EvexForm) : Size.Statement (.vpunpckldqZmmEvex f) := evex_size _ _ f

theorem Size.punpcklqdqXmm (f : LegacyForm) : Size.Statement (.punpcklqdqXmm f) := legacy_size _ f

theorem Size.vpunpcklqdqXmmVex (f : VexForm) : Size.Statement (.vpunpcklqdqXmmVex f) := vex_size _ _ f

theorem Size.vpunpcklqdqYmmVex (f : VexForm) : Size.Statement (.vpunpcklqdqYmmVex f) := vex_size _ _ f

theorem Size.vpunpcklqdqXmmEvex (f : EvexForm) : Size.Statement (.vpunpcklqdqXmmEvex f) := evex_size _ _ f

theorem Size.vpunpcklqdqYmmEvex (f : EvexForm) : Size.Statement (.vpunpcklqdqYmmEvex f) := evex_size _ _ f

theorem Size.vpunpcklqdqZmmEvex (f : EvexForm) : Size.Statement (.vpunpcklqdqZmmEvex f) := evex_size _ _ f

/-- Every instruction, by its own lemma. -/
theorem encode_prefixesThen (i : Instr) : PrefixesThen (Machine.shape i).prefixes (encode i) := by
  cases i with
  | punpcklbwMm f => exact Size.punpcklbwMm f
  | punpcklbwXmm f => exact Size.punpcklbwXmm f
  | vpunpcklbwXmmVex f => exact Size.vpunpcklbwXmmVex f
  | vpunpcklbwYmmVex f => exact Size.vpunpcklbwYmmVex f
  | vpunpcklbwXmmEvex f => exact Size.vpunpcklbwXmmEvex f
  | vpunpcklbwYmmEvex f => exact Size.vpunpcklbwYmmEvex f
  | vpunpcklbwZmmEvex f => exact Size.vpunpcklbwZmmEvex f
  | punpcklwdMm f => exact Size.punpcklwdMm f
  | punpcklwdXmm f => exact Size.punpcklwdXmm f
  | vpunpcklwdXmmVex f => exact Size.vpunpcklwdXmmVex f
  | vpunpcklwdYmmVex f => exact Size.vpunpcklwdYmmVex f
  | vpunpcklwdXmmEvex f => exact Size.vpunpcklwdXmmEvex f
  | vpunpcklwdYmmEvex f => exact Size.vpunpcklwdYmmEvex f
  | vpunpcklwdZmmEvex f => exact Size.vpunpcklwdZmmEvex f
  | punpckldqMm f => exact Size.punpckldqMm f
  | punpckldqXmm f => exact Size.punpckldqXmm f
  | vpunpckldqXmmVex f => exact Size.vpunpckldqXmmVex f
  | vpunpckldqYmmVex f => exact Size.vpunpckldqYmmVex f
  | vpunpckldqXmmEvex f => exact Size.vpunpckldqXmmEvex f
  | vpunpckldqYmmEvex f => exact Size.vpunpckldqYmmEvex f
  | vpunpckldqZmmEvex f => exact Size.vpunpckldqZmmEvex f
  | punpcklqdqXmm f => exact Size.punpcklqdqXmm f
  | vpunpcklqdqXmmVex f => exact Size.vpunpcklqdqXmmVex f
  | vpunpcklqdqYmmVex f => exact Size.vpunpcklqdqYmmVex f
  | vpunpcklqdqXmmEvex f => exact Size.vpunpcklqdqXmmEvex f
  | vpunpcklqdqYmmEvex f => exact Size.vpunpcklqdqYmmEvex f
  | vpunpcklqdqZmmEvex f => exact Size.vpunpcklqdqZmmEvex f

end Sys2Proof.Laws
end

