-- ==== Sys2Proof/Laws/Fetch.lean ====
section
/-! SUPPORT. What fetching answers: the bytes that stand at `rip`, as far as they can be fetched; every instruction whose bytes
stand there is in the window. -/

namespace Sys2Proof.Machine

/-- Fetching reads the fetchable bytes that stand at `rip`, then whatever follows. -/
theorem fetchFrom_of_bytes (s : State) (m : Mode) (bs : List Byte) (n k : Nat) (hn : bs.length ≤ n)
    (h : ∀ j, ∀ hj : j < bs.length,
      s.fetchable m (k + j) = true ∧ s.mem.read (s.fetchAddr m (k + j)).toNat = bs[j]) :
    ∃ rest, s.fetchFrom m n k = bs ++ rest := by
  induction bs generalizing n k with
  | nil => exact ⟨_, rfl⟩
  | cons b bs ih =>
    cases n with
    | zero => simp at hn
    | succ n =>
      obtain ⟨hf, hb⟩ := h 0 (by simp)
      obtain ⟨rest, hr⟩ := ih n (k + 1) (by simpa using hn) fun j hj => by
        have := h (j + 1) (by simpa using hj)
        simpa [Nat.add_assoc, Nat.add_comm 1 j] using this
      refine ⟨rest, ?_⟩
      simp only [Nat.add_zero] at hf hb
      simp [State.fetchFrom, hf, hb, hr]

/-- Memory lists every address that does not read as an unlisted one. -/
theorem Memory.mem_of_read_ne {m : Memory} {a : Nat} (h : m.read a ≠ unlistedByte) : a ∈ m.map Prod.fst := by
  induction m with
  | nil => exact absurd rfl h
  | cons c cs ih =>
    rw [Memory.read] at h
    split at h
    · next hc => simp [← hc]
    · exact List.mem_cons_of_mem _ (ih h)

/-- A run of fetchable bytes never comes round to an address again: it would leave the code segment, or cross the
non-canonical addresses, before. -/
theorem fetchAddr_injective {s : State} {m : Mode} {n : Nat} (h : ∀ k < n, s.fetchable m k = true) {j k : Nat}
    (hj : j < n) (hk : k < n) (he : (s.fetchAddr m j).toNat = (s.fetchAddr m k).toNat) : j = k := by
  have inside : ∀ k < n, s.ripInside m (s.rip + BitVec.ofNat 64 k) = true := fun k hk => by
    have := h k hk
    rw [State.fetchable, Bool.and_eq_true] at this
    exact this.1
  cases m with
  | long64 =>
    have hn : n ≤ 2 ^ 64 := by
      by_contra hn
      have hi := inside ((2 ^ 63 + (2 ^ 64 - s.rip.toNat)) % 2 ^ 64) (by omega)
      have hr : s.rip + BitVec.ofNat 64 ((2 ^ 63 + (2 ^ 64 - s.rip.toNat)) % 2 ^ 64) = BitVec.ofNat 64 (2 ^ 63) := by
        apply BitVec.eq_of_toNat_eq
        have := s.rip.isLt
        simp only [BitVec.toNat_add, BitVec.toNat_ofNat]
        omega
      rw [hr] at hi
      simp only [State.ripInside] at hi
      cases hl : s.law <;> rw [hl] at hi <;> revert hi <;> decide
    simp only [State.fetchAddr, BitVec.toNat_add, BitVec.toNat_ofNat] at he
    have := s.rip.isLt
    omega
  | prot32 =>
    have hl := s.cs.limit.isLt
    have hn : n ≤ 2 ^ 32 := by
      by_contra hn
      have h0 := inside 0 (by omega)
      simp only [State.ripInside, decide_eq_true_eq, BitVec.toNat_add, BitVec.toNat_ofNat] at h0
      have h1 := inside (2 ^ 32 - s.rip.toNat) (by omega)
      simp only [State.ripInside, decide_eq_true_eq, BitVec.toNat_add, BitVec.toNat_ofNat] at h1
      omega
    simp only [State.fetchAddr, BitVec.toNat_setWidth, BitVec.toNat_add, BitVec.toNat_ofNat] at he
    omega

/-- A fetchable run of bytes that no unlisted address reads as is no longer than memory. -/
theorem length_le_mem {s : State} {m : Mode} {n : Nat}
    (h : ∀ k < n, s.fetchable m k = true ∧ s.mem.read (s.fetchAddr m k).toNat ≠ unlistedByte) : n ≤ s.mem.length := by
  have hd : ((List.range n).map fun k => (s.fetchAddr m k).toNat).Nodup :=
    List.Nodup.map_on (fun j hj k hk he =>
      fetchAddr_injective (fun k hk => (h k hk).1) (List.mem_range.mp hj) (List.mem_range.mp hk) he) List.nodup_range
  have hs : ((List.range n).map fun k => (s.fetchAddr m k).toNat) ⊆ s.mem.map Prod.fst := by
    intro a ha
    obtain ⟨k, hk, rfl⟩ := List.mem_map.mp ha
    exact Memory.mem_of_read_ne (h k (List.mem_range.mp hk)).2
  simpa using (hd.subperm hs).length_le

/-- No prefix byte is what an unlisted address reads as. -/
theorem prefix_byte_ne (p : Prefix) : p.byte ≠ unlistedByte := by
  cases p with
  | seg n => cases n <;> decide
  | _ => decide

/-- The window holds every instruction whose bytes stand, fetchable, at `rip`. -/
theorem fetchBytes_of_bytes {s : State} {m : Mode} {i : Instr}
    (h : ∀ k, ∀ hk : k < (encode i).length,
      s.fetchable m k = true ∧ s.mem.read (s.fetchAddr m k).toNat = (encode i)[k]) :
    ∃ rest, s.fetchBytes m = encode i ++ rest := by
  obtain ⟨tail, he, -, h12⟩ := Laws.encode_prefixesThen i
  have hlen := congrArg List.length he
  rw [List.length_append, List.length_map] at hlen
  have hp : (shape i).prefixes.length ≤ s.mem.length := length_le_mem (m := m) fun k hk => by
    obtain ⟨hf, hb⟩ := h k (by omega)
    refine ⟨hf, ?_⟩
    rw [hb, List.getElem_of_eq he, List.getElem_append_left (by simpa using hk), List.getElem_map]
    exact prefix_byte_ne _
  exact fetchFrom_of_bytes s m (encode i) s.fetchWindow 0 (by rw [State.fetchWindow]; omega) (by simpa using h)

/-- A step that completes ran an instruction of the current mode, and its next instruction pointer is inside the code
segment. -/
theorem step_eq_next {s t : State} (h : step s = .next t) :
    ∃ m i, s.mode? = .ok m ∧ s.current = .ok i ∧ s.ripInside m (nextRip m s.rip i.len) = true ∧ exec i s = .next t := by
  unfold step at h
  cases hc : s.current with
  | error x => rw [hc] at h; cases x <;> cases h
  | ok i =>
    rw [hc] at h
    have hc' := hc
    unfold State.current State.launched State.admitted at hc'
    cases hm : s.mode? with
    | error r => rw [hm] at hc'; cases hc'
    | ok m =>
      rw [hm] at hc'
      cases htf : s.tf with
      | true => simp only [htf] at hc'; cases hc'
      | false =>
        simp only [htf] at hc'
        have hf : s.fetchInstr m = .ok i := hc'
        unfold State.fetchInstr at hf
        split at hf
        · cases hf
        · split at hf
          · next hr => cases hf; exact ⟨m, i, rfl, rfl, hr, h⟩
          · cases hf

end Sys2Proof.Machine
end

