-- ==== Sys2Proof/Laws/Memory.lean ====
section
/-! SUPPORT. The laws of memory: a read after a write, and every memory operation keeps the canonical form `Memory.wf`. -/

namespace Sys2Proof.Machine

/-- The canonical form of a non-empty memory: its first entry, what bounds it, and the canonical form of the rest. -/
theorem Memory.wf_cons (c : Host.Cell) (m : Memory) :
    Memory.wf (c :: m) = true ↔
      c.1 < 2 ^ 64 ∧ c.2 ≠ unlistedByte ∧ (∀ d ∈ m, c.1 < d.1) ∧ Memory.wf m = true := by
  induction m generalizing c with
  | nil => simp [Memory.wf]
  | cons d rest ih =>
    simp only [Memory.wf, Bool.and_eq_true, decide_eq_true_eq, bne_iff_ne, ih d, List.mem_cons, forall_eq_or_imp]
    constructor
    · rintro ⟨⟨h1, h2⟩, h3, h4, h5, h6⟩
      exact ⟨by omega, h2, ⟨h1, fun e he => Nat.lt_trans h1 (h5 e he)⟩, h3, h4, h5, h6⟩
    · rintro ⟨_, h2, ⟨h1, _⟩, h3, h4, h5, h6⟩
      exact ⟨⟨h1, h2⟩, h3, h4, h5, h6⟩

/-- An address below every listed one reads as the unlisted byte. -/
theorem Memory.read_below {m : Memory} {a : Nat} (h : ∀ d ∈ m, a < d.1) : m.read a = unlistedByte := by
  induction m with
  | nil => rfl
  | cons c cs ih =>
    have hc : c.1 ≠ a := by have := h c (by simp); omega
    simp only [Memory.read, if_neg hc]
    exact ih fun d hd => h d (by simp [hd])

/-- A read after a write: the written byte at its address, every other byte as before. -/
theorem Memory.read_write {m : Memory} (hm : m.wf = true) (a : Nat) (b : Byte) (x : Nat) :
    (m.write a b).read x = if x = a then b else m.read x := by
  induction m with
  | nil =>
    by_cases hb : b = unlistedByte
    · simp [Memory.write, Memory.read, hb]
    · simp [Memory.write, Memory.read, hb, eq_comm]
  | cons c cs ih =>
    obtain ⟨_, _, hlt, hcs⟩ := (Memory.wf_cons c cs).mp hm
    by_cases h1 : c.1 < a
    · simp only [Memory.write, if_pos h1, Memory.read, ih hcs]
      by_cases hx : c.1 = x
      · have : x ≠ a := by omega
        simp [hx, this]
      · simp [hx]
    · by_cases h2 : c.1 = a
      · subst h2
        by_cases hb : b = unlistedByte
        · by_cases hx : x = c.1
          · subst hx
            simp [Memory.write, hb, Memory.read_below hlt]
          · simp [Memory.write, hb, Memory.read, hx, Ne.symm hx]
        · by_cases hx : x = c.1
          · simp [Memory.write, hb, Memory.read, hx]
          · simp [Memory.write, hb, Memory.read, hx, Ne.symm hx]
      · have h3 : ∀ d ∈ c :: cs, a < d.1 := by
          intro d hd
          rcases List.mem_cons.mp hd with rfl | hd
          · omega
          · have := hlt d hd; omega
        by_cases hb : b = unlistedByte
        · simp only [Memory.write, if_neg h1, if_neg h2, if_pos hb]
          by_cases hx : x = a
          · rw [if_pos hx, hx, hb, Memory.read_below h3]
          · simp [hx]
        · simp only [Memory.write, if_neg h1, if_neg h2, if_neg hb]
          by_cases hx : x = a
          · simp [Memory.read, hx]
          · rw [Memory.read, if_neg (Ne.symm hx), if_neg hx]

/-- What a write can list: the written address and the addresses listed before. -/
theorem Memory.mem_write {m : Memory} {a : Nat} {b : Byte} {d : Host.Cell} (h : d ∈ m.write a b) :
    d.1 = a ∨ d ∈ m := by
  induction m with
  | nil =>
    by_cases hb : b = unlistedByte
    · simp [Memory.write, hb] at h
    · simp [Memory.write, hb] at h; exact .inl (by rw [h])
  | cons c cs ih =>
    by_cases h1 : c.1 < a
    · simp only [Memory.write, if_pos h1, List.mem_cons] at h
      rcases h with rfl | h
      · simp
      · rcases ih h with h | h <;> simp [h]
    · by_cases h2 : c.1 = a
      · simp only [Memory.write, if_neg h1, if_pos h2] at h
        by_cases hb : b = unlistedByte
        · rw [if_pos hb] at h; simp [h]
        · rw [if_neg hb] at h
          rcases List.mem_cons.mp h with rfl | h <;> simp_all
      · simp only [Memory.write, if_neg h1, if_neg h2] at h
        by_cases hb : b = unlistedByte
        · rw [if_pos hb] at h; exact .inr h
        · rw [if_neg hb] at h
          rcases List.mem_cons.mp h with rfl | h
          · simp
          · exact .inr h

/-- A write keeps the canonical form. -/
theorem Memory.wf_write {m : Memory} (hm : m.wf = true) {a : Nat} (ha : a < 2 ^ 64) (b : Byte) :
    (m.write a b).wf = true := by
  induction m with
  | nil =>
    by_cases hb : b = unlistedByte
    · simp [Memory.write, hb, Memory.wf]
    · simp only [Memory.write, if_neg hb, Memory.wf_cons]
      exact ⟨ha, hb, by simp, rfl⟩
  | cons c cs ih =>
    obtain ⟨hc, hv, hlt, hcs⟩ := (Memory.wf_cons c cs).mp hm
    by_cases h1 : c.1 < a
    · simp only [Memory.write, if_pos h1, Memory.wf_cons]
      refine ⟨hc, hv, fun d hd => ?_, ih hcs⟩
      rcases Memory.mem_write hd with h | h
      · omega
      · exact hlt d h
    · by_cases h2 : c.1 = a
      · simp only [Memory.write, if_neg h1, if_pos h2]
        by_cases hb : b = unlistedByte
        · rw [if_pos hb]; exact hcs
        · rw [if_neg hb, Memory.wf_cons]
          exact ⟨ha, hb, fun d hd => h2 ▸ hlt d hd, hcs⟩
      · simp only [Memory.write, if_neg h1, if_neg h2]
        by_cases hb : b = unlistedByte
        · rw [if_pos hb]; exact hm
        · rw [if_neg hb, Memory.wf_cons]
          refine ⟨ha, hb, fun d hd => ?_, hm⟩
          have h3 : a < c.1 := by omega
          rcases List.mem_cons.mp hd with rfl | hd
          · exact h3
          · exact Nat.lt_trans h3 (hlt d hd)

/-- Loading a program keeps the canonical form. -/
theorem State.loadFrom_wf (m : Mode) (bs : List Byte) (s : State) (k : Nat) (h : s.mem.wf = true) :
    (s.loadFrom m k bs).mem.wf = true := by
  induction bs generalizing s k with
  | nil => exact h
  | cons b bs ih => exact ih _ _ (Memory.wf_write h (BitVec.isLt _) b)

/-- The reset memory is in canonical form. -/
theorem reset_memory_wf : State.reset.mem.wf = true := rfl

/-- The launched memory is the memory of before. -/
@[simp] theorem State.standardLaunch_mem (s : State) : s.standardLaunch.mem = s.mem := rfl

/-- Loading a program where the next step fetches keeps the canonical form. -/
theorem State.loadAtRip_wf (s : State) (bs : List Byte) (h : s.mem.wf = true) : (s.loadAtRip bs).mem.wf = true := by
  apply State.loadFrom_wf
  unfold State.loadTarget
  split
  · split
    · exact h
    · exact h
  · exact h

end Sys2Proof.Machine
end

