-- ==== Sys2Proof/Tests/Slice0.lean ====
section
/-! SUPPORT. The model's own tests: the smoke test of WellFormed, a decoded word per constructor, one-step tests on the
vectors of 95_test_vectors.md (`T<n>`), and for each statement with hypotheses a concrete case that meets them. -/

namespace Sys2Proof.Tests

open Sys2Proof.Machine

set_option maxRecDepth 20000
set_option exponentiation.threshold 600

/-! ## Helpers -/

/-- `IOTA(64)`, `HI(64)` and `EE(64)` of 95_test_vectors.md. -/
def iota : VWord := ofElems 8 512 fun k => BitVec.ofNat 8 k

def hi : VWord := ofElems 8 512 fun k => BitVec.ofNat 8 (0x80 + k)

def ee : VWord := ofElems 8 512 fun _ => 0xEE

/-- `n` bytes counting up from `b`. -/
def count (b n : Nat) : List Byte := (List.range n).map fun k => BitVec.ofNat 8 (b + k)

/-- The state with the bytes stored from linear address `a` on. -/
def put (a : Nat) (bs : List Byte) (s : State) : State :=
  { s with mem := bs.zipIdx.foldl (fun m c => m.write (a + c.2) c.1) s.mem }

def setG (i : Fin 16) (x : QWord) (s : State) : State := { s with g := s.g.set i x }

def setK (i : Fin 8) (x : QWord) (s : State) : State := { s with k := s.k.set i x }

/-- The standard launch, from reset. -/
def start : State := State.reset.standardLaunch

/-- A view of the state after one step at bytes loaded where the step fetches. -/
def after {α : Type} (bs : List Byte) (f : State → α) (s : State) : Option α :=
  match step (s.loadAtRip bs) with
  | .next t => some (f t)
  | .fault _ => none
  | .refused _ => none

/-- The outcome is a next state. -/
def isNext : Host.Outcome State Fault Refusal → Bool
  | .next _ => true
  | .fault _ => false
  | .refused _ => false

/-- The exception of an outcome. -/
def faultOf : Host.Outcome State Fault Refusal → Option Fault
  | .next _ => none
  | .fault f => some f
  | .refused _ => none

/-- The refusal of an outcome. -/
def refusalOf : Host.Outcome State Fault Refusal → Option Refusal
  | .next _ => none
  | .fault _ => none
  | .refused r => some r

/-- A flat `Prot32` state at privilege level 3: every segment has base 0 and limit FFFFFFFFH. -/
def prot : State :=
  let seg : SegReg :=
    { selector := 0x2B, base := 0, limit := 0xFFFFFFFF, readable := true, expandDown := false, long := false, big := true }
  { start with efer := 0, cs := seg, ss := seg, ds := seg, es := seg, fs := seg, gs := seg }

/-- The standard launch with RAX = 2000H and the bytes 80H, 81H, … BFH there. -/
def wide : State := put 0x2000 (count 0x80 64) (setG 0 0x2000 start)

/-- The same, in `Prot32`. -/
def wide32 : State := put 0x2000 (count 0x80 64) (setG 0 0x2000 prot)

/-- The oracle denies every address from `a` on. -/
def denyFrom (a : Nat) (s : State) : State :=
  { s with map := [⟨a, 2 ^ 64, none, .denied ⟨false, false, false, 0⟩⟩] }

/-- The state with alignment checking on and RAX = `x`. -/
def checking (x : QWord) : State := { setG 0 x start with cr0 := start.cr0 ||| 0x40000, rflags := 0x40202 }

/-- ModRM:r/m `[rax]`. -/
def atRax : Rm := .mem (.base 0 .none)

/-- `mm7` and `mm7, [rax]`. -/
def mmReg : LegacyForm := ⟨[], none, 7, .reg 7⟩

def mmMem : LegacyForm := ⟨[], none, 7, atRax⟩

/-- `xmm15, xmm15` and `xmm15, [rax]`. -/
def xmmReg : LegacyForm := ⟨[.opSize], some ⟨false, true, false, true⟩, 7, .reg 7⟩

def xmmMem : LegacyForm := ⟨[.opSize], some ⟨false, true, false, false⟩, 7, atRax⟩

/-- `v15, v15, v15` and `v15, v15, [rax]`. -/
def vexReg : VexForm := ⟨[], none, false, true, false, true, false, 15, 7, .reg 7⟩

def vexMem : VexForm := ⟨[], none, true, true, false, false, false, 15, 7, atRax⟩

/-- `v31 (k7)(z), v31, v31`, with a full memory operand, and with a broadcast one. -/
def evexReg (w : Bool) : EvexForm := ⟨[], none, true, true, true, true, w, 15, true, false, true, 7, 7, .reg 7⟩

def evexMem (w : Bool) : EvexForm := ⟨[], none, true, false, false, true, w, 15, true, false, true, 7, 7, atRax⟩

def evexBc (w : Bool) : EvexForm := ⟨[], none, true, false, false, true, w, 15, true, true, true, 7, 7, atRax⟩

/-- The instruction meets every hypothesis of its completion statement in a state of `Long64`. -/
def Meets (i : Instr) (s : State) : Prop := s.mode? = .ok .long64 ∧ Ready i s ∧ OperandOk i .long64 s

/-- The same with the memory operand `[rax]` = linear address 2000H, data segment. -/
def MeetsAt (i : Instr) : Prop :=
  Meets i wide ∧ (shape i).rm = atRax ∧ (shape i).la .long64 (.base 0 .none) wide = 0x2000

theorem ready_of_checks {i : Instr} {s : State} (h : firstStop ((shape i).checks s) = .ok ()) : Ready i s :=
  (checks_ok_iff i s).1 h

theorem meets_register {i : Instr} {s : State} {rm : BitVec 3} (hrm : (shape i).rm = .reg rm)
    (hm : s.mode? = .ok .long64) (h : firstStop ((shape i).checks s) = .ok ()) : Meets i s :=
  ⟨hm, ready_of_checks h, fun a ha => by simp [hrm] at ha⟩

theorem wide_canonical : ∀ k < 64, canonical wide.law (byteAddr .long64 (wide.linear .long64 .ds 0x2000) k) = true := by
  decide

theorem meets_memory {i : Instr} (hrm : (shape i).rm = atRax) (h : firstStop ((shape i).checks wide) = .ok ())
    (hea : (shape i).ea .long64 (.base 0 .none) wide = 0x2000)
    (hseg : (shape i).segment .long64 (.base 0 .none) = .ds) (hw : (shape i).width / 8 ≤ 64) : MeetsAt i := by
  have hla : (shape i).la .long64 (.base 0 .none) wide = 0x2000 := by
    show wide.linear .long64 ((shape i).segment .long64 (.base 0 .none)) ((shape i).ea .long64 (.base 0 .none) wide) = _
    rw [hseg, hea]; rfl
  refine ⟨⟨rfl, ready_of_checks h, fun a ha => ?_⟩, hrm, hla⟩
  obtain rfl : Addr.base 0 .none = a := Rm.mem.inj (hrm.symm.trans ha)
  refine ⟨?_, fun k _ => Or.inl rfl, ?_⟩
  · rw [hea, hseg]; exact fun k hk => wide_canonical k (by omega)
  · rw [hla]
    cases (shape i).alignment
    · exact fun _ => rfl
    · exact rfl
    · exact fun h => absurd h (by decide)

/-- The operand `[rax]` of an instruction is reached: everything before the checks of its bytes passes. -/
def Reaches (i : Instr) (s : State) : Prop :=
  s.mode? = .ok .long64 ∧ Ready i s ∧ (shape i).rm = atRax
    ∧ SegmentOk s .long64 ((shape i).segment .long64 (.base 0 .none)) ((shape i).ea .long64 (.base 0 .none) s) ((shape i).width / 8)

/-- The operand is reached, at 2000H, and byte `k` is the lowest one denied. -/
def FirstDenied (i : Instr) (s : State) (k : Nat) : Prop :=
  Reaches i s ∧ (shape i).la .long64 (.base 0 .none) s = 0x2000
    ∧ (∀ j < (shape i).width / 8, s.kindAt (byteAddr .long64 0x2000 j).toNat ≠ .sideEffects)
    ∧ (∀ j < k, s.kindAt (byteAddr .long64 0x2000 j).toNat = .ordinary)
    ∧ s.kindAt (byteAddr .long64 0x2000 k).toNat = .denied ⟨false, false, false, 0⟩

/-- The hypotheses of the statement on segment checks, for an operand `a` in segment `n`. -/
def SegmentFails (i : Instr) (m : Mode) (s : State) (a : Addr) (n : SegName) : Prop :=
  s.mode? = .ok m ∧ Ready i s ∧ (shape i).rm = .mem a ∧ (shape i).segment m a = n
    ∧ (m = .prot32 → (s.segReg ((shape i).segment m a)).expandDown = false)
    ∧ ¬ SegmentOk s m ((shape i).segment m a) ((shape i).ea m a s) ((shape i).width / 8)

/-! ## WellFormed refuses (one ill-formed term per check) -/

theorem smoke_two_overrides : Instr.wf .long64 (.punpcklbwMm ⟨[.seg .ds, .seg .fs], none, 0, .reg 0⟩) = false := by decide

theorem smoke_addr16 : Instr.wf .prot32 (.punpcklbwMm ⟨[.addrSize], none, 0, atRax⟩) = false := by decide

theorem smoke_rex_prot32 : Instr.wf .prot32 (.punpcklbwMm ⟨[], some ⟨false, false, false, false⟩, 0, .reg 0⟩) = false := by
  decide

theorem smoke_repne : Instr.wf .long64 (.punpcklbwMm ⟨[.repne], none, 0, .reg 0⟩) = false := by decide

theorem smoke_rep : Instr.wf .long64 (.punpcklbwXmm ⟨[.opSize, .rep], none, 0, .reg 0⟩) = false := by decide

theorem smoke_mm_with_66 : Instr.wf .long64 (.punpcklbwMm ⟨[.opSize], none, 0, .reg 0⟩) = false := by decide

theorem smoke_xmm_without_66 : Instr.wf .long64 (.punpcklqdqXmm ⟨[], none, 0, .reg 0⟩) = false := by decide

theorem smoke_short_vex_x :
    Instr.wf .long64 (.vpunpcklbwXmmVex ⟨[], none, true, false, true, false, false, 0, 0, .reg 0⟩) = false := by decide

theorem smoke_short_vex_b :
    Instr.wf .long64 (.vpunpcklbwXmmVex ⟨[], none, true, false, false, true, false, 0, 0, .reg 0⟩) = false := by decide

theorem smoke_short_vex_w :
    Instr.wf .long64 (.vpunpcklbwXmmVex ⟨[], none, true, false, false, false, true, 0, 0, .reg 0⟩) = false := by decide

theorem smoke_vex_r_prot32 :
    Instr.wf .prot32 (.vpunpcklbwXmmVex ⟨[], none, false, true, false, false, false, 0, 0, .reg 0⟩) = false := by decide

theorem smoke_vex_x_prot32 :
    Instr.wf .prot32 (.vpunpcklbwXmmVex ⟨[], none, false, false, true, false, false, 0, 0, .reg 0⟩) = false := by decide

theorem smoke_vex_b_prot32 :
    Instr.wf .prot32 (.vpunpcklbwXmmVex ⟨[], none, false, false, false, true, false, 0, 0, .reg 0⟩) = false := by decide

theorem smoke_vex_v_prot32 :
    Instr.wf .prot32 (.vpunpcklbwXmmVex ⟨[], none, false, false, false, false, false, 8, 0, .reg 0⟩) = false := by decide

theorem smoke_evex_w0_qdq :
    Instr.wf .long64 (.vpunpcklqdqZmmEvex
      ⟨[], none, false, false, false, false, false, 0, false, false, false, 0, 0, .reg 0⟩) = false := by decide

theorem smoke_evex_w1_dq :
    Instr.wf .long64 (.vpunpckldqZmmEvex
      ⟨[], none, false, false, false, false, true, 0, false, false, false, 0, 0, .reg 0⟩) = false := by decide

/-- Each of R, X, B, R', V' and `vvvv` ≥ 8 alone is refused in `Prot32`. -/
theorem smoke_evex_extension_prot32 :
    ∀ k < 6, Instr.wf .prot32 (.vpunpcklbwZmmEvex
      ⟨[], none, k = 0, k = 1, k = 2, k = 3, false, if k = 4 then 8 else 0, false, false, k = 5, 0, 0, .reg 0⟩) = false := by
  decide

theorem smoke_base_is_sib : Instr.wf .long64 (.punpcklbwMm ⟨[], none, 0, .mem (.base 4 .none)⟩) = false := by decide

theorem smoke_base_is_rip : Instr.wf .long64 (.punpcklbwMm ⟨[], none, 0, .mem (.base 5 .none)⟩) = false := by decide

theorem smoke_sib_without_base : Instr.wf .long64 (.punpcklbwMm ⟨[], none, 0, .mem (.sib 0 0 5 .none)⟩) = false := by
  decide

/-! ## A decoded word for every constructor (95_test_vectors.md section 7 and the words of sections 3 to 6) -/

/-- T46. -/
theorem decode_PUNPCKLBW_mm :
    decode .long64 [0x0F, 0x60, 0xD5] =
      .ok (.punpcklbwMm ⟨[], none, 2, .reg 5⟩, []) := by
  decide

/-- T134: REX.R = 1. -/
theorem decode_PUNPCKLBW_xmm :
    decode .long64 [0x66, 0x44, 0x0F, 0x60, 0xC1] =
      .ok (.punpcklbwXmm ⟨[.opSize], some ⟨false, true, false, false⟩, 0, .reg 1⟩, []) := by
  decide

/-- T145. -/
theorem decode_VPUNPCKLBW_xmm_vex :
    decode .long64 [0xC4, 0x41, 0x01, 0x60, 0xC1] =
      .ok (.vpunpcklbwXmmVex ⟨[], none, false, true, false, true, false, 15, 0, .reg 1⟩, []) := by
  decide

/-- T58. -/
theorem decode_VPUNPCKLBW_ymm_vex :
    decode .long64 [0xC4, 0x41, 0x05, 0x60, 0xC0] =
      .ok (.vpunpcklbwYmmVex ⟨[], none, false, true, false, true, false, 15, 0, .reg 0⟩, []) := by
  decide

/-- T149: W is ignored. -/
theorem decode_VPUNPCKLBW_xmm_evex :
    decode .long64 [0x62, 0xF1, 0xF5, 0x08, 0x60, 0xC2] =
      .ok (.vpunpcklbwXmmEvex ⟨[], none, false, false, false, false, true, 1, false, false, false, 0, 0, .reg 2⟩, []) := by
  decide

/-- T63. -/
theorem decode_VPUNPCKLBW_ymm_evex :
    decode .long64 [0x62, 0xF1, 0x75, 0x29, 0x60, 0xC2] =
      .ok (.vpunpcklbwYmmEvex ⟨[], none, false, false, false, false, false, 1, false, false, false, 1, 0, .reg 2⟩, []) := by
  decide

/-- T155. -/
theorem decode_VPUNPCKLBW_zmm_evex :
    decode .long64 [0x62, 0xF1, 0x75, 0x48, 0x60, 0x40, 0x01] =
      .ok (.vpunpcklbwZmmEvex ⟨[], none, false, false, false, false, false, 1, false, false, false, 0, 0, .mem (.base 0 (.d8 1))⟩, []) := by
  decide

/-- T69. -/
theorem decode_PUNPCKLWD_mm :
    decode .long64 [0x0F, 0x61, 0x08] =
      .ok (.punpcklwdMm ⟨[], none, 1, .mem (.base 0 .none)⟩, []) := by
  decide

/-- T139. -/
theorem decode_PUNPCKLWD_xmm :
    decode .long64 [0x66, 0x0F, 0x61, 0x54, 0x24, 0x08] =
      .ok (.punpcklwdXmm ⟨[.opSize], none, 2, .mem (.sib 0 4 4 (.d8 8))⟩, []) := by
  decide

/-- T159. -/
theorem decode_VPUNPCKLWD_xmm_vex :
    decode .prot32 [0xC5, 0xC9, 0x61, 0xFD] =
      .ok (.vpunpcklwdXmmVex ⟨[], none, true, false, false, false, false, 6, 7, .reg 5⟩, []) := by
  decide

/-- T80. -/
theorem decode_VPUNPCKLWD_ymm_vex :
    decode .long64 [0xC5, 0xF5, 0x61, 0x1B] =
      .ok (.vpunpcklwdYmmVex ⟨[], none, true, false, false, false, false, 1, 3, .mem (.base 3 .none)⟩, []) := by
  decide

/-- T83. -/
theorem decode_VPUNPCKLWD_xmm_evex :
    decode .long64 [0x62, 0xF1, 0x75, 0x09, 0x61, 0xC2] =
      .ok (.vpunpcklwdXmmEvex ⟨[], none, false, false, false, false, false, 1, false, false, false, 1, 0, .reg 2⟩, []) := by
  decide

/-- T84. -/
theorem decode_VPUNPCKLWD_ymm_evex :
    decode .long64 [0x62, 0xF1, 0x75, 0x29, 0x61, 0xC2] =
      .ok (.vpunpcklwdYmmEvex ⟨[], none, false, false, false, false, false, 1, false, false, false, 1, 0, .reg 2⟩, []) := by
  decide

/-- T150. -/
theorem decode_VPUNPCKLWD_zmm_evex :
    decode .long64 [0x62, 0x21, 0x7D, 0xC7, 0x61, 0xF9] =
      .ok (.vpunpcklwdZmmEvex ⟨[], none, true, true, false, true, false, 0, true, false, true, 7, 7, .reg 1⟩, []) := by
  decide

/-- T137 with opcode 62H (R93): RIP-relative. -/
theorem decode_PUNPCKLDQ_mm :
    decode .long64 [0x0F, 0x62, 0x0D, 0x00, 0x01, 0x00, 0x00] =
      .ok (.punpckldqMm ⟨[], none, 1, .mem (.disp32 0x100)⟩, []) := by
  decide

/-- T136. -/
theorem decode_PUNPCKLDQ_xmm :
    decode .long64 [0x66, 0x45, 0x0F, 0x62, 0x65, 0x00] =
      .ok (.punpckldqXmm ⟨[.opSize], some ⟨false, true, false, true⟩, 4, .mem (.base 5 (.d8 0))⟩, []) := by
  decide

/-- T98. -/
theorem decode_VPUNPCKLDQ_xmm_vex :
    decode .long64 [0xC5, 0xF1, 0x62, 0xC2] =
      .ok (.vpunpckldqXmmVex ⟨[], none, true, false, false, false, false, 1, 0, .reg 2⟩, []) := by
  decide

/-- T146. -/
theorem decode_VPUNPCKLDQ_ymm_vex :
    decode .long64 [0xC4, 0x01, 0x2D, 0x62, 0x4C, 0xAC, 0x20] =
      .ok (.vpunpckldqYmmVex ⟨[], none, false, true, true, true, false, 10, 1, .mem (.sib 2 5 4 (.d8 0x20))⟩, []) := by
  decide

/-- T154. -/
theorem decode_VPUNPCKLDQ_xmm_evex :
    decode .long64 [0x62, 0xF1, 0x75, 0x18, 0x62, 0x40, 0x10] =
      .ok (.vpunpckldqXmmEvex ⟨[], none, false, false, false, false, false, 1, false, true, false, 0, 0, .mem (.base 0 (.d8 0x10))⟩, []) := by
  decide

/-- T152. -/
theorem decode_VPUNPCKLDQ_ymm_evex :
    decode .long64 [0x62, 0x11, 0x2D, 0x28, 0x62, 0x4C, 0xAC, 0x01] =
      .ok (.vpunpckldqYmmEvex ⟨[], none, true, true, true, false, false, 10, false, false, false, 0, 1, .mem (.sib 2 5 4 (.d8 1))⟩, []) := by
  decide

/-- T151. -/
theorem decode_VPUNPCKLDQ_zmm_evex :
    decode .long64 [0x62, 0x91, 0x75, 0x48, 0x62, 0xC6] =
      .ok (.vpunpckldqZmmEvex ⟨[], none, false, true, true, false, false, 1, false, false, false, 0, 0, .reg 6⟩, []) := by
  decide

/-- T141. -/
theorem decode_PUNPCKLQDQ_xmm :
    decode .long64 [0x66, 0x0F, 0x6C, 0x8C, 0xC8, 0x78, 0x56, 0x34, 0x12] =
      .ok (.punpcklqdqXmm ⟨[.opSize], none, 1, .mem (.sib 3 1 0 (.d32 0x12345678))⟩, []) := by
  decide

/-- T118. -/
theorem decode_VPUNPCKLQDQ_xmm_vex :
    decode .long64 [0xC5, 0xF1, 0x6C, 0xC2] =
      .ok (.vpunpcklqdqXmmVex ⟨[], none, true, false, false, false, false, 1, 0, .reg 2⟩, []) := by
  decide

/-- T147. -/
theorem decode_VPUNPCKLQDQ_ymm_vex :
    decode .long64 [0xC5, 0xED, 0x6C, 0x8C, 0xC0, 0x78, 0x56, 0x34, 0x12] =
      .ok (.vpunpcklqdqYmmVex ⟨[], none, true, false, false, false, false, 2, 1, .mem (.sib 3 0 0 (.d32 0x12345678))⟩, []) := by
  decide

/-- T124. -/
theorem decode_VPUNPCKLQDQ_xmm_evex :
    decode .long64 [0x62, 0xF1, 0xF5, 0x09, 0x6C, 0xC2] =
      .ok (.vpunpcklqdqXmmEvex ⟨[], none, false, false, false, false, true, 1, false, false, false, 1, 0, .reg 2⟩, []) := by
  decide

/-- T125. -/
theorem decode_VPUNPCKLQDQ_ymm_evex :
    decode .long64 [0x62, 0xF1, 0xF5, 0x29, 0x6C, 0xC2] =
      .ok (.vpunpcklqdqYmmEvex ⟨[], none, false, false, false, false, true, 1, false, false, false, 1, 0, .reg 2⟩, []) := by
  decide

/-- T126. -/
theorem decode_VPUNPCKLQDQ_zmm_evex :
    decode .long64 [0x62, 0x21, 0xFD, 0xC7, 0x6C, 0xF9] =
      .ok (.vpunpcklqdqZmmEvex ⟨[], none, true, true, false, true, true, 0, true, false, true, 7, 7, .reg 1⟩, []) := by
  decide


/-! ## One step (95_test_vectors.md sections 3 to 6) -/

/-- T46: `punpcklbw mm2, mm5`. -/
theorem test_T46 :
    after [0x0F, 0x60, 0xD5] (fun t => (t.mmAt 2, t.rip))
        ((start.setMm 2 0x706050403020100).setMm 5 0x8786858483828180) =
      some (0x8303820281018000, 0x1003) := by
  decide

/-- T48: `punpcklbw mm1, [rax]`. -/
theorem test_T48 :
    after [0x0F, 0x60, 0x08] (fun t => (t.mmAt 1, t.rip))
        (put 0x2FFC [0xA0, 0xA1, 0xA2, 0xA3] (setG 0 0x2FFC (start.setMm 1 0x2726252423222120))) =
      some (0xA323A222A121A020, 0x1003) := by
  decide

/-- T51: `punpcklbw xmm0, xmm1`. -/
theorem test_T51 :
    after [0x66, 0x0F, 0x60, 0xC1] (fun t => (t.vAt 0, t.rip))
        ((start.setV 0 0xEEEEEEEEEEEEEEEEEEEEEEEEEEEEEEEEEEEEEEEEEEEEEEEEEEEEEEEEEEEEEEEEEEEEEEEEEEEEEEEEEEEEEEEEEEEEEEEE0F0E0D0C0B0A09080706050403020100).setV 1 0x8F8E8D8C8B8A89888786858483828180) =
      some (0xEEEEEEEEEEEEEEEEEEEEEEEEEEEEEEEEEEEEEEEEEEEEEEEEEEEEEEEEEEEEEEEEEEEEEEEEEEEEEEEEEEEEEEEEEEEEEEEE87078606850584048303820281018000, 0x1004) := by
  decide

/-- T54: `punpcklbw xmm2, [rbx]`. -/
theorem test_T54 :
    after [0x66, 0x0F, 0x60, 0x13] (fun t => (t.vLow 128 2, t.rip))
        (put 0x2010 (count 0x80 16) (setG 3 0x2010 (start.setV 2 0xF0E0D0C0B0A09080706050403020100))) =
      some (0x87078606850584048303820281018000, 0x1004) := by
  decide

/-- T56: `vpunpcklbw xmm0, xmm1, xmm2`. -/
theorem test_T56 :
    after [0xC5, 0xF1, 0x60, 0xC2] (fun t => (t.vAt 0, t.rip))
        (((start.setV 0 ee).setV 1 iota).setV 2 hi) =
      some (0x87078606850584048303820281018000, 0x1004) := by
  decide

/-- T57: `vpunpcklbw ymm0, ymm1, ymm2`. -/
theorem test_T57 :
    after [0xC5, 0xF5, 0x60, 0xC2] (fun t => (t.vAt 0, t.rip))
        (((start.setV 0 ee).setV 1 iota).setV 2 hi) =
      some (0x9717961695159414931392129111901087078606850584048303820281018000, 0x1004) := by
  decide

/-- T59: `vpunpcklbw ymm3, ymm1, [rbx]`. -/
theorem test_T59 :
    after [0xC5, 0xF5, 0x60, 0x1B] (fun t => (t.vAt 3, t.rip))
        (put 0x2003 (count 0x80 32) (setG 3 0x2003 (start.setV 1 0x1F1E1D1C1B1A191817161514131211100F0E0D0C0B0A09080706050403020100))) =
      some (0x9717961695159414931392129111901087078606850584048303820281018000, 0x1004) := by
  decide

/-- T62: `vpunpcklbw xmm0 (k1), xmm1, xmm2`. -/
theorem test_T62 :
    after [0x62, 0xF1, 0x75, 0x09, 0x60, 0xC2] (fun t => (t.vAt 0, t.rip))
        (setK 1 0xFFFFFFFFFFFFFFFF (((start.setV 0 ee).setV 1 iota).setV 2 hi)) =
      some (0x87078606850584048303820281018000, 0x1006) := by
  decide

/-- T63: `vpunpcklbw ymm0 (k1), ymm1, ymm2`. -/
theorem test_T63 :
    after [0x62, 0xF1, 0x75, 0x29, 0x60, 0xC2] (fun t => (t.vAt 0, t.rip))
        (setK 1 0xFFFFFFFF00000000 (((start.setV 0 ee).setV 1 iota).setV 2 hi)) =
      some (0xEEEEEEEEEEEEEEEEEEEEEEEEEEEEEEEEEEEEEEEEEEEEEEEEEEEEEEEEEEEEEEEE, 0x1006) := by
  decide

/-- T65: `vpunpcklbw zmm31 (k7), zmm16, zmm17`. -/
theorem test_T65 :
    after [0x62, 0x21, 0x7D, 0x47, 0x60, 0xF9] (fun t => (t.vAt 31, t.rip))
        (setK 7 0x5A5A5A5A5A5A5A5A (((start.setV 31 ee).setV 16 iota).setV 17 hi)) =
      some (0xEE37EE36B5EEB4EEEE33EE32B1EEB0EEEE27EE26A5EEA4EEEE23EE22A1EEA0EEEE17EE1695EE94EEEE13EE1291EE90EEEE07EE0685EE84EEEE03EE0281EE80EE, 0x1006) := by
  decide

/-- T66: `vpunpcklbw zmm0, zmm1, [rax+0x40]`. -/
theorem test_T66 :
    after [0x62, 0xF1, 0x75, 0x48, 0x60, 0x40, 0x01] (fun t => (t.vAt 0, t.rip))
        (put 0x2041 (count 0x80 64) (setG 0 0x2001 (start.setV 1 iota))) =
      some (0xB737B636B535B434B333B232B131B030A727A626A525A424A323A222A121A0209717961695159414931392129111901087078606850584048303820281018000, 0x1007) := by
  decide

/-- T67: `punpcklwd mm2, mm5`. -/
theorem test_T67 :
    after [0x0F, 0x61, 0xD5] (fun t => (t.mmAt 2, t.rip))
        ((start.setMm 2 0x706050403020100).setMm 5 0x8786858483828180) =
      some (0x8382030281800100, 0x1003) := by
  decide

/-- T69: `punpcklwd mm1, [rax]`. -/
theorem test_T69 :
    after [0x0F, 0x61, 0x08] (fun t => (t.mmAt 1, t.rip))
        (put 0x2FFC [0xA0, 0xA1, 0xA2, 0xA3] (setG 0 0x2FFC (start.setMm 1 0x2726252423222120))) =
      some (0xA3A22322A1A02120, 0x1003) := by
  decide

/-- T72: `punpcklwd xmm0, xmm1`. -/
theorem test_T72 :
    after [0x66, 0x0F, 0x61, 0xC1] (fun t => (t.vAt 0, t.rip))
        ((start.setV 0 0xEEEEEEEEEEEEEEEEEEEEEEEEEEEEEEEEEEEEEEEEEEEEEEEEEEEEEEEEEEEEEEEEEEEEEEEEEEEEEEEEEEEEEEEEEEEEEEEE0F0E0D0C0B0A09080706050403020100).setV 1 0x8F8E8D8C8B8A89888786858483828180) =
      some (0xEEEEEEEEEEEEEEEEEEEEEEEEEEEEEEEEEEEEEEEEEEEEEEEEEEEEEEEEEEEEEEEEEEEEEEEEEEEEEEEEEEEEEEEEEEEEEEEE87860706858405048382030281800100, 0x1004) := by
  decide

/-- T75: `punpcklwd xmm2, [rbx]`. -/
theorem test_T75 :
    after [0x66, 0x0F, 0x61, 0x13] (fun t => (t.vLow 128 2, t.rip))
        (put 0x2010 (count 0x80 16) (setG 3 0x2010 (start.setV 2 0xF0E0D0C0B0A09080706050403020100))) =
      some (0x87860706858405048382030281800100, 0x1004) := by
  decide

/-- T77: `vpunpcklwd xmm0, xmm1, xmm2`. -/
theorem test_T77 :
    after [0xC5, 0xF1, 0x61, 0xC2] (fun t => (t.vAt 0, t.rip))
        (((start.setV 0 ee).setV 1 iota).setV 2 hi) =
      some (0x87860706858405048382030281800100, 0x1004) := by
  decide

/-- T79: `vpunpcklwd ymm8, ymm15, ymm8`. -/
theorem test_T79 :
    after [0xC4, 0x41, 0x05, 0x61, 0xC0] (fun t => (t.vLow 256 8, t.rip))
        ((start.setV 8 0x1F1E1D1C1B1A191817161514131211100F0E0D0C0B0A09080706050403020100).setV 15 0x9F9E9D9C9B9A999897969594939291908F8E8D8C8B8A89888786858483828180) =
      some (0x1716979615149594131293921110919007068786050485840302838201008180, 0x1005) := by
  decide

/-- T80: `vpunpcklwd ymm3, ymm1, [rbx]`. -/
theorem test_T80 :
    after [0xC5, 0xF5, 0x61, 0x1B] (fun t => (t.vAt 3, t.rip))
        (put 0x2003 (count 0x80 32) (setG 3 0x2003 (start.setV 1 0x1F1E1D1C1B1A191817161514131211100F0E0D0C0B0A09080706050403020100))) =
      some (0x9796171695941514939213129190111087860706858405048382030281800100, 0x1004) := by
  decide

/-- T83: `vpunpcklwd xmm0 (k1), xmm1, xmm2`. -/
theorem test_T83 :
    after [0x62, 0xF1, 0x75, 0x09, 0x61, 0xC2] (fun t => (t.vAt 0, t.rip))
        (setK 1 0xFFFFFFFFFFFFFFFF (((start.setV 0 ee).setV 1 iota).setV 2 hi)) =
      some (0x87860706858405048382030281800100, 0x1006) := by
  decide

/-- T84: `vpunpcklwd ymm0 (k1), ymm1, ymm2`. -/
theorem test_T84 :
    after [0x62, 0xF1, 0x75, 0x29, 0x61, 0xC2] (fun t => (t.vAt 0, t.rip))
        (setK 1 0xFFFFFFFFFFFF0000 (((start.setV 0 ee).setV 1 iota).setV 2 hi)) =
      some (0xEEEEEEEEEEEEEEEEEEEEEEEEEEEEEEEEEEEEEEEEEEEEEEEEEEEEEEEEEEEEEEEE, 0x1006) := by
  decide

/-- T85: `vpunpcklwd zmm31 (k7) (z), zmm16, zmm17`. -/
theorem test_T85 :
    after [0x62, 0x21, 0x7D, 0xC7, 0x61, 0xF9] (fun t => (t.vAt 31, t.rip))
        (setK 7 0x5A5A5A5A5A5A5A5A (((start.setV 31 ee).setV 16 iota).setV 17 hi)) =
      some (0x373600003534B3B20000B1B000000000272600002524A3A20000A1A000000000171600001514939200009190000000000706000005048382000081800000, 0x1006) := by
  decide

/-- T87: `vpunpcklwd zmm0, zmm1, [rax+0x40]`. -/
theorem test_T87 :
    after [0x62, 0xF1, 0x75, 0x48, 0x61, 0x40, 0x01] (fun t => (t.vAt 0, t.rip))
        (put 0x2041 (count 0x80 64) (setG 0 0x2001 (start.setV 1 iota))) =
      some (0xB7B63736B5B43534B3B23332B1B03130A7A62726A5A42524A3A22322A1A021209796171695941514939213129190111087860706858405048382030281800100, 0x1007) := by
  decide

/-- T88: `punpckldq mm2, mm5`. -/
theorem test_T88 :
    after [0x0F, 0x62, 0xD5] (fun t => (t.mmAt 2, t.rip))
        ((start.setMm 2 0x706050403020100).setMm 5 0x8786858483828180) =
      some (0x8382818003020100, 0x1003) := by
  decide

/-- T90: `punpckldq mm1, [rax]`. -/
theorem test_T90 :
    after [0x0F, 0x62, 0x08] (fun t => (t.mmAt 1, t.rip))
        (put 0x2FFC [0xA0, 0xA1, 0xA2, 0xA3] (setG 0 0x2FFC (start.setMm 1 0x2726252423222120))) =
      some (0xA3A2A1A023222120, 0x1003) := by
  decide

/-- T93: `punpckldq xmm0, xmm1`. -/
theorem test_T93 :
    after [0x66, 0x0F, 0x62, 0xC1] (fun t => (t.vAt 0, t.rip))
        ((start.setV 0 0xEEEEEEEEEEEEEEEEEEEEEEEEEEEEEEEEEEEEEEEEEEEEEEEEEEEEEEEEEEEEEEEEEEEEEEEEEEEEEEEEEEEEEEEEEEEEEEEE0F0E0D0C0B0A09080706050403020100).setV 1 0x8F8E8D8C8B8A89888786858483828180) =
      some (0xEEEEEEEEEEEEEEEEEEEEEEEEEEEEEEEEEEEEEEEEEEEEEEEEEEEEEEEEEEEEEEEEEEEEEEEEEEEEEEEEEEEEEEEEEEEEEEEE87868584070605048382818003020100, 0x1004) := by
  decide

/-- T96: `punpckldq xmm2, [rbx]`. -/
theorem test_T96 :
    after [0x66, 0x0F, 0x62, 0x13] (fun t => (t.vLow 128 2, t.rip))
        (put 0x2010 (count 0x80 16) (setG 3 0x2010 (start.setV 2 0xF0E0D0C0B0A09080706050403020100))) =
      some (0x87868584070605048382818003020100, 0x1004) := by
  decide

/-- T98: `vpunpckldq xmm0, xmm1, xmm2`. -/
theorem test_T98 :
    after [0xC5, 0xF1, 0x62, 0xC2] (fun t => (t.vAt 0, t.rip))
        (((start.setV 0 ee).setV 1 iota).setV 2 hi) =
      some (0x87868584070605048382818003020100, 0x1004) := by
  decide

/-- T99: `vpunpckldq ymm0, ymm1, ymm2`. -/
theorem test_T99 :
    after [0xC5, 0xF5, 0x62, 0xC2] (fun t => (t.vAt 0, t.rip))
        (((start.setV 0 ee).setV 1 iota).setV 2 hi) =
      some (0x9796959417161514939291901312111087868584070605048382818003020100, 0x1004) := by
  decide

/-- T101: `vpunpckldq ymm3, ymm1, [rbx]`. -/
theorem test_T101 :
    after [0xC5, 0xF5, 0x62, 0x1B] (fun t => (t.vAt 3, t.rip))
        (put 0x2003 (count 0x80 32) (setG 3 0x2003 (start.setV 1 0x1F1E1D1C1B1A191817161514131211100F0E0D0C0B0A09080706050403020100))) =
      some (0x9796959417161514939291901312111087868584070605048382818003020100, 0x1004) := by
  decide

/-- T104: `vpunpckldq xmm0 (k1), xmm1, xmm2`. -/
theorem test_T104 :
    after [0x62, 0xF1, 0x75, 0x09, 0x62, 0xC2] (fun t => (t.vAt 0, t.rip))
        (setK 1 0xFFFFFFFFFFFFFFFF (((start.setV 0 ee).setV 1 iota).setV 2 hi)) =
      some (0x87868584070605048382818003020100, 0x1006) := by
  decide

/-- T109: `vpunpckldq xmm0, xmm1, dword ptr [rax+4] (1to4)`. -/
theorem test_T109 :
    after [0x62, 0xF1, 0x75, 0x18, 0x62, 0x40, 0x01] (fun t => (t.vAt 0, t.rip))
        (put 0x2004 [0xAA, 0xBB, 0xCC, 0xDD] (setG 0 0x2000 ((start.setV 0 ee).setV 1 iota))) =
      some (0xDDCCBBAA07060504DDCCBBAA03020100, 0x1007) := by
  decide

/-- T105: `vpunpckldq ymm0 (k1), ymm1, ymm2`. -/
theorem test_T105 :
    after [0x62, 0xF1, 0x75, 0x29, 0x62, 0xC2] (fun t => (t.vAt 0, t.rip))
        (setK 1 0xFFFFFFFFFFFFFF00 (((start.setV 0 ee).setV 1 iota).setV 2 hi)) =
      some (0xEEEEEEEEEEEEEEEEEEEEEEEEEEEEEEEEEEEEEEEEEEEEEEEEEEEEEEEEEEEEEEEE, 0x1006) := by
  decide

/-- T110: `vpunpckldq ymm0, ymm1, dword ptr [rax+4] (1to8)`. -/
theorem test_T110 :
    after [0x62, 0xF1, 0x75, 0x38, 0x62, 0x40, 0x01] (fun t => (t.vAt 0, t.rip))
        (put 0x2004 [0xAA, 0xBB, 0xCC, 0xDD] (setG 0 0x2000 ((start.setV 0 ee).setV 1 iota))) =
      some (0xDDCCBBAA17161514DDCCBBAA13121110DDCCBBAA07060504DDCCBBAA03020100, 0x1007) := by
  decide

/-- T107: `vpunpckldq zmm31 (k7), zmm16, zmm17`. -/
theorem test_T107 :
    after [0x62, 0x21, 0x7D, 0x47, 0x62, 0xF9] (fun t => (t.vAt 31, t.rip))
        (setK 7 0x5A5A5A5A5A5A5A5A (((start.setV 31 ee).setV 16 iota).setV 17 hi)) =
      some (0xEEEEEEEE37363534EEEEEEEE33323130A7A6A5A4EEEEEEEEA3A2A1A0EEEEEEEEEEEEEEEE17161514EEEEEEEE1312111087868584EEEEEEEE83828180EEEEEEEE, 0x1006) := by
  decide

/-- T112: `vpunpckldq zmm0 (k1) (z), zmm1, dword ptr [rax] (1to16)`. -/
theorem test_T112 :
    after [0x62, 0xF1, 0x75, 0xD9, 0x62, 0x00] (fun t => (t.vAt 0, t.rip))
        (put 0x2000 [0xAA, 0xBB, 0xCC, 0xDD] (setK 1 0x33 (setG 0 0x2000 ((start.setV 0 ee).setV 1 iota)))) =
      some (0xDDCCBBAA131211100000000000000000DDCCBBAA03020100, 0x1006) := by
  decide

/-- T113: `punpcklqdq xmm0, xmm1`. -/
theorem test_T113 :
    after [0x66, 0x0F, 0x6C, 0xC1] (fun t => (t.vAt 0, t.rip))
        ((start.setV 0 0xEEEEEEEEEEEEEEEEEEEEEEEEEEEEEEEEEEEEEEEEEEEEEEEEEEEEEEEEEEEEEEEEEEEEEEEEEEEEEEEEEEEEEEEEEEEEEEEE0F0E0D0C0B0A09080706050403020100).setV 1 0x8F8E8D8C8B8A89888786858483828180) =
      some (0xEEEEEEEEEEEEEEEEEEEEEEEEEEEEEEEEEEEEEEEEEEEEEEEEEEEEEEEEEEEEEEEEEEEEEEEEEEEEEEEEEEEEEEEEEEEEEEEE87868584838281800706050403020100, 0x1004) := by
  decide

/-- T116: `punpcklqdq xmm2, [rbx]`. -/
theorem test_T116 :
    after [0x66, 0x0F, 0x6C, 0x13] (fun t => (t.vLow 128 2, t.rip))
        (put 0x2010 (count 0x80 16) (setG 3 0x2010 (start.setV 2 0xF0E0D0C0B0A09080706050403020100))) =
      some (0x87868584838281800706050403020100, 0x1004) := by
  decide

/-- T118: `vpunpcklqdq xmm0, xmm1, xmm2`. -/
theorem test_T118 :
    after [0xC5, 0xF1, 0x6C, 0xC2] (fun t => (t.vAt 0, t.rip))
        (((start.setV 0 ee).setV 1 iota).setV 2 hi) =
      some (0x87868584838281800706050403020100, 0x1004) := by
  decide

/-- T120: `vpunpcklqdq ymm8, ymm15, ymm8`. -/
theorem test_T120 :
    after [0xC4, 0x41, 0x05, 0x6C, 0xC0] (fun t => (t.vLow 256 8, t.rip))
        ((start.setV 8 0x1F1E1D1C1B1A191817161514131211100F0E0D0C0B0A09080706050403020100).setV 15 0x9F9E9D9C9B9A999897969594939291908F8E8D8C8B8A89888786858483828180) =
      some (0x1716151413121110979695949392919007060504030201008786858483828180, 0x1005) := by
  decide

/-- T121: `vpunpcklqdq ymm3, ymm1, [rbx]`. -/
theorem test_T121 :
    after [0xC5, 0xF5, 0x6C, 0x1B] (fun t => (t.vAt 3, t.rip))
        (put 0x2003 (count 0x80 32) (setG 3 0x2003 (start.setV 1 0x1F1E1D1C1B1A191817161514131211100F0E0D0C0B0A09080706050403020100))) =
      some (0x9796959493929190171615141312111087868584838281800706050403020100, 0x1004) := by
  decide

/-- T124: `vpunpcklqdq xmm0 (k1), xmm1, xmm2`. -/
theorem test_T124 :
    after [0x62, 0xF1, 0xF5, 0x09, 0x6C, 0xC2] (fun t => (t.vAt 0, t.rip))
        (setK 1 0xFFFFFFFFFFFFFFFF (((start.setV 0 ee).setV 1 iota).setV 2 hi)) =
      some (0x87868584838281800706050403020100, 0x1006) := by
  decide

/-- T129: `vpunpcklqdq xmm0, xmm1, qword ptr [rax+8] (1to2)`. -/
theorem test_T129 :
    after [0x62, 0xF1, 0xF5, 0x18, 0x6C, 0x40, 0x01] (fun t => (t.vAt 0, t.rip))
        (put 0x2008 [0x11, 0x22, 0x33, 0x44, 0x55, 0x66, 0x77, 0x88] (setG 0 0x2000 ((start.setV 0 ee).setV 1 iota))) =
      some (0x88776655443322110706050403020100, 0x1007) := by
  decide

/-- T125: `vpunpcklqdq ymm0 (k1), ymm1, ymm2`. -/
theorem test_T125 :
    after [0x62, 0xF1, 0xF5, 0x29, 0x6C, 0xC2] (fun t => (t.vAt 0, t.rip))
        (setK 1 0xFFFFFFFFFFFFFFF0 (((start.setV 0 ee).setV 1 iota).setV 2 hi)) =
      some (0xEEEEEEEEEEEEEEEEEEEEEEEEEEEEEEEEEEEEEEEEEEEEEEEEEEEEEEEEEEEEEEEE, 0x1006) := by
  decide

/-- T130: `vpunpcklqdq ymm0, ymm1, qword ptr [rax+8] (1to4)`. -/
theorem test_T130 :
    after [0x62, 0xF1, 0xF5, 0x38, 0x6C, 0x40, 0x01] (fun t => (t.vAt 0, t.rip))
        (put 0x2008 [0x11, 0x22, 0x33, 0x44, 0x55, 0x66, 0x77, 0x88] (setG 0 0x2000 ((start.setV 0 ee).setV 1 iota))) =
      some (0x8877665544332211171615141312111088776655443322110706050403020100, 0x1007) := by
  decide

/-- T126: `vpunpcklqdq zmm31 (k7) (z), zmm16, zmm17`. -/
theorem test_T126 :
    after [0x62, 0x21, 0xFD, 0xC7, 0x6C, 0xF9] (fun t => (t.vAt 31, t.rip))
        (setK 7 0x5A5A5A5A5A5A5A5A (((start.setV 31 ee).setV 16 iota).setV 17 hi)) =
      some (0x3736353433323130000000000000000027262524232221209796959493929190000000000000000087868584838281800000000000000000, 0x1006) := by
  decide

/-- T132: `vpunpcklqdq zmm0 (k1) (z), zmm1, qword ptr [rax] (1to8)`. -/
theorem test_T132 :
    after [0x62, 0xF1, 0xF5, 0xD9, 0x6C, 0x00] (fun t => (t.vAt 0, t.rip))
        (put 0x2000 [0x11, 0x22, 0x33, 0x44, 0x55, 0x66, 0x77, 0x88] (setK 1 0x33 (setG 0 0x2000 ((start.setV 0 ee).setV 1 iota)))) =
      some (0x887766554433221127262524232221200000000000000000000000000000000088776655443322110706050403020100, 0x1006) := by
  decide


/-! ## The hypotheses of the statements can be met

`witness_<Name>` belongs to the statement `Obligations.<Name>`. -/

theorem witness_UnpcklByElements :
    8 ∈ [8, 16, 32, 64] ∧ 512 ∈ [64, 128, 256, 512] ∧ 3 < 512 / (if 512 = 64 then 64 else 128)
      ∧ 15 < (if 512 = 64 then 64 else 128) / 8 ∧ 7 < (if 64 = 64 then 64 else 128) / 8 := by decide

/-- Inputs that differ in every bit that is not read. -/
theorem witness_UnpcklIgnoresHighElements :
    (0x00000000FFFFFFFF : BitVec 64).extractLsb' 0 32 = (0xFFFFFFFFFFFFFFFF : BitVec 64).extractLsb' 0 32
      ∧ ∀ l < 256 / 128,
        (0x0000000000000000FFFFFFFFFFFFFFFF0000000000000000FFFFFFFFFFFFFFFF : BitVec 256).extractLsb' (128 * l) 64 =
          (BitVec.allOnes 256).extractLsb' (128 * l) 64 := by decide

theorem witness_ZeroSourceZeroExtends_SameSourceDuplicates :
    (32, 64) ∈ [(8, 64), (16, 64), (32, 64)] ∧ 64 ∈ [8, 16, 32, 64] ∧ 512 ∈ [128, 256, 512]
      ∧ 0 < 64 / (if 64 = 64 then 64 else 128) ∧ 0 < (if 64 = 64 then 64 else 128) / 32 / 2
      ∧ 3 < 512 / (if 512 = 64 then 64 else 128) ∧ 0 < (if 512 = 64 then 64 else 128) / 64 / 2 := by decide

/-- T35: masks that differ only in bits that are not read. -/
theorem witness_MaskWriteByElements :
    64 ∈ [8, 16, 32, 64] ∧ 128 ∈ [128, 256, 512] ∧ 1 < 128 / 64
      ∧ ∀ j < 128 / 64, (0xFC : QWord).getLsbD j = (0 : QWord).getLsbD j := by decide

/-- The statements about a completed instruction, one of each class, in both modes. -/
theorem witness_UpperBitsKeptOrZeroed_CompletesOnlyWhenReady_EveryFormKeepsItsFrame_NoFormWritesMemory_Flags_Mxcsr :
    isNext (exec (.punpcklbwMm mmMem) wide) = true ∧ isNext (exec (.punpcklqdqXmm xmmMem) wide) = true
      ∧ isNext (exec (.vpunpckldqYmmVex vexMem) wide) = true ∧ isNext (exec (.vpunpcklqdqZmmEvex (evexBc true)) wide) = true
      ∧ isNext (exec (.punpcklbwMm mmMem) wide32) = true ∧ wide32.mode? = .ok .prot32 ∧ wide.mode? = .ok .long64
      ∧ isNext (exec (.punpcklbwMm mmMem) { wide with rflags := 0x2 }) = true := by decide

theorem witness_MxcsrUnchangedAndUnread_mf :
    faultOf (exec (.punpcklbwMm mmReg) { start with x87Pending := true }) = some (.mf 0x1000) := by decide

theorem witness_RegisterFormsIgnoreCpl : (shape (.vpunpcklbwZmmEvex (evexReg false))).rm.isMem = false := by decide

theorem witness_MmRegisterForms :
    Meets (.punpcklbwMm mmReg) start ∧ Meets (.punpcklwdMm mmReg) start ∧ Meets (.punpckldqMm mmReg) start :=
  ⟨meets_register rfl rfl rfl, meets_register rfl rfl rfl, meets_register rfl rfl rfl⟩

theorem witness_XmmRegisterForms :
    Meets (.punpcklbwXmm xmmReg) start ∧ Meets (.punpcklwdXmm xmmReg) start ∧ Meets (.punpckldqXmm xmmReg) start
      ∧ Meets (.punpcklqdqXmm xmmReg) start :=
  ⟨meets_register rfl rfl rfl, meets_register rfl rfl rfl, meets_register rfl rfl rfl, meets_register rfl rfl rfl⟩

theorem witness_VexRegisterForms :
    Meets (.vpunpcklbwXmmVex vexReg) start ∧ Meets (.vpunpcklbwYmmVex vexReg) start
      ∧ Meets (.vpunpcklwdXmmVex vexReg) start ∧ Meets (.vpunpcklwdYmmVex vexReg) start
      ∧ Meets (.vpunpckldqXmmVex vexReg) start ∧ Meets (.vpunpckldqYmmVex vexReg) start
      ∧ Meets (.vpunpcklqdqXmmVex vexReg) start ∧ Meets (.vpunpcklqdqYmmVex vexReg) start :=
  ⟨meets_register rfl rfl rfl, meets_register rfl rfl rfl, meets_register rfl rfl rfl, meets_register rfl rfl rfl,
    meets_register rfl rfl rfl, meets_register rfl rfl rfl, meets_register rfl rfl rfl, meets_register rfl rfl rfl⟩

theorem witness_EvexRegisterForms :
    (Meets (.vpunpcklbwXmmEvex (evexReg false)) start ∧ Meets (.vpunpcklbwYmmEvex (evexReg false)) start
        ∧ Meets (.vpunpcklbwZmmEvex (evexReg false)) start)
      ∧ (Meets (.vpunpcklwdXmmEvex (evexReg false)) start ∧ Meets (.vpunpcklwdYmmEvex (evexReg false)) start
        ∧ Meets (.vpunpcklwdZmmEvex (evexReg false)) start)
      ∧ (Meets (.vpunpckldqXmmEvex (evexReg false)) start ∧ Meets (.vpunpckldqYmmEvex (evexReg false)) start
        ∧ Meets (.vpunpckldqZmmEvex (evexReg false)) start)
      ∧ Meets (.vpunpcklqdqXmmEvex (evexReg true)) start ∧ Meets (.vpunpcklqdqYmmEvex (evexReg true)) start
      ∧ Meets (.vpunpcklqdqZmmEvex (evexReg true)) start :=
  ⟨⟨meets_register rfl rfl rfl, meets_register rfl rfl rfl, meets_register rfl rfl rfl⟩,
    ⟨meets_register rfl rfl rfl, meets_register rfl rfl rfl, meets_register rfl rfl rfl⟩,
    ⟨meets_register rfl rfl rfl, meets_register rfl rfl rfl, meets_register rfl rfl rfl⟩,
    meets_register rfl rfl rfl, meets_register rfl rfl rfl, meets_register rfl rfl rfl⟩

/-- The values that the memory witnesses read at 2000H, one per operand size. -/
theorem witness_memory_values :
    IsMemValue wide .long64 0x2000 (0x83828180 : DWord) ∧ IsMemValue wide .long64 0x2000 (hi.setWidth 64)
      ∧ IsMemValue wide .long64 0x2000 (hi.setWidth 128) ∧ IsMemValue wide .long64 0x2000 (hi.setWidth 256)
      ∧ IsMemValue wide .long64 0x2000 hi := by
  refine ⟨?_, ?_, ?_, ?_, ?_⟩ <;> (unfold IsMemValue; decide)

/-- The sources that the broadcast witnesses have. -/
theorem witness_broadcast_sources :
    (∀ j < 512 / 32, elem 32 (bcast 32 512 0x83828180) j = 0x83828180)
      ∧ ∀ j < 512 / 64, elem 64 (bcast 64 512 0x8786858483828180) j = 0x8786858483828180 := by decide

theorem witness_MmMemoryForms :
    MeetsAt (.punpcklbwMm mmMem) ∧ MeetsAt (.punpcklwdMm mmMem) ∧ MeetsAt (.punpckldqMm mmMem) :=
  ⟨meets_memory rfl rfl rfl rfl (by decide), meets_memory rfl rfl rfl rfl (by decide),
    meets_memory rfl rfl rfl rfl (by decide)⟩

theorem witness_XmmMemoryForms :
    MeetsAt (.punpcklbwXmm xmmMem) ∧ MeetsAt (.punpcklwdXmm xmmMem) ∧ MeetsAt (.punpckldqXmm xmmMem)
      ∧ MeetsAt (.punpcklqdqXmm xmmMem) :=
  ⟨meets_memory rfl rfl rfl rfl (by decide), meets_memory rfl rfl rfl rfl (by decide),
    meets_memory rfl rfl rfl rfl (by decide), meets_memory rfl rfl rfl rfl (by decide)⟩

theorem witness_VexMemoryForms :
    MeetsAt (.vpunpcklbwXmmVex vexMem) ∧ MeetsAt (.vpunpcklbwYmmVex vexMem)
      ∧ MeetsAt (.vpunpcklwdXmmVex vexMem) ∧ MeetsAt (.vpunpcklwdYmmVex vexMem)
      ∧ MeetsAt (.vpunpckldqXmmVex vexMem) ∧ MeetsAt (.vpunpckldqYmmVex vexMem)
      ∧ MeetsAt (.vpunpcklqdqXmmVex vexMem) ∧ MeetsAt (.vpunpcklqdqYmmVex vexMem) := by
  refine ⟨?_, ?_, ?_, ?_, ?_, ?_, ?_, ?_⟩ <;> exact meets_memory rfl rfl rfl rfl (by decide)

theorem witness_EvexMemoryForms :
    (MeetsAt (.vpunpcklbwXmmEvex (evexMem false)) ∧ MeetsAt (.vpunpcklbwYmmEvex (evexMem false))
        ∧ MeetsAt (.vpunpcklbwZmmEvex (evexMem false)))
      ∧ (MeetsAt (.vpunpcklwdXmmEvex (evexMem false)) ∧ MeetsAt (.vpunpcklwdYmmEvex (evexMem false))
        ∧ MeetsAt (.vpunpcklwdZmmEvex (evexMem false)))
      ∧ (MeetsAt (.vpunpckldqXmmEvex (evexMem false)) ∧ MeetsAt (.vpunpckldqYmmEvex (evexMem false))
        ∧ MeetsAt (.vpunpckldqZmmEvex (evexMem false)))
      ∧ MeetsAt (.vpunpcklqdqXmmEvex (evexMem true)) ∧ MeetsAt (.vpunpcklqdqYmmEvex (evexMem true))
      ∧ MeetsAt (.vpunpcklqdqZmmEvex (evexMem true)) := by
  refine ⟨⟨?_, ?_, ?_⟩, ⟨?_, ?_, ?_⟩, ⟨?_, ?_, ?_⟩, ?_, ?_, ?_⟩ <;> exact meets_memory rfl rfl rfl rfl (by decide)

theorem witness_EvexBroadcastForms :
    (MeetsAt (.vpunpckldqXmmEvex (evexBc false)) ∧ MeetsAt (.vpunpckldqYmmEvex (evexBc false))
        ∧ MeetsAt (.vpunpckldqZmmEvex (evexBc false)))
      ∧ MeetsAt (.vpunpcklqdqXmmEvex (evexBc true)) ∧ MeetsAt (.vpunpcklqdqYmmEvex (evexBc true))
      ∧ MeetsAt (.vpunpcklqdqZmmEvex (evexBc true)) := by
  refine ⟨⟨?_, ?_, ?_⟩, ?_, ?_, ?_⟩ <;> exact meets_memory rfl rfl rfl rfl (by decide)

theorem witness_EveryFormCompletes : MeetsAt (.vpunpcklbwZmmEvex (evexMem false)) :=
  meets_memory rfl rfl rfl rfl (by decide)

/-- Each of the seven exceptions is raised (T175, T182, T192, T187, T189, T184, T194). -/
theorem witness_FaultsOnlyAsListed :
    faultOf (exec (.punpcklbwXmm ⟨[.lock, .opSize], none, 0, atRax⟩) start) =
          some (.ud 0x1000)
      ∧ faultOf (exec (.punpcklbwMm mmReg) { start with cr0 := start.cr0 ||| 8 }) =
          some (.nm 0x1000)
      ∧ faultOf (exec (.vpunpcklbwYmmVex ⟨[], none, true, false, false, false, false, 1, 0, .mem (.sib 0 4 4 .none)⟩)
          (setG 4 0x0000800000000000 start)) =
          some (.ss 0x1000)
      ∧ faultOf (exec (.punpcklbwXmm ⟨[.opSize], none, 0, atRax⟩) (setG 0 0x2008 start)) =
          some (.gp 0x1000)
      ∧ faultOf (exec (.punpcklbwXmm ⟨[.opSize], none, 0, atRax⟩) (denyFrom 0x2000 (setG 0 0x2000 start))) =
          some (.pf 0x1000 4 0x2000)
      ∧ faultOf (exec (.punpcklwdMm mmReg) { start with x87Pending := true }) =
          some (.mf 0x1000)
      ∧ faultOf (exec (.punpcklbwMm mmMem) (checking 0x2001)) =
          some (.ac 0x1000) := by decide

/-- T198 with 14 prefix bytes: 23 bytes; and the boundary, 15 bytes, which is not too long. -/
theorem witness_TooLongRaisesGp :
    start.mode? = .ok .long64 ∧ (shape (.punpcklbwMm ⟨List.replicate 13 .addrSize, none, 0, .reg 0⟩)).rm = .reg 0
      ∧ Instr.len (.punpcklbwMm ⟨List.replicate 13 .addrSize, none, 0, .reg 0⟩) = 16
      ∧ Instr.len (.punpcklbwMm ⟨List.replicate 12 .addrSize, none, 0, .reg 0⟩) = 15 :=
  ⟨rfl, rfl, by decide, by decide⟩

/-- LOCK before a byte string that R109 refuses. -/
theorem witness_BadEncodingOrControlRaisesUd_prefixes :
    ∃ f : EvexForm, f.aaa = 0 ∧ f.z = true ∧ Instr.len (.vpunpcklbwZmmEvex f) ≤ 15
      ∧ ¬ (shape (.vpunpcklbwZmmEvex f)).PrefixesOk :=
  ⟨{ evexReg false with prefixes := [.lock], aaa := 0 }, rfl, rfl, by decide, fun h => h.1 (by decide)⟩

/-- T180: `EVEX.b = 1` in VPUNPCKLBW. -/
theorem witness_BadEncodingOrControlRaisesUd :
    start.mode? = .ok .long64 ∧ ¬ (shape (.vpunpcklbwZmmEvex (evexBc false))).Refused
      ∧ Instr.len (.vpunpcklbwZmmEvex (evexBc false)) ≤ 15 ∧ ¬ NoUd (.vpunpcklbwZmmEvex (evexBc false)) start := by
  refine ⟨rfl, ?_, by decide, fun h => ?_⟩
  · show ¬ ((_ ∧ _) ∨ (_ ∧ _)); decide
  · exact absurd (h.broadcast (by decide)) (by decide)

/-- T182 and T185: with CR0.TS = 1, also while an x87 exception is pending. -/
theorem witness_TaskSwitchedRaisesNm :
    ∃ s : State, s.mode? = .ok .long64 ∧ s.ts = true ∧ s.x87Pending = true ∧ NoUd (.punpcklwdMm mmReg) s
      ∧ ¬ (shape (.punpcklwdMm mmReg)).Refused ∧ Instr.len (.punpcklwdMm mmReg) ≤ 15 := by
  refine ⟨{ start with cr0 := start.cr0 ||| 8, x87Pending := true }, rfl, rfl, rfl, ?_, id, by decide⟩
  have h := (ready_of_checks (i := .punpcklwdMm mmReg) (s := start) rfl).noUd
  exact ⟨h.prefixes, rfl, h.features, h.broadcast⟩

/-- T184. -/
theorem witness_PendingX87RaisesMf :
    ∃ s : State, s.mode? = .ok .long64 ∧ s.ts = false ∧ NoUd (.punpcklwdMm mmReg) s
      ∧ ¬ (shape (.punpcklwdMm mmReg)).X87Ok s ∧ Instr.len (.punpcklwdMm mmReg) ≤ 15 := by
  refine ⟨{ start with x87Pending := true }, rfl, rfl, ?_, ?_, by decide⟩
  · have h := (ready_of_checks (i := .punpcklwdMm mmReg) (s := start) rfl).noUd
    exact ⟨h.prefixes, rfl, h.features, h.broadcast⟩
  · exact fun h => absurd (show true = false from h) (by decide)

/-- T193 in `Long64` (the last byte not canonical), T196 and T197 in `Prot32` (the last byte beyond the limit of DS, of SS),
a null selector and an unreadable segment. -/
theorem witness_SegmentCheckRaises :
    SegmentFails (.vpunpcklbwXmmVex ⟨[], none, true, false, false, false, false, 1, 0, atRax⟩) .long64
        (setG 0 0x00007FFFFFFFFFF8 start) (.base 0 .none) .ds
      ∧ SegmentFails (.punpcklbwXmm ⟨[.opSize], none, 0, .mem (.base 3 .none)⟩) .prot32
        (setG 3 0x8000 { prot with ds := { prot.ds with limit := 0x800E } }) (.base 3 .none) .ds
      ∧ SegmentFails (.punpcklbwMm ⟨[], none, 0, .mem (.base 5 (.d8 0))⟩) .prot32
        (setG 5 0x8000 { prot with ss := { prot.ss with limit := 0x8002 } }) (.base 5 (.d8 0)) .ss
      ∧ SegmentFails (.punpcklbwMm mmMem) .prot32 { prot with ds := { prot.ds with selector := 3 } } (.base 0 .none) .ds
      ∧ SegmentFails (.punpcklbwMm mmMem) .prot32 { prot with ds := { prot.ds with readable := false } } (.base 0 .none) .ds := by
  refine ⟨⟨rfl, ready_of_checks rfl, rfl, rfl, fun h => rfl, ?_⟩, ⟨rfl, ready_of_checks rfl, rfl, rfl, fun _ => rfl, ?_⟩,
    ⟨rfl, ready_of_checks rfl, rfl, rfl, fun _ => rfl, ?_⟩, ⟨rfl, ready_of_checks rfl, rfl, rfl, fun _ => rfl, ?_⟩,
    ⟨rfl, ready_of_checks rfl, rfl, rfl, fun _ => rfl, ?_⟩⟩
  · show ¬ ∀ k < 16, _ = true; decide
  all_goals (show ¬ (_ = false ∧ _ = true ∧ _ = false ∧ _ ≤ _); decide)

/-- T187: RAX = 2008H. -/
theorem witness_MisalignedLegacyRaisesGp :
    Reaches (.punpcklqdqXmm ⟨[.opSize], none, 0, atRax⟩) (setG 0 0x2008 start)
      ∧ (shape (.punpcklqdqXmm ⟨[.opSize], none, 0, atRax⟩)).alignment = .sse
      ∧ ((shape (.punpcklqdqXmm ⟨[.opSize], none, 0, atRax⟩)).la .long64 (.base 0 .none) (setG 0 0x2008 start)).toNat % 16 ≠ 0 := by
  refine ⟨⟨rfl, ready_of_checks rfl, rfl, ?_⟩, rfl, by decide⟩
  show ∀ k < 16, _ = true; decide

/-- The last byte that each clause of the statement covers: byte 3 of an m32, 7 of an m128, 63 of an m512. -/
theorem witness_DeniedByteRaisesPf :
    FirstDenied (.punpcklbwMm mmMem) (denyFrom 0x2003 wide) 3 ∧ FirstDenied (.punpcklbwXmm xmmMem) (denyFrom 0x2007 wide) 7
      ∧ FirstDenied (.vpunpcklbwZmmEvex (evexMem false)) (denyFrom 0x203F wide) 63 := by
  refine ⟨⟨⟨rfl, ready_of_checks rfl, rfl, ?_⟩, ?_, ?_, ?_, ?_⟩, ⟨⟨rfl, ready_of_checks rfl, rfl, ?_⟩, ?_, ?_, ?_, ?_⟩,
    ⟨⟨rfl, ready_of_checks rfl, rfl, ?_⟩, ?_, ?_, ?_, ?_⟩⟩
  case refine_1 => show ∀ k < 4, _ = true; decide
  case refine_6 => show ∀ k < 16, _ = true; decide
  case refine_11 => show ∀ k < 64, _ = true; decide
  all_goals decide

/-- T55: byte 8, and byte 15, is the lowest denied byte. -/
theorem witness_UpperHalfDeniedEitherWay :
    FirstDenied (.punpcklbwXmm xmmMem) (denyFrom 0x2008 wide) 8 ∧ FirstDenied (.punpcklbwXmm xmmMem) (denyFrom 0x200F wide) 15
      ∧ (shape (.punpcklbwXmm xmmMem)).width = 128 := by
  refine ⟨⟨⟨rfl, ready_of_checks rfl, rfl, ?_⟩, ?_, ?_, ?_, ?_⟩, ⟨⟨rfl, ready_of_checks rfl, rfl, ?_⟩, ?_, ?_, ?_, ?_⟩, rfl⟩
  case refine_1 => show ∀ k < 16, _ = true; decide
  case refine_6 => show ∀ k < 16, _ = true; decide
  all_goals decide

/-- T194, and the boundary of the VEX case: one byte off the operand size. -/
theorem witness_AlignmentChecking :
    (Reaches (.punpcklbwMm mmMem) (checking 0x2001) ∧ (checking 0x2001).alignChecking = true
        ∧ (∀ j < 4, ByteOk (checking 0x2001) .long64 0x2001 j)
        ∧ ((shape (.punpcklbwMm mmMem)).la .long64 (.base 0 .none) (checking 0x2001)) = 0x2001)
      ∧ Reaches (.vpunpcklbwYmmVex vexMem) (checking 0x201F) ∧ (checking 0x201F).alignChecking = true
      ∧ (∀ j < 32, ByteOk (checking 0x201F) .long64 0x201F j)
      ∧ ((shape (.vpunpcklbwYmmVex vexMem)).la .long64 (.base 0 .none) (checking 0x201F)) = 0x201F := by
  refine ⟨⟨⟨rfl, ready_of_checks rfl, rfl, ?_⟩, by decide, fun _ _ => Or.inl rfl, rfl⟩, ⟨rfl, ready_of_checks rfl, rfl, ?_⟩,
    by decide, fun _ _ => Or.inl rfl, rfl⟩
  · show ∀ k < 4, _ = true; decide
  · show ∀ k < 32, _ = true; decide

/-- The last byte of an operand in a region with read side effects; an expand-down data segment. -/
theorem witness_RefusedOperands :
    (Reaches (.vpunpcklbwZmmEvex (evexMem false)) { wide with map := [⟨0x203F, 1, none, .sideEffects⟩] }
        ∧ State.kindAt { wide with map := [⟨0x203F, 1, none, .sideEffects⟩] } (byteAddr .long64 0x2000 63).toNat = .sideEffects)
      ∧ Ready (.punpcklbwMm mmMem) { wide32 with ds := { wide32.ds with expandDown := true } }
      ∧ State.mode? { wide32 with ds := { wide32.ds with expandDown := true } } = .ok .prot32
      ∧ wide32.ds.isNull = false ∧ wide32.ds.readable = true := by
  refine ⟨⟨⟨rfl, ready_of_checks rfl, rfl, ?_⟩, by decide⟩, ready_of_checks rfl, rfl, by decide, by decide⟩
  show ∀ k < 64, _ = true; decide

/-- T211 and T210. -/
theorem witness_RefusedEncodings :
    refusalOf (exec (.vpunpcklbwZmmEvex ⟨[], none, false, false, false, false, false, 1, true, false, false, 0, 0, .reg 2⟩) start) =
          some .zeroingNoMask
      ∧ refusalOf (exec (.vpunpckldqZmmEvex ⟨[], none, false, false, false, false, false, 1, false, true, false, 0, 0, .reg 2⟩) start) =
          some .broadcastRegister
      ∧ Instr.len (.vpunpcklbwZmmEvex (evexReg false)) ≤ 15 ∧ (shape (.vpunpcklbwZmmEvex (evexReg false))).PrefixesOk :=
  ⟨by decide, by decide, by decide, (ready_of_checks (s := start) rfl).noUd.prefixes⟩

theorem witness_SegmentChoice :
    overrideOf [.opSize, .addrSize] = none ∧ overrideOf [.opSize, .seg .gs] = some .gs
      ∧ overrideOf [.seg .es] = some .es := by decide

theorem witness_MemReadIsLittleEndian : wide.memRead .long64 .ds 0x2000 32 .mmx = .ok 0x83828180 := by rfl

/-- A register form, a 16-byte operand and a broadcast element. -/
theorem witness_ReadEventRecorded :
    isNext (exec (.punpcklbwXmm xmmReg) wide) = true ∧ isNext (exec (.punpcklbwXmm xmmMem) wide) = true
      ∧ isNext (exec (.vpunpcklqdqZmmEvex (evexBc true)) wide) = true ∧ (shape (.punpcklbwXmm xmmMem)).width = 128
      ∧ (shape (.vpunpcklqdqZmmEvex (evexBc true))).width = 64 := by decide

theorem witness_DecodeOfEncode_StepRunsBytesAtRip :
    Instr.wf .long64 (.vpunpcklqdqZmmEvex (evexBc true)) = true ∧ Instr.wf .prot32 (.punpcklbwMm mmMem) = true := by decide

/-- T160 with a byte after it. -/
theorem witness_EncodeOfDecode_Prot32NamesLowRegisters :
    ∃ i, decode .prot32 [0x62, 0xF1, 0x4D, 0x49, 0x62, 0x7C, 0x48, 0x02, 0x90] = .ok (i, [0x90]) :=
  ⟨_, rfl⟩

/-- T208, T204 in EVEX, T209, T207, T205, T206, T202: one byte string for each clause. -/
theorem witness_ReservedEvexMatchesNoRow :
    (0xF5 : Byte).extractLsb' 2 2 ≠ 0 ∧ (0xF2 : Byte).extractLsb' 0 2 ≠ 1 ∧ (0x71 : Byte).getLsbD 2 = false
      ∧ (0x76 : Byte).extractLsb' 0 2 ≠ 1 ∧ (0x68 : Byte).extractLsb' 5 2 = 3 ∧ (0xF5 : Byte).getLsbD 7 = true
      ∧ (0x75 : Byte).getLsbD 7 = false ∧ (0x63 : Byte) ∉ [0x60, 0x61, 0x62, 0x6C] := by decide

/-- One prefix list and opcode byte for each clause, LOCK before a string of no row among them; the number of prefixes on both sides of 15 bytes. -/
theorem witness_LegacyStringsRefused :
    overrideCount [.seg .cs, .lock, .seg .cs] = 2 ∧ overrideCount [.seg .cs, .rep] = 1
      ∧ overrideCount (List.replicate 15 Prefix.addrSize) = 0
      ∧ (overrideCount [.lock] = 0 ∧ Prefix.lock ∈ [Prefix.lock] ∧ Prefix.repne ∉ [Prefix.lock] ∧ Prefix.rep ∉ [Prefix.lock])
      ∧ (∀ op : Byte, op ∈ [0x60, 0x61, 0x62] → op ∉ [0x6C]) ∧ (0x63 : Byte) ∉ [0x60, 0x61, 0x62, 0x6C]
      ∧ (0x07 : Byte).extractLsb' 6 2 ≠ 3
      ∧ (Prefix.lock :: List.replicate 11 Prefix.addrSize).length + 3 = 15
      ∧ (Prefix.lock :: List.replicate 12 Prefix.addrSize).length + 3 = 16 := by decide

/-- R115: fifteen 67H, and LOCK (log entry 13), before an opcode byte of no row; R114 step 3: `F0 67 0F 60 07` in `Prot32`, of 5 and of 16 bytes. -/
theorem test_no_row_and_bad_prefix :
    decode .long64 (List.replicate 15 0x67 ++ [0x0F, 0x63, 0xC1]) = .error .notFamily
      ∧ decode .long64 [0xF0, 0x0F, 0x63, 0xC1] = .error .notFamily
      ∧ decode .prot32 [0xF0, 0x67, 0x0F, 0x60, 0x07] = .error .badPrefix
      ∧ decode .prot32 (0xF0 :: List.replicate 12 0x67 ++ [0x0F, 0x60, 0x07]) = .error .tooLong
      ∧ faultOf (step (put 0x1000 [0xF0, 0x67, 0x0F, 0x60, 0x07] prot)) = some (.ud 0x1000) := by
  refine ⟨by decide, by decide, by decide, by decide, by decide⟩

/-- T46 loaded from reset: the state, launched, fetches and decodes it. -/
theorem witness_StepRunsDecoded :
    (State.reset.withFetchWord 32 0xD5600F00).mode? = .ok .long64 ∧ (State.reset.withFetchWord 32 0xD5600F00).tf = false
      ∧ (decode .long64 ((State.reset.withFetchWord 32 0xD5600F00).fetchBytes .long64)).map (fun r => r.1) =
        .ok (.punpcklbwMm ⟨[], none, 2, .reg 5⟩)
      ∧ (State.reset.withFetchWord 32 0xD5600F00).ripInside .long64 (nextRip .long64 0x1000 3) = true :=
  ⟨by decide, by decide, by rfl, by decide⟩

theorem witness_StepRunsBytesAtRip_fetch :
    ∀ k, ∀ h : k < (encode (.punpcklbwMm ⟨[], none, 2, .reg 5⟩)).length,
      (State.reset.withFetchWord 32 0xD5600F00).fetchable .long64 k = true
        ∧ (State.reset.withFetchWord 32 0xD5600F00).mem.read
            ((State.reset.withFetchWord 32 0xD5600F00).fetchAddr .long64 k).toNat =
          (encode (.punpcklbwMm ⟨[], none, 2, .reg 5⟩))[k] := by decide

/-- T46 at `rip`, of which the bytes from address `a` on may not be executed. -/
def cut (a : Nat) : State := { put 0x1000 [0x0F, 0x60, 0xD5] start with map := [⟨a, 2 ^ 64, none, .noExecute⟩] }

/-- A state for each clause: real-address mode; RFLAGS.TF = 1; bytes of no row, missing, and of both exceptions; `rip + len`
one beyond the limit; the first and the last byte not executable; 16 bytes. -/
theorem witness_StepStopsBeforeExec :
    State.reset.mode? = .error .realAddress
      ∧ (State.mode? { start with rflags := 0x302 } = .ok .long64 ∧ State.tf { start with rflags := 0x302 } = true)
      ∧ decode .long64 ((put 0x1000 [0x0F, 0x63, 0xC1] start).fetchBytes .long64) = .error .notFamily
      ∧ decode .long64 ((cut 0x1002).fetchBytes .long64) = .error .truncated
      ∧ decode .prot32 ((put 0x1000 [0xF0, 0x67, 0x0F, 0x60, 0x07] prot).fetchBytes .prot32) = .error .badPrefix
      ∧ decode .prot32 ((put 0x1000 (0xF0 :: List.replicate 12 0x67 ++ [0x0F, 0x60, 0x07]) prot).fetchBytes .prot32)
        = .error .tooLong
      ∧ (∃ i, decode .prot32 ((put 0x1000 [0x0F, 0x60, 0xD5] { prot with cs := { prot.cs with limit := 0x1002 } }).fetchBytes
            .prot32) = .ok (i, [])
        ∧ State.ripInside (put 0x1000 [0x0F, 0x60, 0xD5] { prot with cs := { prot.cs with limit := 0x1002 } }) .prot32
            (nextRip .prot32 0x1000 i.len) = false)
      ∧ ((cut 0x1000).fetchable .long64 0 = false ∧ (cut 0x1002).fetchable .long64 2 = false
        ∧ (cut 0x1002).mode? = .ok .long64 ∧ (cut 0x1002).tf = false
        ∧ (encode (.punpcklbwMm ⟨[], none, 2, .reg 5⟩)).length = 3
        ∧ ∀ k < 2, (cut 0x1002).fetchable .long64 k = true)
      ∧ ∃ i rest, decode .long64 ((put 0x1000 (List.replicate 13 0x67 ++ [0x0F, 0x60, 0xD5]) start).fetchBytes .long64)
          = .ok (i, rest) ∧ i.len = 16 :=
  ⟨by decide, by decide, by rfl, by decide, by rfl, by rfl, ⟨_, rfl, by decide⟩, by decide, ⟨_, _, rfl, by decide⟩⟩

/-- T46 loaded from reset meets the invariant and steps. -/
theorem witness_StepKeepsInvariant_StepLeavesSystemStateUntouched :
    Invariant (State.reset.withFetchWord 32 0xD5600F00) ∧ isNext (step (State.reset.withFetchWord 32 0xD5600F00)) = true := by
  have hv : ∀ i, (State.reset.withFetchWord 32 0xD5600F00).vAt i = 0 := by
    intro i
    have h : (State.reset.withFetchWord 32 0xD5600F00).v = Vector.replicate 32 0 := rfl
    simp [State.vAt, h]
  refine ⟨⟨by decide, fun i b _ => by simp [hv], fun i _ => hv i, fun m hm => ?_⟩, by decide⟩
  obtain rfl : Mode.long64 = m :=
    Except.ok.inj ((show (State.reset.withFetchWord 32 0xD5600F00).mode? = .ok .long64 from rfl).symm.trans hm)
  decide

theorem witness_StandardLaunchIsReady :
    ¬ (shape (.vpunpckldqZmmEvex (evexBc false))).Refused ∧ Instr.len (.vpunpckldqZmmEvex (evexBc false)) ≤ 15
      ∧ (shape (.vpunpckldqZmmEvex (evexBc false))).PrefixesOk ∧ (shape (.vpunpckldqZmmEvex (evexBc false))).BroadcastOk := by
  have h := ready_of_checks (i := .vpunpckldqZmmEvex (evexBc false)) (s := wide) rfl
  exact ⟨h.notRefused, h.length, h.noUd.prefixes, h.noUd.broadcast⟩

end Sys2Proof.Tests
end

/-! # The state: what a step changes, what it keeps, and the reset values (10_state.md)

The completion of an instruction is put in closed form (`Shape.result`), so that what a completed instruction wrote and
left alone is read off four record updates; the statements of the family follow from that and from the laws above. -/

namespace Sys2Proof.Machine

/-! ## The completion in closed form -/

/-- The value of a memory operand, its checks left out. -/
def State.operandValue (s : State) (m : Mode) (c : Addressing) (a : Addr) (w : Nat) : BitVec w :=
  s.readBytes m (s.linear m (operandSegment m c a) (s.effAddr m c a)) w

/-- Whatever the read of an operand answers is its value. -/
theorem readOperand_eq_ok {s : State} {m : Mode} {c : Addressing} {a : Addr} {w : Nat} {al : AlignRule} {b : BitVec w}
    (h : s.readOperand m c a w al = .ok b) : b = s.operandValue m c a w :=
  memRead_eq_ok h

/-- The source of an MMX form, the checks of a memory operand left out. -/
def State.mmValue (s : State) (m : Mode) (f : LegacyForm) : QWord :=
  match f.rm with
  | .reg rm => s.mmAt rm
  | .mem a => (s.operandValue m (legacyAddressing f) a 32).setWidth 64

/-- The source of a legacy 128-bit form, the checks of a memory operand left out. -/
def State.xmmValue (s : State) (m : Mode) (f : LegacyForm) : BitVec 128 :=
  match f.rm with
  | .reg rm => s.vLow 128 (f.s rm)
  | .mem a => s.operandValue m (legacyAddressing f) a 128

/-- The second source of a VEX form, the checks of a memory operand left out. -/
def State.vexValue (s : State) (m : Mode) (vl : Nat) (f : VexForm) : BitVec vl :=
  match f.rm with
  | .reg rm => s.vLow vl (f.s2 rm)
  | .mem a => s.operandValue m (vexAddressing f) a vl

/-- The second source of an EVEX form, the checks of a memory operand left out. -/
def State.evexValue (s : State) (m : Mode) (esz vl : Nat) (f : EvexForm) : BitVec vl :=
  match f.rm with
  | .reg rm => s.vLow vl (f.s2 rm)
  | .mem a =>
    if f.bc then bcast esz vl (s.operandValue m (evexAddressing esz vl f) a esz)
    else s.operandValue m (evexAddressing esz vl f) a vl

/-- An operation on what an `Except` answers answers that operation on an answer. -/
theorem except_map_eq_ok {ε α β : Type} {e : Except ε α} {g : α → β} {b : β} (h : e.map g = .ok b) :
    ∃ a, e = .ok a ∧ b = g a := by
  cases e with
  | error x => cases h
  | ok a => exact ⟨a, rfl, (Except.ok.inj h).symm⟩

theorem mmSource_eq_ok {s : State} {m : Mode} {f : LegacyForm} {b : QWord} (h : s.mmSource m f = .ok b) :
    b = s.mmValue m f := by
  unfold State.mmSource at h
  unfold State.mmValue
  cases hrm : f.rm with
  | reg rm => rw [hrm] at h; exact (Except.ok.inj h).symm
  | mem a =>
    rw [hrm] at h
    obtain ⟨r, hr, rfl⟩ := except_map_eq_ok h
    rw [readOperand_eq_ok hr]

theorem xmmSource_eq_ok {s : State} {m : Mode} {f : LegacyForm} {b : BitVec 128} (h : s.xmmSource m f = .ok b) :
    b = s.xmmValue m f := by
  unfold State.xmmSource at h
  unfold State.xmmValue
  cases hrm : f.rm with
  | reg rm => rw [hrm] at h; exact (Except.ok.inj h).symm
  | mem a => rw [hrm] at h; exact readOperand_eq_ok h

theorem vexSource_eq_ok {s : State} {m : Mode} {vl : Nat} {f : VexForm} {b : BitVec vl}
    (h : s.vexSource m vl f = .ok b) : b = s.vexValue m vl f := by
  unfold State.vexSource at h
  unfold State.vexValue
  cases hrm : f.rm with
  | reg rm => rw [hrm] at h; exact (Except.ok.inj h).symm
  | mem a => rw [hrm] at h; exact readOperand_eq_ok h

theorem evexSource_eq_ok {s : State} {m : Mode} {esz vl : Nat} {f : EvexForm} {b : BitVec vl}
    (h : s.evexSource m esz vl f = .ok b) : b = s.evexValue m esz vl f := by
  unfold State.evexSource at h
  unfold State.evexValue
  cases hrm : f.rm with
  | reg rm => rw [hrm] at h; exact (Except.ok.inj h).symm
  | mem a =>
    rw [hrm] at h
    cases hbc : f.bc with
    | true =>
      rw [hbc] at h
      obtain ⟨r, hr, rfl⟩ := except_map_eq_ok h
      rw [readOperand_eq_ok hr]
      rfl
    | false => rw [hbc] at h; exact readOperand_eq_ok h

/-- The state that a completed instruction leaves (R156). -/
def Shape.result (m : Mode) (s : State) : Shape → State
  | .mm esz f =>
    ((s.setMm f.reg (unpckl esz 64 (s.mmAt f.reg) (s.mmValue m f))).x87Any).advance m f.len
      (s.readEventOf m (legacyAddressing f) f.rm 32)
  | .xmm esz f =>
    (s.writeVec f.d (unpckl esz 128 (s.vLow 128 f.d) (s.xmmValue m f)) .keep).advance m f.len
      (s.readEventOf m (legacyAddressing f) f.rm 128)
  | .vex esz vl f =>
    (s.writeVec f.d (unpckl esz vl (s.vLow vl f.s1) (s.vexValue m vl f)) .zero).advance m f.len
      (s.readEventOf m (vexAddressing f) f.rm vl)
  | .evex esz vl f =>
    (s.writeVec f.d (s.masked esz f (unpckl esz vl (s.vLow vl f.s1) (s.evexValue m esz vl f))) .zero).advance m f.len
      (s.readEventOf m (evexAddressing esz vl f) f.rm (if f.bc then esz else vl))

/-- A completion that answers a state answers the closed form. -/
theorem finish_eq_ok {h : Shape} {m : Mode} {s t : State} (hf : h.finish m s = .ok t) : t = h.result m s := by
  cases h with
  | mm esz f =>
    obtain ⟨b, hb, rfl⟩ := except_map_eq_ok hf
    rw [mmSource_eq_ok hb]
    rfl
  | xmm esz f =>
    obtain ⟨b, hb, rfl⟩ := except_map_eq_ok hf
    rw [xmmSource_eq_ok hb]
    rfl
  | vex esz vl f =>
    obtain ⟨b, hb, rfl⟩ := except_map_eq_ok hf
    rw [vexSource_eq_ok hb]
    rfl
  | evex esz vl f =>
    obtain ⟨b, hb, rfl⟩ := except_map_eq_ok hf
    rw [evexSource_eq_ok hb]
    rfl

/-- A next state is the closed form, of a ready instruction in an admitted mode. -/
theorem exec_next_result {i : Instr} {s t : State} (h : exec i s = .next t) :
    ∃ m, s.mode? = .ok m ∧ Ready i s ∧ t = (shape i).result m s := by
  obtain ⟨m, hm, hc, hf⟩ := exec_eq_next h
  exact ⟨m, hm, (checks_ok_iff i s).mp hc, finish_eq_ok hf⟩

/-- No completion changes what memory lists (R57). -/
@[simp] theorem Shape.result_mem (h : Shape) (m : Mode) (s : State) : (h.result m s).mem = s.mem := by
  cases h <;> rfl

/-! ## Frames -/

/-- A completed instruction keeps its frame and falls through. -/
theorem exec_next_frame {i : Instr} {s t : State} (h : exec i s = .next t) :
    Frame i s t ∧ ∃ m, s.mode? = .ok m ∧ t.rip = nextRip m s.rip i.len := by
  obtain ⟨m, hm, -, hf⟩ := exec_eq_next h
  obtain ⟨hframe, hrip⟩ := finish_frame hf
  exact ⟨hframe, m, hm, hrip⟩

/-- Every frame leaves untouched what no form writes. -/
theorem Frame.untouched {i : Instr} {s t : State} (h : Frame i s t) : Untouched s t := by
  unfold Frame at h
  cases hs : shape i with
  | mm esz f => rw [hs] at h; exact MmFrame.untouched h
  | xmm esz f => rw [hs] at h; exact VecFrame.untouched h
  | vex esz vl f => rw [hs] at h; exact VecFrame.untouched h
  | evex esz vl f => rw [hs] at h; exact VecFrame.untouched h

/-- No completed instruction changes what no form writes. -/
theorem exec_next_untouched {i : Instr} {s t : State} (h : exec i s = .next t) : Untouched s t :=
  (exec_next_frame h).1.untouched

/-- The next instruction pointer as a number (R23). -/
theorem nextRip_long64_toNat (rip : QWord) (len : Nat) :
    (nextRip .long64 rip len).toNat = (rip.toNat + len) % 2 ^ 64 := by
  simp [nextRip]

theorem nextRip_prot32_toNat (rip : QWord) (len : Nat) :
    (nextRip .prot32 rip len).toNat = (rip.toNat + len) % 2 ^ 32 := by
  simp only [nextRip, BitVec.toNat_setWidth, BitVec.toNat_add, BitVec.toNat_ofNat]
  omega

/-- Settles O23: the frame is that of the completion, `rip` that of the mode. -/
theorem everyFormKeepsItsFrame : Obligations.EveryFormKeepsItsFrame := by
  unfold Obligations.EveryFormKeepsItsFrame
  intro i s t h
  obtain ⟨hframe, m, hm, hrip⟩ := exec_next_frame h
  refine ⟨hframe, fun h64 => ?_, fun h32 => ?_⟩
  · obtain rfl : m = .long64 := Except.ok.inj (hm.symm.trans h64)
    rw [hrip, nextRip_long64_toNat]
  · obtain rfl : m = .prot32 := Except.ok.inj (hm.symm.trans h32)
    rw [hrip, nextRip_prot32_toNat]

/-- Settles O57: a step that completes is one completed instruction. -/
theorem stepLeavesSystemStateUntouched : Obligations.StepLeavesSystemStateUntouched := by
  unfold Obligations.StepLeavesSystemStateUntouched
  intro s t h
  obtain ⟨m, i, -, -, -, hexec⟩ := step_eq_next h
  exact exec_next_untouched hexec

/-! ## The bits above the operation width -/

/-- `V[d]` after WRITEVEC (R152). -/
@[simp] theorem State.writeVec_vAt_same {w : Nat} (s : State) (d : BitVec 5) (val : BitVec w) (u : Upper) :
    (s.writeVec d val u).vAt d = upperBits (s.vAt d) val u := by
  rw [State.writeVec, State.setV_vAt_same]

/-- The low `w` bits after WRITEVEC are the value. -/
theorem State.writeVec_vLow {w : Nat} (hw : w ≤ 512) (s : State) (d : BitVec 5) (val : BitVec w) (u : Upper) :
    (s.writeVec d val u).vLow w d = val := by
  apply BitVec.eq_of_getLsbD_eq
  intro p hp
  simp [State.vLow, upperBits_getLsbD hw, hp]

/-- Keeping keeps the bits from `w` on. -/
theorem upperBits_keep_getLsbD {w p : Nat} (hw : w ≤ 512) (hp : w ≤ p) (old : VWord) (val : BitVec w) :
    (upperBits old val .keep).getLsbD p = old.getLsbD p := by
  rw [upperBits_getLsbD hw, if_neg (Nat.not_lt.mpr hp)]

/-- Zeroing zeroes the bits from `w` on. -/
theorem upperBits_zero_getLsbD {w p : Nat} (hw : w ≤ 512) (hp : w ≤ p) (old : VWord) (val : BitVec w) :
    (upperBits old val .zero).getLsbD p = false := by
  rw [upperBits_getLsbD hw, if_neg (Nat.not_lt.mpr hp)]

/-- No row is wider than the storage of a vector register. -/
theorem shape_vex_vl_le {i : Instr} {esz vl : Nat} {f : VexForm} (h : shape i = .vex esz vl f) : vl ≤ 512 := by
  have := shape_vex_vl h
  omega

theorem shape_evex_vl_le {i : Instr} {esz vl : Nat} {f : EvexForm} (h : shape i = .evex esz vl f) : vl ≤ 512 := by
  have := shape_evex_vl h
  omega

/-- A completed legacy 128-bit form keeps the bits from 128 on of its destination. -/
theorem exec_next_xmm_upper {i : Instr} {s t : State} {esz : Nat} {f : LegacyForm} (h : exec i s = .next t)
    (hs : shape i = .xmm esz f) {p : Nat} (hp : 128 ≤ p) : (t.vAt f.d).getLsbD p = (s.vAt f.d).getLsbD p := by
  obtain ⟨m, -, -, rfl⟩ := exec_next_result h
  simp [hs, Shape.result, upperBits_keep_getLsbD (by decide) hp]

/-- A completed VEX form zeroes the bits from `vl` on of its destination. -/
theorem exec_next_vex_upper {i : Instr} {s t : State} {esz vl : Nat} {f : VexForm} (h : exec i s = .next t)
    (hs : shape i = .vex esz vl f) {p : Nat} (hp : vl ≤ p) : (t.vAt f.d).getLsbD p = false := by
  obtain ⟨m, -, -, rfl⟩ := exec_next_result h
  simp [hs, Shape.result, upperBits_zero_getLsbD (shape_vex_vl_le hs) hp]

/-- A completed EVEX form zeroes the bits from `vl` on of its destination, whatever its mask. -/
theorem exec_next_evex_upper {i : Instr} {s t : State} {esz vl : Nat} {f : EvexForm} (h : exec i s = .next t)
    (hs : shape i = .evex esz vl f) {p : Nat} (hp : vl ≤ p) : (t.vAt f.d).getLsbD p = false := by
  obtain ⟨m, -, -, rfl⟩ := exec_next_result h
  simp [hs, Shape.result, upperBits_zero_getLsbD (shape_evex_vl_le hs) hp]

/-- Settles O11: the bits of WRITEVEC, then the destination of each shape. -/
theorem upperBitsKeptOrZeroed : Obligations.UpperBitsKeptOrZeroed := by
  unfold Obligations.UpperBitsKeptOrZeroed
  refine ⟨fun s d w val hw => ⟨fun u => s.writeVec_vLow hw d val u, fun p hp => ?_, fun p hp => ?_⟩,
    fun i s t h => ?_⟩
  · rw [State.writeVec_vAt_same, upperBits_keep_getLsbD hw hp]
  · rw [State.writeVec_vAt_same, upperBits_zero_getLsbD hw hp]
  · have hframe := (exec_next_frame h).1
    unfold Frame at hframe
    cases hs : shape i with
    | mm esz f => rw [hs] at hframe; exact MmFrame.mm hframe
    | xmm esz f => exact fun p hp => exec_next_xmm_upper h hs hp
    | vex esz vl f => exact fun p hp => exec_next_vex_upper h hs hp
    | evex esz vl f => exact fun p hp => exec_next_evex_upper h hs hp

/-! ## The invariant -/

/-- What fixes the mode is touched by no form. -/
theorem Untouched.mode? {s t : State} (h : Untouched s t) : t.mode? = s.mode? := by
  have hcs : t.cs = s.cs := h.segments .cs
  unfold State.mode? State.pe State.pg State.pae State.vm State.lma
  rw [h.smm, h.cr0, h.cr4, h.rflags, h.efer, hcs]

theorem Untouched.ripInside {s t : State} (h : Untouched s t) (m : Mode) (rip : QWord) :
    t.ripInside m rip = s.ripInside m rip := by
  have hcs : t.cs = s.cs := h.segments .cs
  cases m <;> simp only [State.ripInside, h.law, hcs]

theorem Untouched.maxvl {s t : State} (h : Untouched s t) : t.maxvl = s.maxvl := by
  simp only [State.maxvl, h.features]

theorem Untouched.nv {s t : State} (h : Untouched s t) : t.nv = s.nv := by
  simp only [State.nv, h.maxvl]

/-- Every machine has the 128-bit registers and 16 of them (R7, R26). -/
theorem le_maxvl (s : State) : 128 ≤ s.maxvl := by
  unfold State.maxvl
  split
  · omega
  · split <;> omega

theorem le_nv (s : State) : 16 ≤ s.nv := by
  unfold State.nv
  split <;> omega

/-- A register number without a high bit is below 16 (R88, R97). -/
theorem num5_false_lt (ext : Bool) (field : BitVec 3) : (num5 false ext field).toNat < 16 := by
  revert ext field
  decide

/-- The row's feature flags are present only where its registers are as wide as its vector length (R7). -/
theorem vex_le_maxvl {s : State} {esz vl : Nat} {f : VexForm} (hvl : vl = 128 ∨ vl = 256)
    (h : (Shape.vex esz vl f).FeaturesOk s) : vl ≤ s.maxvl := by
  obtain ⟨havx, havx2⟩ := h
  rcases hvl with rfl | rfl
  · exact le_maxvl s
  · have h2 : s.features.avx2 = true := havx2 (by decide)
    unfold State.maxvl
    split
    · omega
    · simp [h2]

/-- The feature flags of an EVEX row are present only where every register is there in full (R7, R26). -/
theorem evex_maxvl {s : State} {esz vl : Nat} {f : EvexForm} (h : (Shape.evex esz vl f).FeaturesOk s) :
    s.maxvl = 512 := by
  obtain ⟨hbw, hf, -⟩ := h
  have : s.features.avx512f = true ∨ s.features.avx512bw = true := by
    rcases Nat.lt_or_ge esz 32 with he | he
    · exact .inr (hbw he)
    · exact .inl (hf he)
  simp [State.maxvl, this]

/-- The clauses of the invariant about the vector registers. -/
structure VectorsFit (s : State) : Prop where
  width : ∀ i b, s.maxvl ≤ b → (s.vAt i).getLsbD b = false
  count : ∀ i : BitVec 5, s.nv ≤ i.toNat → s.vAt i = 0

theorem Invariant.vectorsFit {s : State} (h : Invariant s) : VectorsFit s := ⟨h.width, h.count⟩

/-- A write of one implemented register that sets no bit at or above `MAXVL` keeps the clauses. -/
theorem VecFrame.vectorsFit {s t : State} {d : BitVec 5} (h : VecFrame d s t) (hs : VectorsFit s)
    (hd : d.toNat < s.nv) (hx : ∀ b, s.maxvl ≤ b → (t.vAt d).getLsbD b = false) : VectorsFit t where
  width i b hb := by
    rw [h.untouched.maxvl] at hb
    by_cases hi : i = d
    · rw [hi, hx b hb]
    · rw [h.v i hi, hs.width i b hb]
  count i hi := by
    rw [h.untouched.nv] at hi
    have hne : i ≠ d := by rintro rfl; omega
    rw [h.v i hne, hs.count i hi]

/-- An MMX form writes no vector register. -/
theorem MmFrame.vectorsFit {s t : State} {d : BitVec 3} (h : MmFrame d s t) (hs : VectorsFit s) : VectorsFit t where
  width i b hb := by rw [h.v i, hs.width i b (h.untouched.maxvl ▸ hb)]
  count i hi := by rw [h.v i, hs.count i (h.untouched.nv ▸ hi)]

/-- A completed instruction keeps the clauses: a legacy or VEX form names a register below 16, and an EVEX form
completes only where `MAXVL` is 512 and `NV` is 32. -/
theorem exec_next_vectorsFit {i : Instr} {s t : State} (h : exec i s = .next t) (hfit : VectorsFit s) :
    VectorsFit t := by
  have hframe := (exec_next_frame h).1
  obtain ⟨m, -, hready, -⟩ := exec_next_result h
  have hfeat := hready.noUd.features
  have h16 := le_nv s
  unfold Frame at hframe
  cases hs : shape i with
  | mm esz f =>
    rw [hs] at hframe
    exact MmFrame.vectorsFit hframe hfit
  | xmm esz f =>
    rw [hs] at hframe
    have hd : f.d.toNat < 16 := num5_false_lt _ _
    refine VecFrame.vectorsFit hframe hfit (by omega) fun b hb => ?_
    rw [exec_next_xmm_upper h hs (le_trans (le_maxvl s) hb), hfit.width _ _ hb]
  | vex esz vl f =>
    rw [hs] at hframe hfeat
    have hd : f.d.toNat < 16 := num5_false_lt _ _
    refine VecFrame.vectorsFit hframe hfit (by omega) fun b hb => ?_
    exact exec_next_vex_upper h hs (le_trans (vex_le_maxvl (shape_vex_vl hs) hfeat) hb)
  | evex esz vl f =>
    rw [hs] at hframe hfeat
    have hmax := evex_maxvl hfeat
    have hnv : s.nv = 32 := by simp [State.nv, hmax]
    have hd : f.d.toNat < 32 := f.d.isLt
    refine VecFrame.vectorsFit hframe hfit (by omega) fun b hb => ?_
    exact exec_next_evex_upper h hs (le_trans (shape_evex_vl_le hs) (hmax ▸ hb))

/-- Settles O55: memory is not written, the registers by their frames, and the step has checked the new `rip`. -/
theorem stepKeepsInvariant : Obligations.StepKeepsInvariant := by
  unfold Obligations.StepKeepsInvariant
  intro s t hinv hstep
  obtain ⟨m, i, hm, -, hinside, hexec⟩ := step_eq_next hstep
  obtain ⟨hframe, m', hm', hrip⟩ := exec_next_frame hexec
  obtain rfl : m = m' := Except.ok.inj (hm.symm.trans hm')
  have hunt := hframe.untouched
  have hfit := exec_next_vectorsFit hexec hinv.vectorsFit
  refine ⟨?_, hfit.width, hfit.count, fun n hn => ?_⟩
  · obtain ⟨_, -, -, rfl⟩ := exec_next_result hexec
    rw [Shape.result_mem, hinv.memory]
  · obtain rfl : m = n := Except.ok.inj (hm.symm.trans (hunt.mode? ▸ hn))
    rw [hunt.ripInside, hrip, hinside]

/-! ## Reset -/

/-- Every vector register is 0 at reset. -/
theorem reset_vAt (i : BitVec 5) : State.reset.vAt i = 0 := by
  simp [State.vAt, State.reset]

/-- The reset state is in real-address mode (R36, R241). -/
theorem reset_mode : State.reset.mode? = .error .realAddress := by decide

/-- Settles O56: no byte, no register bit, and no admitted mode. -/
theorem resetHoldsInvariant : Obligations.ResetHoldsInvariant := by
  unfold Obligations.ResetHoldsInvariant
  refine ⟨reset_memory_wf, fun i b _ => ?_, fun i _ => reset_vAt i, fun m hm => ?_⟩
  · rw [reset_vAt]
    exact BitVec.getLsbD_zero
  · rw [reset_mode] at hm
    cases hm

/-- A step in a mode that is not admitted is refused by its name (D4). -/
theorem step_of_mode_error {s : State} {r : RefusedMode} (h : s.mode? = .error r) : step s = .refused (.mode r) := by
  have hc : s.current = .error (.refused (.mode r)) := by
    rw [State.current, State.launched, State.admitted, h]
    rfl
  rw [step, hc]
  rfl

/-- Settles O58: the table of R36, field by field; nothing runs, for the mode is not admitted. -/
theorem resetValues : Obligations.ResetValues := by
  unfold Obligations.ResetValues
  refine ⟨fun i _ _ => ?_, rfl, rfl, rfl, rfl, rfl, rfl, rfl, rfl, rfl, fun n hn => ?_, fun i => ?_, rfl, reset_vAt,
    fun i => ?_, rfl, rfl, reset_mode, step_of_mode_error reset_mode, fun i => exec_of_mode_error reset_mode⟩
  · simp [State.gAt, State.reset]
  · cases n with
    | cs => exact absurd rfl hn
    | _ => exact ⟨rfl, rfl, rfl⟩
  · simp [State.mmAt, State.reset]
  · simp [State.kAt, State.reset]

/-! ## Flags and MXCSR -/

/-- The admitted mode, by the two bits that tell `Long64` from `Prot32` (R32). -/
theorem mode?_eq_ok {s : State} {m : Mode} (h : s.mode? = .ok m) :
    m = if s.lma && s.cs.long then .long64 else .prot32 := by
  unfold State.mode? at h
  split at h
  · cases h
  split at h
  · cases h
  split at h
  · cases h
  split at h
  · next hlong =>
    split at h
    · rw [if_pos hlong, ← Except.ok.inj h]
    · cases h
  · next hlong =>
    split at h
    · rw [if_neg hlong, ← Except.ok.inj h]
    · cases h

/-- The closed form carries RFLAGS along and reads no flag. -/
theorem Shape.result_withRflags (h : Shape) (m : Mode) (s : State) (x : QWord) :
    h.result m { s with rflags := x } = { h.result m s with rflags := x } := by
  cases h <;> rfl

/-- Settles O25: RFLAGS is in the frame, and the two runs have one closed form. -/
theorem flagsUnchangedAndUnread : Obligations.FlagsUnchangedAndUnread := by
  unfold Obligations.FlagsUnchangedAndUnread
  refine ⟨fun i s t h => (exec_next_untouched h).rflags, fun i s x t t' h h' => ?_⟩
  obtain ⟨m, hm, -, rfl⟩ := exec_next_result h
  obtain ⟨m', hm', -, rfl⟩ := exec_next_result h'
  obtain rfl : m' = m := (mode?_eq_ok hm').trans (mode?_eq_ok hm).symm
  exact Shape.result_withRflags _ _ _ _

/-- The checks before the operand do not read MXCSR. -/
theorem Shape.checks_withMxcsr (h : Shape) (s : State) (x : DWord) :
    h.checks { s with mxcsr := x } = h.checks s := by
  cases h <;> rfl

/-- The completion carries MXCSR along and does not read it. -/
theorem Shape.finish_withMxcsr (h : Shape) (m : Mode) (s : State) (x : DWord) :
    h.finish m { s with mxcsr := x } = (h.finish m s).map fun t => { t with mxcsr := x } := by
  cases h with
  | mm esz f =>
    have hsrc : State.mmSource { s with mxcsr := x } m f = s.mmSource m f := rfl
    rw [Shape.finish, Shape.finish, hsrc]
    cases s.mmSource m f <;> rfl
  | xmm esz f =>
    have hsrc : State.xmmSource { s with mxcsr := x } m f = s.xmmSource m f := rfl
    rw [Shape.finish, Shape.finish, hsrc]
    cases s.xmmSource m f <;> rfl
  | vex esz vl f =>
    have hsrc : State.vexSource { s with mxcsr := x } m vl f = s.vexSource m vl f := rfl
    rw [Shape.finish, Shape.finish, hsrc]
    cases s.vexSource m vl f <;> rfl
  | evex esz vl f =>
    have hsrc : State.evexSource { s with mxcsr := x } m esz vl f = s.evexSource m esz vl f := rfl
    rw [Shape.finish, Shape.finish, hsrc]
    cases s.evexSource m esz vl f <;> rfl

/-- `mapNext` changes the state inside an outcome. -/
theorem outcome_map (g : State → State) (e : Except Stop State) : outcome (e.map g) = mapNext g (outcome e) := by
  cases e with
  | ok t => rfl
  | error x => cases x <;> rfl

/-- An instruction carries MXCSR along and does not read it. -/
theorem exec_withMxcsr (i : Instr) (s : State) (x : DWord) :
    exec i { s with mxcsr := x } = mapNext (fun t => { t with mxcsr := x }) (exec i s) := by
  cases hm : s.mode? with
  | error r => rw [exec_of_mode_error hm, exec_of_mode_error (s := { s with mxcsr := x }) hm, mapNext]
  | ok m =>
    have hc' := (shape i).checks_withMxcsr s x
    cases hc : firstStop ((shape i).checks s) with
    | error y =>
      rw [exec_of_stop hm hc, exec_of_stop (s := { s with mxcsr := x }) hm (hc' ▸ hc)]
      cases y <;> rfl
    | ok u =>
      rw [exec_of_checks hm hc, exec_of_checks (s := { s with mxcsr := x }) hm (hc' ▸ hc), Shape.finish_withMxcsr,
        outcome_map]

/-- No read of a memory operand raises #MF. -/
theorem memRead_not_mf {s : State} {m : Mode} {seg : SegName} {ea : QWord} {w : Nat} {al : AlignRule} {rip : QWord} :
    s.memRead m seg ea w al ≠ .error (.fault (.mf rip)) := by
  intro h
  rcases memRead_error h with h | h | ⟨-, h⟩ | h | ⟨code, address, h⟩ | ⟨-, -, h⟩
  · cases seg <;> cases h
  all_goals cases h

/-- Before the operand, #MF is raised for a pending x87 exception only (R207). -/
theorem checks_mf {h : Shape} {s : State} {rip : QWord} (hc : firstStop (h.checks s) = .error (.fault (.mf rip))) :
    s.x87Pending = true := by
  obtain ⟨c, hmem, hholds, hstop⟩ := firstStop_eq_error hc
  cases h with
  | mm esz f =>
    simp only [Shape.checks, State.mmCauses, List.mem_cons, List.not_mem_nil, or_false] at hmem
    rcases hmem with rfl | rfl | rfl | rfl | rfl | rfl
    on_goal 6 => exact hholds
    all_goals cases hstop
  | xmm esz f =>
    simp only [Shape.checks, State.xmmCauses, List.mem_cons, List.not_mem_nil, or_false] at hmem
    rcases hmem with rfl | rfl | rfl | rfl | rfl <;> cases hstop
  | vex esz vl f =>
    simp only [Shape.checks, State.vexCauses, List.mem_cons, List.not_mem_nil, or_false] at hmem
    rcases hmem with rfl | rfl | rfl | rfl | rfl <;> cases hstop
  | evex esz vl f =>
    simp only [Shape.checks, State.evexCauses, List.mem_cons, List.not_mem_nil, or_false] at hmem
    rcases hmem with rfl | rfl | rfl | rfl | rfl | rfl | rfl | rfl <;> cases hstop

/-- Settles O26: MXCSR is in the frame, no part of an instruction reads it, and #MF comes from one check. -/
theorem mxcsrUnchangedAndUnread : Obligations.MxcsrUnchangedAndUnread := by
  unfold Obligations.MxcsrUnchangedAndUnread
  refine ⟨fun i s t h => (exec_next_untouched h).mxcsr, exec_withMxcsr, fun i s rip h => ?_⟩
  obtain ⟨m, -, hchecks | ⟨-, hfinish⟩⟩ := exec_eq_fault h
  · exact checks_mf hchecks
  · obtain ⟨a, -, hread⟩ := finish_eq_error hfinish
    exact absurd hread memRead_not_mf

/-! ## Register numbers in `Prot32` -/

/-- A decoded operand makes the instruction from ModRM.reg and the parse of ModRM:r/m (R114 step 5). -/
theorem decodeOperand_eq_ok {m : Mode} {ps : List Prefix} {bad : Bool} {size : Nat} {modrm : Byte} {bs rest : List Byte}
    {build : BitVec 3 → Rm → Instr} {i : Instr} (h : decodeOperand m ps bad size modrm bs build = .ok (i, rest)) :
    ∃ rm, takeRm modrm bs = some (rm, rest) ∧ i = build (regField modrm) rm := by
  unfold decodeOperand at h
  split at h
  · cases h
  · split at h
    · next rm rest' hrm => cases h; exact ⟨rm, hrm, rfl⟩
    · cases h

/-- A matched row is one of the table. -/
theorem findRow_mem {α : Type} {rows : List (Row α)} {nf : List Byte} {row : Row α}
    (h : findRow rows nf = some row) : row ∈ rows :=
  List.mem_of_find?_eq_some h

/-- The fields of a form from which a register number of 8 or more could come are 0: there is no REX (R84), and the bits
that extend ModRM, SIB and `v` are clear (R100, R112). -/
def Shape.LowFields : Shape → Prop
  | .mm _ f => f.rex = none
  | .xmm _ f => f.rex = none
  | .vex _ _ f => f.r = false ∧ f.x = false ∧ f.b = false ∧ f.v.toNat < 8
  | .evex _ _ f => f.r = false ∧ f.x = false ∧ f.b = false ∧ f.r' = false ∧ f.v' = false ∧ f.v.toNat < 8

/-- A row of the LEGACY table is an MMX or a legacy 128-bit form of its fields. -/
theorem shape_legacyRow {row : Row LegacyForm} (h : row ∈ legacyRows) (f : LegacyForm) :
    ∃ esz, shape (row.build f) = .mm esz f ∨ shape (row.build f) = .xmm esz f := by
  simp only [legacyRows, List.mem_cons, List.not_mem_nil, or_false] at h
  rcases h with rfl | rfl | rfl | rfl | rfl | rfl | rfl
  · exact ⟨8, .inl rfl⟩
  · exact ⟨8, .inr rfl⟩
  · exact ⟨16, .inl rfl⟩
  · exact ⟨16, .inr rfl⟩
  · exact ⟨32, .inl rfl⟩
  · exact ⟨32, .inr rfl⟩
  · exact ⟨64, .inr rfl⟩

/-- A row of the VEX table is a VEX form of its fields. -/
theorem shape_vexRow {row : Row VexForm} (h : row ∈ vexRows) (f : VexForm) :
    ∃ esz vl, shape (row.build f) = .vex esz vl f := by
  simp only [vexRows, List.mem_cons, List.not_mem_nil, or_false] at h
  rcases h with rfl | rfl | rfl | rfl | rfl | rfl | rfl | rfl <;> exact ⟨_, _, rfl⟩

/-- A row of the EVEX table is an EVEX form of its fields. -/
theorem shape_evexRow {row : Row EvexForm} (h : row ∈ evexRows) (f : EvexForm) :
    ∃ esz vl, shape (row.build f) = .evex esz vl f := by
  simp only [evexRows, List.mem_cons, List.not_mem_nil, or_false] at h
  rcases h with rfl | rfl | rfl | rfl | rfl | rfl | rfl | rfl | rfl | rfl | rfl | rfl <;> exact ⟨_, _, rfl⟩

/-- A LEGACY string without REX has low fields. -/
theorem decodeLegacy_lowFields {m : Mode} {ps : List Prefix} {bs rest : List Byte} {i : Instr}
    (h : decodeLegacy m ps none bs = .ok (i, rest)) : (shape i).LowFields := by
  unfold decodeLegacy at h
  split at h
  · split at h
    · cases h
    · split at h
      · next row hrow =>
        obtain ⟨rm, -, rfl⟩ := decodeOperand_eq_ok h
        obtain ⟨esz, hs | hs⟩ := shape_legacyRow (findRow_mem hrow) _ <;> rw [hs] <;> rfl
      · cases h
  · cases h

/-- Three fixed bits, one by one. -/
theorem bits_of_extract_eq_seven {v : Byte} (h : v.extractLsb' 5 3 = 7) :
    v.getLsbD 7 = true ∧ v.getLsbD 6 = true ∧ v.getLsbD 5 = true := by
  revert v
  decide

/-- Four fixed bits, one by one. -/
theorem bits_of_extract_eq_fifteen {p : Byte} (h : p.extractLsb' 4 4 = 15) :
    p.getLsbD 7 = true ∧ p.getLsbD 6 = true ∧ p.getLsbD 5 = true ∧ p.getLsbD 4 = true := by
  revert p
  decide

/-- The complemented field `v` is below 8 when its highest bit is set (R97, R105). -/
theorem complement_lt_eight {b : Byte} (h : b.getLsbD 6 = true) : (~~~(b.extractLsb' 3 4)).toNat < 8 := by
  revert b
  decide

/-- A VEX string that `Prot32` accepts has low fields (R100). -/
theorem decodeVexBody_lowFields {ps : List Prefix} {rex : Option Rex} {short : Bool} {v1 v2 : Byte}
    {bs rest : List Byte} {i : Instr} (h : decodeVexBody .prot32 ps rex short v1 v2 bs = .ok (i, rest)) :
    (shape i).LowFields := by
  unfold decodeVexBody at h
  split at h
  · split at h
    · next row hrow =>
      split at h
      · cases h
      · next hfixed =>
        simp only [true_and, not_or, ne_eq, not_not, Bool.not_eq_false] at hfixed
        obtain ⟨hv1, hv2⟩ := hfixed
        obtain ⟨h7, h6, h5⟩ := bits_of_extract_eq_seven hv1
        obtain ⟨rm, -, rfl⟩ := decodeOperand_eq_ok h
        obtain ⟨esz, vl, hs⟩ := shape_vexRow (findRow_mem hrow) _
        rw [hs]
        exact ⟨by simp [h7], by simp [h6], by simp [h5], complement_lt_eight hv2⟩
    · cases h
  · cases h

/-- An EVEX string that `Prot32` accepts has low fields (R112). -/
theorem decodeEvexBody_lowFields {ps : List Prefix} {rex : Option Rex} {p0 p1 p2 : Byte} {bs rest : List Byte}
    {i : Instr} (h : decodeEvexBody .prot32 ps rex p0 p1 p2 bs = .ok (i, rest)) : (shape i).LowFields := by
  unfold decodeEvexBody at h
  split at h
  · split at h
    · next row hrow =>
      split at h
      · cases h
      · next hfixed =>
        simp only [true_and, not_or, ne_eq, not_not, Bool.not_eq_false] at hfixed
        obtain ⟨hp0, hp1, hp2⟩ := hfixed
        obtain ⟨h7, h6, h5, h4⟩ := bits_of_extract_eq_fifteen hp0
        obtain ⟨rm, -, rfl⟩ := decodeOperand_eq_ok h
        obtain ⟨esz, vl, hs⟩ := shape_evexRow (findRow_mem hrow) _
        rw [hs]
        exact ⟨by simp [h7], by simp [h6], by simp [h5], by simp [h4], by simp [hp2], complement_lt_eight hp1⟩
    · cases h
  · cases h

/-- There is no REX in `Prot32` (R84). -/
theorem takeRex_prot32 (bs : List Byte) : takeRex .prot32 bs = (none, bs) := by
  cases bs <;> rfl

/-- What `Prot32` decodes has low fields, in each format. -/
theorem decodeBody_lowFields {ps : List Prefix} {bs rest : List Byte} {i : Instr}
    (h : decodeBody .prot32 ps none bs = .ok (i, rest)) : (shape i).LowFields := by
  unfold decodeBody at h
  split at h
  · cases h
  split at h
  · exact decodeLegacy_lowFields h
  split at h
  · split at h
    · split at h
      · exact decodeVexBody_lowFields h
      · cases h
    · cases h
  split at h
  · split at h
    · split at h
      · exact decodeVexBody_lowFields h
      · cases h
    · cases h
  split at h
  · split at h
    · split at h
      · exact decodeEvexBody_lowFields h
      · cases h
    · cases h
  · cases h

theorem decode_prot32_lowFields {bs rest : List Byte} {i : Instr} (h : decode .prot32 bs = .ok (i, rest)) :
    (shape i).LowFields := by
  unfold decode at h
  split at h
  · cases h
  · rw [takeRex_prot32] at h
    exact decodeBody_lowFields h

/-- Without extension bits a register number is its 3-bit field. -/
theorem num4_false_lt (field : BitVec 3) : (num4 false field).toNat < 8 := by
  revert field
  decide

theorem num5_false_false_lt (field : BitVec 3) : (num5 false false field).toNat < 8 := by
  revert field
  decide

/-- With `V'` clear the first source of an EVEX form is `v`. -/
theorem evex_s1_lt {f : EvexForm} (hv' : f.v' = false) (hv : f.v.toNat < 8) : f.s1.toNat < 8 := by
  rw [EvexForm.s1, hv']
  generalize f.v = v at hv ⊢
  revert v
  decide

/-- Without the bits `B` and `X` an address names registers 0 to 7. -/
theorem addrNumbers_lt {c : Addressing} (hb : c.b = false) (hx : c.x = false) (a : Addr) :
    ∀ n ∈ addrNumbers c a, n < 8 := by
  cases a with
  | base rm d => simpa [addrNumbers, hb] using num4_false_lt rm
  | disp32 d => simp [addrNumbers]
  | sib ss i b d => simpa [addrNumbers, hb, hx] using ⟨num4_false_lt b, num4_false_lt i⟩
  | sibDisp32 ss i d => simpa [addrNumbers, hx] using num4_false_lt i

/-- Without a REX every REX bit is 0. -/
theorem rexBit_of_none {f : LegacyForm} (h : f.rex = none) (bit : Rex → Bool) : f.rexBit bit = false := by
  rw [LegacyForm.rexBit, h]

/-- A shape with low fields names registers 0 to 7 only (R27). -/
theorem Shape.LowFields.numbers_lt {h : Shape} (hlow : h.LowFields) : ∀ n ∈ h.numbers, n < 8 := by
  cases h with
  | mm esz f =>
    have hbit := rexBit_of_none hlow
    have haddr := addrNumbers_lt (c := legacyAddressing f) (hbit _) (hbit _)
    rw [Shape.numbers, List.forall_mem_cons]
    refine ⟨f.reg.isLt, ?_⟩
    cases f.rm with
    | reg rm => simpa using rm.isLt
    | mem a => exact haddr a
  | xmm esz f =>
    have hbit := rexBit_of_none hlow
    have haddr := addrNumbers_lt (c := legacyAddressing f) (hbit _) (hbit _)
    rw [Shape.numbers, List.forall_mem_cons]
    refine ⟨by rw [LegacyForm.d, hbit]; exact num5_false_false_lt _, ?_⟩
    cases f.rm with
    | reg rm => simpa [LegacyForm.s, hbit] using num5_false_false_lt rm
    | mem a => exact haddr a
  | vex esz vl f =>
    obtain ⟨hr, hx, hb, hv⟩ := hlow
    have haddr := addrNumbers_lt (c := vexAddressing f) hb hx
    rw [Shape.numbers, List.forall_mem_cons, List.forall_mem_cons]
    refine ⟨by rw [VexForm.d, hr]; exact num5_false_false_lt _, by simp [VexForm.s1]; omega, ?_⟩
    cases f.rm with
    | reg rm => simpa [VexForm.s2, hb] using num5_false_false_lt rm
    | mem a => exact haddr a
  | evex esz vl f =>
    obtain ⟨hr, hx, hb, hr', hv', hv⟩ := hlow
    have haddr := addrNumbers_lt (c := evexAddressing esz vl f) hb hx
    rw [Shape.numbers, List.forall_mem_cons, List.forall_mem_cons]
    refine ⟨by rw [EvexForm.d, hr, hr']; exact num5_false_false_lt _, evex_s1_lt hv' hv, ?_⟩
    cases f.rm with
    | reg rm => simpa [EvexForm.s2, hb, hx] using num5_false_false_lt rm
    | mem a => exact haddr a

/-- Settles O49: what `Prot32` decodes has low fields, and these name registers 0 to 7. -/
theorem prot32NamesLowRegisters : Obligations.Prot32NamesLowRegisters := by
  unfold Obligations.Prot32NamesLowRegisters
  exact fun bs rest i h => (decode_prot32_lowFields h).numbers_lt

end Sys2Proof.Machine

/-! # Memory: operands, their checks, and the bytes of an instruction (20_memory.md)

A read of a memory operand is put as what each of its checks, in the order of R58, makes of it; an instruction with a
memory operand does what its read does. The statements about single checks follow from these two. -/

namespace Sys2Proof.Machine

/-! ## Addresses -/

/-- `linear` in `Prot32`, as a number (R59). -/
theorem linear_prot32_toNat (s : State) (seg : SegName) (ea : QWord) :
    (s.linear .prot32 seg ea).toNat = ((s.segReg seg).base.toNat + ea.toNat) % 2 ^ 32 := by
  simp only [State.linear, BitVec.toNat_setWidth, BitVec.toNat_add]
  omega

/-- `linear` in `Long64`, as a number (R59). -/
theorem linear_long64_toNat (s : State) (seg : SegName) (ea : QWord) :
    (s.linear .long64 seg ea).toNat =
      if seg = .fs ∨ seg = .gs then ((s.segReg seg).base.toNat + ea.toNat) % 2 ^ 64 else ea.toNat := by
  cases seg <;> simp [State.linear, State.segReg]

/-- The address of byte `k` of an operand, as a number (log entry 12). -/
theorem byteAddr_long64_toNat (la : QWord) (k : Nat) : (byteAddr .long64 la k).toNat = (la.toNat + k) % 2 ^ 64 := by
  simp [byteAddr]

theorem byteAddr_prot32_toNat (la : QWord) (k : Nat) : (byteAddr .prot32 la k).toNat = (la.toNat + k) % 2 ^ 32 := by
  simp only [byteAddr, BitVec.toNat_setWidth, BitVec.toNat_add, BitVec.toNat_ofNat]
  omega

/-- The `n` highest bits are all clear or all set exactly when each of them is bit 63. -/
theorem highBits_uniform_iff {p n : Nat} (a : QWord) (hpn : p + n = 64) (hn : 0 < n) :
    (a.extractLsb' p n = 0 ∨ a.extractLsb' p n = BitVec.allOnes n) ↔
      ∀ q, p ≤ q → q < 64 → a.getLsbD q = a.getLsbD 63 := by
  have hbit : ∀ q, p ≤ q → q < 64 → (a.extractLsb' p n).getLsbD (q - p) = a.getLsbD q := fun q hp hq => by
    rw [BitVec.getLsbD_extractLsb', Nat.add_sub_cancel' hp]
    simp [show q - p < n by omega]
  constructor
  · rintro (h | h) q hp hq
    · rw [← hbit q hp hq, ← hbit 63 (by omega) (by omega), h]
      simp
    · rw [← hbit q hp hq, ← hbit 63 (by omega) (by omega), h]
      simp [show q - p < n by omega, show 63 - p < n by omega]
  · intro h
    have htop : ∀ j < n, (a.extractLsb' p n).getLsbD j = a.getLsbD 63 := fun j hj => by
      have := hbit (p + j) (by omega) (by omega)
      rwa [Nat.add_sub_cancel_left, h (p + j) (by omega) (by omega)] at this
    cases h63 : a.getLsbD 63 with
    | false =>
      refine .inl (BitVec.eq_of_getLsbD_eq fun j hj => ?_)
      rw [htop j hj, h63]
      simp
    | true =>
      refine .inr (BitVec.eq_of_getLsbD_eq fun j hj => ?_)
      rw [htop j hj, h63]
      simp [hj]

/-- Settles O43: each mode's linear address as a number, and the high bits of a canonical one. -/
theorem linearAndCanonical : Obligations.LinearAndCanonical := by
  unfold Obligations.LinearAndCanonical
  refine ⟨fun s seg ea => ⟨linear_prot32_toNat s seg ea, linear_long64_toNat s seg ea⟩, fun a => ⟨?_, ?_⟩⟩
  · rw [← highBits_uniform_iff a (p := 47) (n := 17) rfl (by decide)]
    simp [canonical]
  · rw [← highBits_uniform_iff a (p := 56) (n := 8) rfl (by decide)]
    simp [canonical]

/-! ## The value of an operand -/

/-- The bytes read are those of memory, least significant first (R50). -/
theorem readBytes_isMemValue (s : State) (m : Mode) (la : QWord) {w : Nat} (hw : 8 ∣ w) :
    IsMemValue s m la (s.readBytes m la w) := fun _ hk => elem_ofElems _ (by decide) hw hk

/-- The little-endian value of the operand's bytes is the one that is read. -/
theorem IsMemValue.eq_readBytes {s : State} {m : Mode} {la : QWord} {w : Nat} {b : BitVec w}
    (h : IsMemValue s m la b) (hw : 8 ∣ w) : b = s.readBytes m la w :=
  eq_of_elem_eq (by decide) hw fun k hk => (h k hk).trans (readBytes_isMemValue s m la hw k hk).symm

/-- Settles O44: what a read answers is `readBytes`, and its bytes are those of memory. -/
theorem memReadIsLittleEndian : Obligations.MemReadIsLittleEndian := by
  unfold Obligations.MemReadIsLittleEndian
  intro s m seg ea w al b hw h
  have h8 : 8 ∣ w := by
    simp only [List.mem_cons, List.not_mem_nil, or_false] at hw
    omega
  refine ⟨?_, fun k => ⟨byteAddr_long64_toNat _ k, byteAddr_prot32_toNat _ k⟩⟩
  rw [memRead_eq_ok h]
  exact readBytes_isMemValue s m _ h8

/-! ## The checks of a read, one after the other -/

/-- The checks of a read that come before page access pass: segment, 16-byte alignment, read side effects (R58, R65). -/
structure PagesReached (s : State) (m : Mode) (seg : SegName) (ea : QWord) (w : Nat) (al : AlignRule) : Prop where
  segment : SegmentOk s m seg ea (w / 8)
  aligned : al = .sse → (s.linear m seg ea).toNat % 16 = 0
  noSideEffects : ∀ j < w / 8, s.kindAt (byteAddr m (s.linear m seg ea) j).toNat ≠ .sideEffects

section Read

variable {s : State} {m : Mode} {seg : SegName} {ea : QWord} {w : Nat} {al : AlignRule} {x : Stop}

/-- Every class but the legacy 128-bit one, and an aligned operand of that one, passes the 16-byte check (R61). -/
theorem checkAlign16_of_aligned {la : QWord} (h : al = .sse → la.toNat % 16 = 0) : s.checkAlign16 al la = .ok () := by
  rw [checkAlign16_eq, if_neg]
  rintro ⟨hal, hla⟩
  exact hla (h hal)

/-- The segment check comes first. -/
theorem memRead_of_checkSegment (h : s.checkSegment m seg ea (w / 8) = .error x) :
    s.memRead m seg ea w al = .error x := by
  rw [State.memRead, h]
  rfl

/-- The 16-byte check comes next: it alone decides for a misaligned legacy operand. -/
theorem memRead_of_misaligned (hseg : SegmentOk s m seg ea (w / 8)) (hal : al = .sse)
    (hla : (s.linear m seg ea).toNat % 16 ≠ 0) : s.memRead m seg ea w al = .error (s.takeException .gp) := by
  rw [State.memRead, (checkSegment_ok_iff s m seg ea _).mpr hseg, checkAlign16_eq, if_pos ⟨hal, hla⟩]
  rfl

/-- Then a byte in a region with read side effects. -/
theorem memRead_of_sideEffects {k : Nat} (hseg : SegmentOk s m seg ea (w / 8))
    (hal : al = .sse → (s.linear m seg ea).toNat % 16 = 0) (hk : k < w / 8)
    (h : s.kindAt (byteAddr m (s.linear m seg ea) k).toNat = .sideEffects) :
    s.memRead m seg ea w al = .error (.refused .sideEffects) := by
  rw [State.memRead, (checkSegment_ok_iff s m seg ea _).mpr hseg, checkAlign16_of_aligned hal,
    checkSideEffects_refused hk h]
  rfl

/-- Behind these three, page access, alignment checking and the bytes are left. -/
theorem PagesReached.memRead_eq (h : PagesReached s m seg ea w al) :
    s.memRead m seg ea w al = (do
      s.checkAccess m (s.linear m seg ea) w
      s.checkAlignAc al (s.linear m seg ea) (w / 8)
      return s.readBytes m (s.linear m seg ea) w) := by
  rw [State.memRead, (checkSegment_ok_iff s m seg ea _).mpr h.segment, checkAlign16_of_aligned h.aligned,
    (checkSideEffects_ok_iff s m _ _).mpr h.noSideEffects]
  rfl

theorem PagesReached.memRead_of_checkAccess (h : PagesReached s m seg ea w al)
    (hx : s.checkAccess m (s.linear m seg ea) w = .error x) : s.memRead m seg ea w al = .error x := by
  rw [h.memRead_eq, hx]
  rfl

theorem PagesReached.memRead_of_checkAlignAc (h : PagesReached s m seg ea w al)
    (hok : s.checkAccess m (s.linear m seg ea) w = .ok ())
    (hx : s.checkAlignAc al (s.linear m seg ea) (w / 8) = .error x) : s.memRead m seg ea w al = .error x := by
  rw [h.memRead_eq, hok, hx]
  rfl

theorem PagesReached.memRead_of_passed (h : PagesReached s m seg ea w al)
    (hok : s.checkAccess m (s.linear m seg ea) w = .ok ())
    (hac : s.checkAlignAc al (s.linear m seg ea) (w / 8) = .ok ()) :
    s.memRead m seg ea w al = .ok (s.readBytes m (s.linear m seg ea) w) := by
  rw [h.memRead_eq, hok, hac]
  rfl

end Read

/-! ## Page access and alignment checking -/

/-- The lowest denied byte is reported where the bytes up to it are checked in any case (R62, R56). -/
theorem checkAccess_of_denied {s : State} {m : Mode} {la : QWord} {w k : Nat} {code : PfCode}
    (hk : k < if w = 128 then 8 else w / 8) (hlow : ∀ j < k, ByteOk s m la j)
    (hden : s.kindAt (byteAddr m la k).toNat = .denied code) :
    s.checkAccess m la w =
      .error (s.takeException fun rip => .pf rip (code.bits s.cpl) (byteAddr m la k)) := by
  rw [State.checkAccess, deniedByte_some (Nat.zero_le k) (by rwa [Nat.zero_add]) (fun j _ => hlow j) hden]

/-- A lowest denied byte in the upper half of a 128-bit operand is reported unless FETCH64 holds (R56, D7). -/
theorem checkAccess_of_upper_denied {s : State} {m : Mode} {la : QWord} {k : Nat} {code : PfCode} (h8 : 8 ≤ k)
    (h16 : k < 16) (hlow : ∀ j < k, ByteOk s m la j) (hden : s.kindAt (byteAddr m la k).toNat = .denied code) :
    s.checkAccess m la 128 =
      if Config.fetch64 s.draws then .ok ()
      else .error (s.takeException fun rip => .pf rip (code.bits s.cpl) (byteAddr m la k)) := by
  have hlower : s.deniedByte m la 0 8 = none := deniedByte_none fun j _ hj => hlow j (by omega)
  have hupper : s.deniedByte m la 8 8 = some (code.bits s.cpl, byteAddr m la k) :=
    deniedByte_some h8 (by omega) (fun j _ => hlow j) hden
  simp only [State.checkAccess, if_true, hlower, hupper]

/-- The m32 operand of an MMX form under alignment checking (R61). -/
theorem checkAlignAc_mmx_of_misaligned {s : State} {la : QWord} {n : Nat} (hac : s.alignChecking = true)
    (hla : la.toNat % 4 ≠ 0) : s.checkAlignAc .mmx la n = .error (s.takeException .ac) := by
  simp [State.checkAlignAc, hac, hla]

/-- A VEX or EVEX operand off its size under alignment checking: as the free choice says (U6). -/
theorem checkAlignAc_vector_of_misaligned {s : State} {la : QWord} {n : Nat} (hac : s.alignChecking = true)
    (hla : la.toNat % n ≠ 0) :
    s.checkAlignAc .vector la n = if Config.vexAlignCheck s.draws then .error (s.takeException .ac) else .ok () := by
  simp [State.checkAlignAc, hac, hla]

/-! ## An instruction with a memory operand -/

@[simp] theorem outcome_ok (t : State) : outcome (.ok t) = .next t := rfl

@[simp] theorem outcome_takeException (s : State) (e : QWord → Fault) :
    outcome (.error (s.takeException e)) = .fault (e s.rip) := rfl

@[simp] theorem outcome_refused (r : Refusal) : outcome (.error (.refused r)) = .refused r := rfl

section Operand

variable {i : Instr} {m : Mode} {s : State} {a : Addr}

/-- A ready instruction stops where the read of its operand does. -/
theorem exec_of_read_error {x : Stop} (hm : s.mode? = .ok m) (hr : Ready i s) (ha : (shape i).rm = .mem a)
    (hx : (shape i).operandRead m a s = .error x) : exec i s = outcome (.error x) := by
  rw [exec_of_ready hm hr, finish_mem_error ha hx]

/-- A ready instruction completes where the read of its operand answers. -/
theorem exec_of_read_ok {b : BitVec (shape i).width} (hm : s.mode? = .ok m) (hr : Ready i s)
    (ha : (shape i).rm = .mem a) (hb : (shape i).operandRead m a s = .ok b) :
    exec i s = .next ((shape i).result m s) := by
  obtain ⟨t, ht⟩ := finish_mem_ok ha hb
  rw [exec_of_ready hm hr, ht, finish_eq_ok ht, outcome_ok]

/-- A ready instruction whose memory operand, if any, is readable completes. -/
theorem exec_of_operandOk (hm : s.mode? = .ok m) (hr : Ready i s) (hop : OperandOk i m s) :
    exec i s = .next ((shape i).result m s) := by
  cases hrm : (shape i).rm with
  | reg r =>
    obtain ⟨t, ht⟩ := finish_reg_ok (h := shape i) (m := m) (s := s) (by rw [hrm]; rfl)
    rw [exec_of_ready hm hr, ht, finish_eq_ok ht, outcome_ok]
  | mem a =>
    obtain ⟨hseg, hbytes, halign⟩ := hop a hrm
    exact exec_of_read_ok hm hr hrm (memRead_ok hseg hbytes halign)

end Operand

/-- Settles O33: the segment check is the first of the read. -/
theorem segmentCheckRaises : Obligations.SegmentCheckRaises := by
  unfold Obligations.SegmentCheckRaises
  intro i m s a hm hr ha hexp hseg
  have hx := checkSegment_fails s m _ _ _ hexp hseg
  rw [exec_of_read_error hm hr ha (memRead_of_checkSegment hx), outcome_takeException]
  cases (shape i).segment m a <;> rfl

/-- A legacy 128-bit form is the only one of its alignment, and has 16 bytes (R52, R61). -/
theorem Shape.width_of_sse {h : Shape} (hal : h.alignment = .sse) : h.width = 128 := by
  cases h with
  | xmm esz f => rfl
  | _ => cases hal

/-- Settles O34: the 16-byte check is the second of the read. -/
theorem misalignedLegacyRaisesGp : Obligations.MisalignedLegacyRaisesGp := by
  unfold Obligations.MisalignedLegacyRaisesGp
  intro i m s a hm hr ha hal hseg hla
  have hw : (shape i).width / 8 = 16 := by rw [Shape.width_of_sse hal]
  exact exec_of_read_error hm hr ha (memRead_of_misaligned (hw ▸ hseg) hal hla)

/-- Settles O35: no check before page access fails, and page access reports the lowest denied byte. -/
theorem deniedByteRaisesPf : Obligations.DeniedByteRaisesPf := by
  unfold Obligations.DeniedByteRaisesPf
  intro i m s a k code hm hr ha hseg hal hse hk hlow hden
  have hreach : PagesReached s m _ _ (shape i).width (shape i).alignment := ⟨hseg, hal, hse⟩
  exact exec_of_read_error hm hr ha (hreach.memRead_of_checkAccess (checkAccess_of_denied hk hlow hden))

/-- Settles O37: the operand is readable, so alignment checking decides. -/
theorem alignmentChecking : Obligations.AlignmentChecking := by
  unfold Obligations.AlignmentChecking
  intro i m s a hm hr ha hac hseg hbytes
  have hreach : ∀ al, (shape i).alignment = al → al ≠ .sse →
      PagesReached s m ((shape i).segment m a) ((shape i).ea m a s) (shape i).width (shape i).alignment :=
    fun al hal hne => ⟨hseg, fun h => absurd (hal.symm.trans h) hne, fun j hj => (hbytes j hj).not_sideEffects⟩
  have hpages := checkAccess_ok hbytes
  refine ⟨fun hal hla => ?_, fun hal hla => ⟨fun hu6 => ?_, fun hu6 => ?_⟩⟩
  · have hx := checkAlignAc_mmx_of_misaligned (n := (shape i).width / 8) hac hla
    exact exec_of_read_error hm hr ha ((hreach _ hal (by decide)).memRead_of_checkAlignAc hpages (hal ▸ hx))
  · have hx := checkAlignAc_vector_of_misaligned hac hla
    rw [hu6, if_pos rfl] at hx
    exact exec_of_read_error hm hr ha ((hreach _ hal (by decide)).memRead_of_checkAlignAc hpages (hal ▸ hx))
  · have hx := checkAlignAc_vector_of_misaligned hac hla
    rw [hu6, if_neg Bool.false_ne_true] at hx
    exact ⟨_, exec_of_read_ok hm hr ha ((hreach _ hal (by decide)).memRead_of_passed hpages (hal ▸ hx))⟩

/-- An expand-down segment that is not null and readable is refused, whatever its limit (R59). -/
theorem checkSegment_of_expandDown {s : State} {seg : SegName} (ea : QWord) (n : Nat)
    (hnull : (s.segReg seg).isNull = false) (hread : (s.segReg seg).readable = true)
    (hexp : (s.segReg seg).expandDown = true) :
    s.checkSegment .prot32 seg ea n = .error (.refused .expandDown) := by
  simp [State.checkSegment, hnull, hread, hexp]

/-- Settles O38: the third check of the read, and a part of the first. -/
theorem refusedOperands : Obligations.RefusedOperands := by
  unfold Obligations.RefusedOperands
  refine ⟨fun i m s a hm hr ha hseg hal ⟨k, hk, hkind⟩ => ?_, fun i s a hm hr ha hnull hread hexp => ?_⟩
  · exact exec_of_read_error hm hr ha (memRead_of_sideEffects hseg hal hk hkind)
  · exact exec_of_read_error hm hr ha (memRead_of_checkSegment (checkSegment_of_expandDown _ _ hnull hread hexp))

/-! ## FETCH64 -/

/-- The checks before the operand do not read the accessibility map. -/
theorem Ready.withMap {i : Instr} {s : State} (h : Ready i s) (x : List Region) : Ready i { s with map := x } := by
  have hc : (shape i).checks { s with map := x } = (shape i).checks s := by cases shape i <;> rfl
  rw [← checks_ok_iff, hc, checks_ok_iff]
  exact h

/-- The closed form carries the accessibility map along and does not read it. -/
theorem Shape.result_withMap (h : Shape) (m : Mode) (s : State) (x : List Region) :
    h.result m { s with map := x } = { h.result m s with map := x } := by
  cases h <;> rfl

@[simp] theorem Shape.result_map (h : Shape) (m : Mode) (s : State) : (h.result m s).map = s.map := by
  cases h <;> rfl

/-- With an empty map every byte is readable (log entry 4). -/
theorem byteOk_of_map_nil (s : State) (m : Mode) (la : QWord) (k : Nat) : ByteOk { s with map := [] } m la k :=
  .inl rfl

/-- `AlignOk` holds a legacy operand to 16 bytes. -/
theorem AlignOk.aligned {s : State} {al : AlignRule} {la : QWord} {n : Nat} (h : AlignOk s al la n) :
    al = .sse → la.toNat % 16 = 0 := by
  rintro rfl
  exact h

/-- An operand whose segment and alignment pass completes once the map is empty. -/
theorem exec_of_map_nil {i : Instr} {m : Mode} {s : State} {a : Addr} (hm : s.mode? = .ok m) (hr : Ready i s)
    (ha : (shape i).rm = .mem a)
    (hseg : SegmentOk s m ((shape i).segment m a) ((shape i).ea m a s) ((shape i).width / 8))
    (hal : AlignOk s (shape i).alignment ((shape i).la m a s) ((shape i).width / 8)) :
    exec i { s with map := [] } = .next { (shape i).result m s with map := [] } := by
  have hop : OperandOk i m { s with map := [] } := by
    intro a' ha'
    obtain rfl : a' = a := Rm.mem.inj (ha'.symm.trans ha)
    refine ⟨?_, fun k _ => byteOk_of_map_nil s m _ k, hal⟩
    cases m <;> exact hseg
  rw [exec_of_operandOk (s := { s with map := [] }) hm (hr.withMap []) hop, Shape.result_withMap]

/-- Settles O36: FETCH64 decides whether the denied byte is checked, and no byte of the upper half is refused. -/
theorem upperHalfDeniedEitherWay : Obligations.UpperHalfDeniedEitherWay := by
  unfold Obligations.UpperHalfDeniedEitherWay
  intro i m s a k code hm hr ha hw hseg hal hse h8 h16 hlow hden
  have hbytes : (shape i).width / 8 = 16 := by rw [hw]
  rw [← hbytes] at hseg hal hse
  have hreach : PagesReached s m _ _ (shape i).width (shape i).alignment := ⟨hseg, hal.aligned, hse⟩
  have hpages := checkAccess_of_upper_denied h8 h16 hlow hden
  rw [← hw] at hpages
  refine ⟨fun hf => ?_, fun hf => ?_⟩
  · rw [hf, if_neg Bool.false_ne_true] at hpages
    exact exec_of_read_error hm hr ha (hreach.memRead_of_checkAccess hpages)
  · rw [hf, if_pos rfl] at hpages
    have hexec := exec_of_read_ok hm hr ha (hreach.memRead_of_passed hpages (checkAlignAc_ok hal))
    refine ⟨?_, _, hexec⟩
    rw [hexec, exec_of_map_nil hm hr ha hseg hal, mapNext, ← Shape.result_map (shape i) m s]

/-- The recorded event of a completed instruction (R56 item 3). -/
theorem Shape.result_readEvent (h : Shape) (m : Mode) (s : State) :
    (h.result m s).readEvent = s.readEventOf m h.addressing h.rm h.width := by
  cases h <;> rfl

/-- Settles O45: the event is that of the closed form. -/
theorem readEventRecorded : Obligations.ReadEventRecorded := by
  unfold Obligations.ReadEventRecorded
  intro i m s t hm h
  obtain ⟨m', hm', -, rfl⟩ := exec_next_result h
  obtain rfl : m' = m := Except.ok.inj (hm'.symm.trans hm)
  refine ⟨fun r hr => ?_, fun a ha => ?_⟩
  · rw [Shape.result_readEvent, hr, State.readEventOf_reg]
  · rw [Shape.result_readEvent, ha, State.readEventOf_mem]
    rfl

/-- Settles O24: no completion touches memory, and the frame names one register of the destination's file. -/
theorem noFormWritesMemory : Obligations.NoFormWritesMemory := by
  unfold Obligations.NoFormWritesMemory
  intro i s t h
  obtain ⟨m, -, -, ht⟩ := exec_next_result h
  have hframe := (exec_next_frame h).1
  refine ⟨⟨by rw [ht, Shape.result_mem], hframe.untouched.memory⟩, ?_⟩
  unfold Frame at hframe
  cases hs : shape i with
  | mm esz f => rw [hs] at hframe; exact MmFrame.mm hframe
  | xmm esz f => rw [hs] at hframe; exact VecFrame.v hframe
  | vex esz vl f => rw [hs] at hframe; exact VecFrame.v hframe
  | evex esz vl f => rw [hs] at hframe; exact VecFrame.v hframe

end Sys2Proof.Machine

/-! # Embedded broadcast (20_memory.md R54, 40_interleave_primitives.md R142)

`unpckl` at doublewords and quadwords equals the blocks of the source, lane by lane; a completed EVEX form leaves the
masked result of `unpckl` on its two sources; the second source of a broadcast form is its one element everywhere. -/

namespace Sys2Proof.Machine

/-! ## `unpckl` and the source's blocks -/

/-- An element of the low part of a concatenation. -/
theorem elem_append_low {e w n q : Nat} (x : BitVec w) (y : BitVec n) (he : e ∣ n) (hq : q < n / e) :
    elem e (x ++ y) q = elem e y q := by
  have hlt : (q + 1) * e ≤ n := (Nat.mul_le_mul_right e hq).trans (Nat.div_mul_cancel he).le
  refine BitVec.eq_of_getLsbD_eq fun p hp => ?_
  rw [elem_getLsbD, elem_getLsbD, BitVec.getLsbD_append, if_pos (by rw [Nat.add_mul] at hlt; omega)]

/-- An element of the high part of a concatenation. -/
theorem elem_append_high {e w n : Nat} (x : BitVec w) (y : BitVec n) (he : e ∣ n) (q : Nat) :
    elem e (x ++ y) (n / e + q) = elem e x q := by
  have hpos : (n / e + q) * e = n + q * e := by rw [Nat.add_mul, Nat.div_mul_cancel he]
  refine BitVec.eq_of_getLsbD_eq fun p hp => ?_
  rw [elem_getLsbD, elem_getLsbD, BitVec.getLsbD_append, if_neg (by omega), hpos, Nat.add_assoc,
    Nat.add_sub_cancel_left]

/-- The source of a result element is no later element (R139). -/
theorem sourceIndex_le (epl q : Nat) : sourceIndex epl q ≤ q := by
  have hdiv := Nat.div_add_mod' q epl
  unfold sourceIndex
  omega

/-- Whole lanes below move the source of a result element along. -/
theorem sourceIndex_add_lanes {epl : Nat} (hepl : 0 < epl) (c q : Nat) :
    sourceIndex epl (c * epl + q) = c * epl + sourceIndex epl q := by
  have hdiv : (c * epl + q) / epl = c + q / epl := by
    rw [Nat.add_comm, Nat.add_mul_div_right _ _ hepl, Nat.add_comm]
  have hmod : (c * epl + q) % epl = q % epl := by rw [Nat.add_comm, Nat.add_mul_mod_self_right]
  rw [sourceIndex, sourceIndex, hdiv, hmod, Nat.add_mul, Nat.add_assoc]

/-- A width of whole 128-bit lanes. -/
theorem laneWidth_of_dvd {n : Nat} (hn : 128 ∣ n) : laneWidth n = 128 := by
  have hne : n ≠ 64 := by omega
  rw [laneWidth, if_neg hne]

/-- `UNPCKL` works on each part of whole lanes alone (R139). -/
theorem unpckl_append {esz k n : Nat} (hesz : 0 < esz) (hdvd : esz ∣ 128) (hk : 128 ∣ k) (hn : 128 ∣ n)
    (a₁ b₁ : BitVec k) (a₀ b₀ : BitVec n) :
    unpckl esz (k + n) (a₁ ++ a₀) (b₁ ++ b₀) = unpckl esz k a₁ b₁ ++ unpckl esz n a₀ b₀ := by
  have hek : esz ∣ k := hdvd.trans hk
  have hen : esz ∣ n := hdvd.trans hn
  have hekn : esz ∣ k + n := Nat.dvd_add hek hen
  have hepl : 0 < 128 / esz := Nat.div_pos (Nat.le_of_dvd (by decide) hdvd) hesz
  have hlanes : n / esz = n / 128 * (128 / esz) := by
    rw [← Nat.mul_div_assoc _ hdvd, Nat.div_mul_cancel hn]
  refine eq_of_elem_eq hesz hekn fun q hq => ?_
  rw [elem_unpckl hesz hekn _ _ hq, laneWidth_of_dvd (Nat.dvd_add hk hn)]
  rcases Nat.lt_or_ge q (n / esz) with hlow | hhigh
  · have hsrc : sourceIndex (128 / esz) q < n / esz := (sourceIndex_le _ q).trans_lt hlow
    rw [elem_append_low _ _ hen hlow, elem_unpckl hesz hen _ _ hlow, laneWidth_of_dvd hn,
      elem_append_low _ _ hen hsrc, elem_append_low _ _ hen hsrc]
  · obtain ⟨r, rfl⟩ := Nat.exists_eq_add_of_le hhigh
    have hr : r < k / esz := by
      rw [Nat.add_comm k n, Nat.add_div_of_dvd_right hen] at hq
      omega
    have hparity : (n / esz + r) % (128 / esz) = r % (128 / esz) := by
      rw [hlanes, Nat.add_comm, Nat.add_mul_mod_self_right]
    have hsrc : sourceIndex (128 / esz) (n / esz + r) = n / esz + sourceIndex (128 / esz) r := by
      rw [hlanes, sourceIndex_add_lanes hepl]
    rw [elem_append_high _ _ hen, elem_unpckl hesz hek _ _ hr, laneWidth_of_dvd hk, hparity, hsrc,
      elem_append_high _ _ hen, elem_append_high _ _ hen]

/-- A 512-bit value is its two halves. -/
theorem halves_append (a : BitVec 512) : a.extractLsb 511 256 ++ a.extractLsb 255 0 = a := by
  refine BitVec.eq_of_getLsbD_eq fun p hp => ?_
  rw [BitVec.getLsbD_append, BitVec.getLsbD_extractLsb, BitVec.getLsbD_extractLsb]
  split
  · next h => simp [h]
  · next h => simp [show p - 256 < 256 by omega, show 256 + (p - 256) = p by omega]

/-- A 512-bit block is that of 256 bits on each half (R139, R148, R151). -/
theorem unpckl_512_eq {esz : Nat} (hesz : 0 < esz) (hdvd : esz ∣ 128)
    {block : BitVec 256 → BitVec 256 → BitVec 256} (h256 : ∀ a b, unpckl esz 256 a b = block a b) (a b : BitVec 512) :
    unpckl esz 512 a b =
      block (a.extractLsb 511 256) (b.extractLsb 511 256) ++ block (a.extractLsb 255 0) (b.extractLsb 255 0) := by
  rw [← h256, ← h256, ← unpckl_append hesz hdvd (by decide) (by decide)]
  congr 1 <;> exact (halves_append _).symm

/-- INTERLEAVE_DWORDS is UNPCKL (R146). -/
theorem unpckl_eq_interleaveDwords (a b : BitVec 128) : unpckl 32 128 a b = interleaveDwords a b := by
  have hblock : interleaveDwords a b = elem 32 b 1 ++ elem 32 a 1 ++ elem 32 b 0 ++ elem 32 a 0 := rfl
  refine eq_of_elem_eq (esz := 32) (by decide) (by decide) fun q hq => ?_
  rw [elem_unpckl (by decide) (by decide) a b hq, hblock]
  interval_cases q <;> simp only [elem_append_succ, elem_append_zero, elem_self] <;> rfl

/-- INTERLEAVE_DWORDS_256b is UNPCKL (R147). -/
theorem unpckl_eq_interleaveDwords256 (a b : BitVec 256) : unpckl 32 256 a b = interleaveDwords256 a b := by
  have hblock : interleaveDwords256 a b =
      elem 32 b 5 ++ elem 32 a 5 ++ elem 32 b 4 ++ elem 32 a 4 ++ elem 32 b 1 ++ elem 32 a 1 ++ elem 32 b 0
        ++ elem 32 a 0 := rfl
  refine eq_of_elem_eq (esz := 32) (by decide) (by decide) fun q hq => ?_
  rw [elem_unpckl (by decide) (by decide) a b hq, hblock]
  interval_cases q <;> simp only [elem_append_succ, elem_append_zero, elem_self] <;> rfl

/-- INTERLEAVE_DWORDS_512b is UNPCKL (R148). -/
theorem unpckl_eq_interleaveDwords512 (a b : BitVec 512) : unpckl 32 512 a b = interleaveDwords512 a b :=
  unpckl_512_eq (by decide) (by decide) unpckl_eq_interleaveDwords256 a b

/-- INTERLEAVE_QWORDS is UNPCKL (R149). -/
theorem unpckl_eq_interleaveQwords (a b : BitVec 128) : unpckl 64 128 a b = interleaveQwords a b := by
  have hblock : interleaveQwords a b = elem 64 b 0 ++ elem 64 a 0 := rfl
  refine eq_of_elem_eq (esz := 64) (by decide) (by decide) fun q hq => ?_
  rw [elem_unpckl (by decide) (by decide) a b hq, hblock]
  interval_cases q <;> simp only [elem_append_succ, elem_append_zero, elem_self] <;> rfl

/-- INTERLEAVE_QWORDS_256b is UNPCKL (R150). -/
theorem unpckl_eq_interleaveQwords256 (a b : BitVec 256) : unpckl 64 256 a b = interleaveQwords256 a b := by
  have hblock : interleaveQwords256 a b = elem 64 b 2 ++ elem 64 a 2 ++ elem 64 b 0 ++ elem 64 a 0 := rfl
  refine eq_of_elem_eq (esz := 64) (by decide) (by decide) fun q hq => ?_
  rw [elem_unpckl (by decide) (by decide) a b hq, hblock]
  interval_cases q <;> simp only [elem_append_succ, elem_append_zero, elem_self] <;> rfl

/-- INTERLEAVE_QWORDS_512b is UNPCKL (R151). -/
theorem unpckl_eq_interleaveQwords512 (a b : BitVec 512) : unpckl 64 512 a b = interleaveQwords512 a b :=
  unpckl_512_eq (by decide) (by decide) unpckl_eq_interleaveQwords256 a b

/-! ## What a completed EVEX form leaves -/

/-- MASKWRITE on the destination is the masked result (R104, R141). -/
theorem maskedResult_of_vLow {esz vl : Nat} {f : EvexForm} {s t : State} {r : BitVec vl} (hesz : 0 < esz)
    (hdvd : esz ∣ vl) (h : t.vLow vl f.d = s.masked esz f r) : MaskedResult esz f s t r := by
  intro j hj
  rw [h, State.masked, elem_maskWrite hesz hdvd _ _ _ _ _ hj]
  simp only [Bool.or_eq_true, decide_eq_true_eq, or_comm]

/-- An EVEX form completes with the masked `UNPCKL` of its sources, zeros above `vl`, and its frame (R156). -/
theorem exec_evex_of_operandOk {i : Instr} {m : Mode} {s : State} {esz vl : Nat} {f : EvexForm}
    (hshape : shape i = .evex esz vl f) (hesz : 0 < esz) (hdvd : esz ∣ vl) (hm : s.mode? = .ok m) (hr : Ready i s)
    (hop : OperandOk i m s) :
    ∃ t, exec i s = .next t
      ∧ MaskedResult esz f s t (unpckl esz vl (s.vLow vl f.s1) (s.evexValue m esz vl f))
      ∧ (∀ p, vl ≤ p → (t.vAt f.d).getLsbD p = false)
      ∧ t.rip = nextRip m s.rip i.len ∧ VecFrame f.d s t := by
  have hexec := exec_of_operandOk hm hr hop
  obtain ⟨hframe, m', hm', hrip⟩ := exec_next_frame hexec
  obtain rfl : m' = m := Except.ok.inj (hm'.symm.trans hm)
  unfold Frame at hframe
  rw [hshape] at hframe hexec
  refine ⟨_, hexec, maskedResult_of_vLow hesz hdvd ?_, fun p hp => exec_next_evex_upper hexec hshape hp, ?_, hframe⟩
  · exact s.writeVec_vLow (shape_evex_vl_le hshape) _ _ _
  · rw [← hshape, hrip]

/-- The second source of a broadcast form: the operand's element at every position (R54, R142). -/
theorem evexValue_of_broadcast {m : Mode} {s : State} {i : Instr} {esz vl : Nat} {f : EvexForm} {a : Addr}
    {b : BitVec esz} {src : BitVec vl} (hshape : shape i = .evex esz vl f) (hrm : f.rm = .mem a) (hbc : f.bc = true)
    (hesz : 0 < esz) (h8 : 8 ∣ esz) (hdvd : esz ∣ vl) (hb : IsMemValue s m ((shape i).la m a s) b)
    (hsrc : ∀ j < vl / esz, elem esz src j = b) : s.evexValue m esz vl f = src := by
  rw [hshape] at hb
  have hvalue : b = s.operandValue m (evexAddressing esz vl f) a esz := hb.eq_readBytes h8
  simp only [State.evexValue, hrm, hbc, if_true, ← hvalue]
  exact eq_of_elem_eq hesz hdvd fun j hj => (elem_bcast hesz hdvd b hj).trans (hsrc j hj).symm

/-- A broadcast form whose row interleaves as `block` does. -/
theorem evexBroadcastResult_of_row {esz vl : Nat} {row : EvexForm → Instr}
    {block : BitVec vl → BitVec vl → BitVec vl} (hshape : ∀ f, shape (row f) = .evex esz vl f)
    (hblock : ∀ a b, unpckl esz vl a b = block a b) (hesz : 0 < esz) (h8 : 8 ∣ esz) (hdvd : esz ∣ vl) :
    EvexBroadcastResult esz vl row block := by
  intro m f a s b src hm hrm hbc hr hop hb hsrc
  have h := exec_evex_of_operandOk (hshape f) hesz hdvd hm hr hop
  rwa [evexValue_of_broadcast (hshape f) hrm hbc hesz h8 hdvd hb hsrc, hblock] at h

/-- Settles O20: the six rows with broadcast, by their blocks. -/
theorem evexBroadcastForms : Obligations.EvexBroadcastForms := by
  unfold Obligations.EvexBroadcastForms
  refine ⟨⟨?_, ?_, ?_⟩, ?_, ?_, ?_⟩
  · exact evexBroadcastResult_of_row (fun _ => rfl) unpckl_eq_interleaveDwords (by decide) (by decide) (by decide)
  · exact evexBroadcastResult_of_row (fun _ => rfl) unpckl_eq_interleaveDwords256 (by decide) (by decide) (by decide)
  · exact evexBroadcastResult_of_row (fun _ => rfl) unpckl_eq_interleaveDwords512 (by decide) (by decide) (by decide)
  · exact evexBroadcastResult_of_row (fun _ => rfl) unpckl_eq_interleaveQwords (by decide) (by decide) (by decide)
  · exact evexBroadcastResult_of_row (fun _ => rfl) unpckl_eq_interleaveQwords256 (by decide) (by decide) (by decide)
  · exact evexBroadcastResult_of_row (fun _ => rfl) unpckl_eq_interleaveQwords512 (by decide) (by decide) (by decide)

end Sys2Proof.Machine

/-! # The bytes of an instruction (20_memory.md R51, 30_encoding.md R114)

The decoder reads an encoding back whatever follows it: prefixes and REX, the row, then ModRM, SIB and displacement.
With the window of Laws/Fetch.lean a step runs the instruction whose bytes stand at `rip`. -/

namespace Sys2Proof

/-! ## Prefixes and REX -/

/-- The bytes a format begins with (R114 step 3): `0F`, C5H, C4H, 62H. -/
def IsOpener (e : Byte) : Prop := e = 0x0F ∨ e = 0xC5 ∨ e = 0xC4 ∨ e = 0x62

/-- A byte that begins a format is in neither table of lead bytes, legacy or REX. -/
theorem IsOpener.not_lead {e : Byte} (h : IsOpener e) : Prefix.ofByte? e = none ∧ Rex.ofByte? e = none := by
  rcases h with rfl | rfl | rfl | rfl <;> decide

/-- A REX byte is no legacy `Prefix`. -/
theorem prefix_ofByte?_rex (r : Rex) : Prefix.ofByte? r.byte = none := by
  obtain ⟨w, r, x, b⟩ := r
  revert w r x b
  decide

/-- Scanning stops where the next byte is no legacy `Prefix`. -/
theorem scanPrefixes_of_not_prefix {b : Byte} (bs : List Byte) (h : Prefix.ofByte? b = none) :
    (scanPrefixes (b :: bs)).1 = [] := by
  simp only [scanPrefixes, h]

/-- Step 2 of R114 reads back the REX of a form, or its absence. -/
theorem takeRex_lead {m : Mode} {rex : Option Rex} {e : Byte} (hrex : rexWf m rex = true) (he : IsOpener e)
    (bs : List Byte) : takeRex m ((rex.map Rex.byte).toList ++ e :: bs) = (rex, e :: bs) := by
  cases rex with
  | none => cases m <;> simp [takeRex, he.not_lead.2]
  | some r =>
    have hm : m = .long64 := by simpa [rexWf] using hrex
    simp [hm, takeRex]

/-- Steps 1 and 2 of R114 read back the prefixes and the REX of a form. -/
theorem decode_lead {m : Mode} {ps : List Prefix} {rex : Option Rex} {e : Byte} (hps : overrideCount ps ≤ 1)
    (hrex : rexWf m rex = true) (he : IsOpener e) (bs : List Byte) :
    decode m (leadBytes ps rex ++ e :: bs) = decodeBody m ps rex (e :: bs) := by
  have hstop : (scanPrefixes ((rex.map Rex.byte).toList ++ e :: bs)).1 = [] := by
    cases rex with
    | none => exact scanPrefixes_of_not_prefix bs he.not_lead.1
    | some r => exact scanPrefixes_of_not_prefix _ (prefix_ofByte?_rex r)
  rw [leadBytes, List.append_assoc, decode, scanPrefixes_map ps hstop, if_neg (Nat.not_lt.mpr hps),
    takeRex_lead hrex he]

/-! ## Rows -/

/-- No byte string matches both patterns under their masks: some byte differs where both masks look. -/
def clash : List Byte → List Byte → List Byte → List Byte → Bool
  | p :: ps, m :: ms, p' :: ps', m' :: ms' => (p &&& m' != p' &&& m) || clash ps ms ps' ms'
  | _, _, _, _ => false

/-- A string that matches one of two clashing patterns does not match the other. -/
theorem not_maskedEq_of_clash {nf p m p' m' : List Byte} (hc : clash p m p' m' = true)
    (h' : maskedEq nf m' p' = true) : maskedEq nf m p = false := by
  induction nf generalizing p m p' m' with
  | nil =>
    cases m' <;> cases p' <;> simp only [maskedEq, Bool.false_eq_true] at h'
    cases p <;> cases m <;> simp [clash] at hc
  | cons b nf ih =>
    match p, m, p', m', hc, h' with
    | p :: ps, m :: ms, p' :: ps', m' :: ms', hc, h' =>
      simp only [maskedEq, Bool.and_eq_true, beq_iff_eq] at h'
      obtain ⟨rfl, hrest⟩ := h'
      rw [clash, Bool.or_eq_true] at hc
      rcases hc with hc | hc
      · have hb : ¬ b &&& m = p := by
          rintro rfl
          rw [bne_iff_ne, BitVec.and_assoc, BitVec.and_assoc, BitVec.and_comm m m'] at hc
          exact hc rfl
        simp [maskedEq, hb]
      · simp [maskedEq, ih hc hrest]

/-- Of rows that clash pairwise, the one a normal form matches is the one that is found (R114 step 4). -/
theorem findRow_of_maskedEq {α : Type} {rows : List (Row α)} {row : Row α} {nf : List Byte}
    (hrows : rows.Pairwise fun r r' => clash r.pattern r.mask r'.pattern r'.mask = true) (hmem : row ∈ rows)
    (h : maskedEq nf row.mask row.pattern = true) : findRow rows nf = some row := by
  induction rows with
  | nil => cases hmem
  | cons r rows ih =>
    obtain ⟨hclash, hrest⟩ := List.pairwise_cons.mp hrows
    rcases List.mem_cons.mp hmem with rfl | hmem
    · simp [findRow, h]
    · have hr : maskedEq nf r.mask r.pattern = false := not_maskedEq_of_clash (hclash row hmem) h
      rw [findRow, List.find?_cons, hr]
      exact ih hrest hmem

theorem legacyRows_clash : legacyRows.Pairwise fun r r' => clash r.pattern r.mask r'.pattern r'.mask = true := by
  decide

theorem vexRows_clash : vexRows.Pairwise fun r r' => clash r.pattern r.mask r'.pattern r'.mask = true := by
  decide

theorem evexRows_clash : evexRows.Pairwise fun r r' => clash r.pattern r.mask r'.pattern r'.mask = true := by
  decide

/-- A mask byte of all ones looks at the whole byte. -/
theorem and_ones (b : Byte) : b &&& 255#8 = b := BitVec.and_allOnes

/-! ## ModRM, SIB and displacement -/

/-- What `prefixesWf` says: at most one override, and no 16-bit addressing (R85, R86). -/
theorem prefixesWf_iff {m : Mode} {ps : List Prefix} {rm : Rm} :
    prefixesWf m ps rm = true ↔
      overrideCount ps ≤ 1 ∧ ¬ (m = .prot32 ∧ ps.contains .addrSize = true ∧ rm.isMem = true) := by
  simp only [prefixesWf, Bool.and_eq_true, decide_eq_true_eq, Bool.not_eq_true', ← Bool.not_eq_true, and_assoc]

/-- Step 5 of R114 reads back ModRM:r/m of a form. -/
theorem decodeOperand_rmBytes {m : Mode} {ps : List Prefix} {rm : Rm} (hrm : rm.wf = true)
    (hps : prefixesWf m ps rm = true) (reg : BitVec 3) (bad : Bool) (size : Nat) (rest : List Byte)
    (build : BitVec 3 → Rm → Instr) :
    ∃ modrm tail, rmBytes reg rm = modrm :: tail
      ∧ decodeOperand m ps bad size modrm (tail ++ rest) build = .ok (build reg rm, rest) := by
  obtain ⟨modrm, tail, hbytes, hreg, hmod, htake⟩ := takeRm_rmBytes reg rm hrm rest
  refine ⟨modrm, tail, hbytes, ?_⟩
  have h16 : ¬ (m = .prot32 ∧ ps.contains .addrSize = true ∧ modField modrm ≠ 3) := by
    rw [ne_eq, hmod, Bool.not_eq_false]
    exact (prefixesWf_iff.mp hps).2
  rw [decodeOperand, if_neg h16, htake, hreg]

/-! ## LEGACY -/

theorem decodeBody_legacy (m : Mode) (ps : List Prefix) (rex : Option Rex) (bs : List Byte) :
    decodeBody m ps rex (0x0F :: bs) = decodeLegacy m ps rex bs := by
  simp [decodeBody]

/-- A well-formed legacy form is read back by its row. -/
theorem decode_legacyBytes {m : Mode} {op : Byte} {mand66 : Bool} {f : LegacyForm} {row : Row LegacyForm}
    (hrow : row ∈ legacyRows) (hmask : row.mask = [0xFF, 0xFF, 0xFF, 0x00])
    (hpattern : row.pattern = [if mand66 then 0x66 else 0x00, 0x0F, op, 0x00]) (hwf : f.wf m mand66 = true)
    (rest : List Byte) : decode m (f.bytes op ++ rest) = .ok (row.build f, rest) := by
  simp only [LegacyForm.wf, Bool.and_eq_true, Bool.not_eq_true', beq_iff_eq] at hwf
  obtain ⟨⟨⟨⟨⟨hrm, hps⟩, hrex⟩, hrepne⟩, hrep⟩, hmand⟩ := hwf
  obtain ⟨modrm, tail, hbytes, hoperand⟩ :=
    decodeOperand_rmBytes hrm hps f.reg (f.prefixes.contains .lock) (f.prefixes.length + 3) rest
      fun reg rm => row.build ⟨f.prefixes, f.rex, reg, rm⟩
  have hfind : findRow legacyRows [if f.prefixes.contains .opSize then 0x66 else 0x00, 0x0F, op, modrm] = some row :=
    findRow_of_maskedEq legacyRows_clash hrow (by rw [hmask, hpattern, hmand]; simp [maskedEq, and_ones])
  rw [LegacyForm.bytes, List.append_assoc, hbytes, List.cons_append, List.cons_append, List.cons_append,
    decode_lead (prefixesWf_iff.mp hps).1 hrex (.inl rfl), decodeBody_legacy]
  simp only [decodeLegacy, hrepne, hrep, Bool.or_self, Bool.false_eq_true, if_false, hfind, hoperand]

/-! ## VEX -/

/-- The fields of `v1` (R95, R96). -/
theorem VexForm.v1_fields (f : VexForm) :
    f.v1 &&& 31#8 = 1#8 ∧ f.v1.getLsbD 7 = !f.r ∧ f.v1.getLsbD 6 = !f.x ∧ f.v1.getLsbD 5 = !f.b := by
  unfold VexForm.v1
  generalize f.r = r, f.x = x, f.b = b
  revert r x b
  decide

/-- The fields of `v2` (R95, R96). -/
theorem VexForm.v2_fields (l : Bool) (f : VexForm) :
    f.v2 l &&& 7#8 = (if l then 5#8 else 1#8) ∧ (f.v2 l).getLsbD 7 = f.w ∧ (f.v2 l).extractLsb' 3 4 = ~~~f.v := by
  unfold VexForm.v2
  generalize f.w = w, f.v = v
  revert l w v
  decide

/-- `C5 v` stands for its three-byte `C4 v1 v2` (R98). -/
theorem VexForm.expandVex_shortByte (l : Bool) {f : VexForm} (hx : f.x = false) (hb : f.b = false)
    (hw : f.w = false) : expandVex (f.shortByte l) = (f.v1, f.v2 l) := by
  unfold VexForm.shortByte VexForm.v1 VexForm.v2
  rw [hx, hb, hw]
  generalize f.r = r, f.v = v
  revert l r v
  decide

/-- The bits that `Prot32` fixes in the VEX bytes are set where the form names registers 0 to 7 only (R100). -/
theorem VexForm.fixedBits (l : Bool) {f : VexForm} (hr : f.r = false) (hx : f.x = false) (hb : f.b = false)
    (hv : f.v < 8) :
    f.v1.extractLsb' 5 3 = 7 ∧ (f.v2 l).getLsbD 6 = true ∧ f.v1.extractLsb' 6 2 = 3
      ∧ (f.shortByte l).extractLsb' 6 2 = 3 := by
  unfold VexForm.shortByte VexForm.v1 VexForm.v2
  rw [hr, hx, hb]
  generalize f.w = w, f.v = v at hv ⊢
  revert l w v
  decide

/-- The bytes of a well-formed VEX form begin VEX in its mode and name registers of that mode (R100). -/
theorem VexForm.mode_ok {m : Mode} (l : Bool) {f : VexForm}
    (h : m = .long64 ∨ ((f.r = false ∧ f.x = false) ∧ f.b = false) ∧ f.v < 8) :
    ¬ (m = .prot32 ∧ (f.v1.extractLsb' 5 3 ≠ 7 ∨ (f.v2 l).getLsbD 6 = false))
      ∧ isVexIn m f.v1 = true ∧ isVexIn m (f.shortByte l) = true := by
  rcases h with rfl | ⟨⟨⟨hr, hx⟩, hb⟩, hv⟩
  · exact ⟨fun h => (by cases h.1), rfl, rfl⟩
  · obtain ⟨h1, h2, h3, h4⟩ := VexForm.fixedBits l hr hx hb hv
    simp [isVexIn, h1, h2, h3, h4]

theorem decodeBody_vex2 {m : Mode} {v : Byte} (h : isVexIn m v = true) (ps : List Prefix) (rex : Option Rex)
    (bs : List Byte) : decodeBody m ps rex (0xC5 :: v :: bs)
      = decodeVexBody m ps rex true (expandVex v).1 (expandVex v).2 bs := by
  simp [decodeBody, h]

theorem decodeBody_vex3 {m : Mode} {v1 : Byte} (h : isVexIn m v1 = true) (ps : List Prefix) (rex : Option Rex)
    (v2 : Byte) (bs : List Byte) :
    decodeBody m ps rex (0xC4 :: v1 :: v2 :: bs) = decodeVexBody m ps rex false v1 v2 bs := by
  simp [decodeBody, h]

/-- A well-formed VEX form is read back by its row. -/
theorem decode_vexBytes {m : Mode} {op : Byte} {l : Bool} {f : VexForm} {row : Row VexForm}
    (hrow : row ∈ vexRows) (hmask : row.mask = [0xFF, 0x1F, 0x07, 0xFF, 0x00])
    (hpattern : row.pattern = [0xC4, 0x01, if l then 0x05 else 0x01, op, 0x00]) (hwf : f.wf m = true)
    (rest : List Byte) : decode m (f.bytes l op ++ rest) = .ok (row.build f, rest) := by
  simp only [VexForm.wf, Bool.and_eq_true, Bool.or_eq_true, Bool.not_eq_true', decide_eq_true_eq] at hwf
  obtain ⟨⟨⟨⟨hrm, hps⟩, hrex⟩, hshort⟩, hlow⟩ := hwf
  obtain ⟨hv1, hr, hx, hb⟩ := f.v1_fields
  obtain ⟨hv2, hw, hv⟩ := f.v2_fields l
  obtain ⟨hfixed, hopen3, hopen2⟩ := VexForm.mode_ok l hlow
  have hbody : decodeVexBody m f.prefixes f.rex f.short f.v1 (f.v2 l) (op :: (rmBytes f.reg f.rm ++ rest))
      = .ok (row.build f, rest) := by
    obtain ⟨modrm, tail, hbytes, hoperand⟩ :=
      decodeOperand_rmBytes hrm hps f.reg (badLead f.prefixes f.rex) (f.prefixes.length + if f.short then 4 else 5)
        rest fun reg rm => row.build { f with reg := reg, rm := rm }
    have hfind : findRow vexRows [0xC4, f.v1, f.v2 l, op, modrm] = some row :=
      findRow_of_maskedEq vexRows_clash hrow (by rw [hmask, hpattern]; simp [maskedEq, and_ones, hv1, hv2])
    simp only [hbytes, List.cons_append, decodeVexBody, hfind, if_neg hfixed]
    simp only [hr, hx, hb, hw, hv, Bool.not_not, BitVec.not_not]
    exact hoperand
  have hover := (prefixesWf_iff.mp hps).1
  cases hs : f.short with
  | true =>
    obtain hns | ⟨⟨hx0, hb0⟩, hw0⟩ := hshort
    · rw [hs] at hns
      cases hns
    · simp only [VexForm.bytes, hs, if_true, List.append_assoc, List.cons_append, List.nil_append]
      rw [decode_lead hover hrex (.inr (.inl rfl)), decodeBody_vex2 hopen2,
        VexForm.expandVex_shortByte l hx0 hb0 hw0, ← hs, hbody]
  | false =>
    simp only [VexForm.bytes, hs, Bool.false_eq_true, if_false, List.append_assoc, List.cons_append, List.nil_append]
    rw [decode_lead hover hrex (.inr (.inr (.inl rfl))), decodeBody_vex3 hopen3, ← hs, hbody]

/-! ## EVEX -/

/-- The mask of an EVEX row: bit W is looked at where the row fixes it (R107). -/
def evexMask (w : Option Bool) : List Byte := [0xFF, 0x0F, if w.isSome then 0x87 else 0x07, 0x60, 0xFF, 0x00]

/-- The pattern of an EVEX row with field `L'L` and opcode (R101 to R107). -/
def evexPattern (w : Option Bool) (ll : BitVec 2) (op : Byte) : List Byte :=
  [0x62, 0x01, if w = some true then 0x85 else 0x05, (0 : BitVec 1) ++ ll ++ (0 : BitVec 5), op, 0x00]

/-- The fields of `p0` (R101). -/
theorem EvexForm.p0_fields (f : EvexForm) :
    f.p0 &&& 15#8 = 1#8 ∧ f.p0.getLsbD 7 = !f.r ∧ f.p0.getLsbD 6 = !f.x ∧ f.p0.getLsbD 5 = !f.b
      ∧ f.p0.getLsbD 4 = !f.r' := by
  unfold EvexForm.p0
  generalize f.r = r, f.x = x, f.b = b, f.r' = r'
  revert r x b r'
  decide

/-- The fields of `p1` (R102). -/
theorem EvexForm.p1_fields (f : EvexForm) :
    f.p1 &&& 7#8 = 5#8 ∧ f.p1 &&& 135#8 = (if f.w then 133#8 else 5#8) ∧ f.p1.getLsbD 7 = f.w
      ∧ f.p1.extractLsb' 3 4 = ~~~f.v := by
  unfold EvexForm.p1
  generalize f.w = w, f.v = v
  revert w v
  decide

/-- The fields of `p2` (R103). -/
theorem EvexForm.p2_fields (ll : BitVec 2) (f : EvexForm) :
    f.p2 ll &&& 96#8 = 0#1 ++ ll ++ 0#5 ∧ (f.p2 ll).getLsbD 7 = f.z
      ∧ (f.p2 ll).getLsbD 4 = f.bc ∧ (f.p2 ll).getLsbD 3 = !f.v' ∧ (f.p2 ll).extractLsb' 0 3 = f.aaa := by
  unfold EvexForm.p2
  generalize f.z = z, f.bc = bc, f.v' = v', f.aaa = aaa
  revert ll z bc v' aaa
  decide

/-- The bits that `Prot32` fixes in the EVEX bytes are set where the form names registers 0 to 7 only (R112). -/
theorem EvexForm.fixedBits {f : EvexForm} (hr : f.r = false) (hx : f.x = false) (hb : f.b = false)
    (hr' : f.r' = false) (hv : f.v < 8) :
    f.p0.extractLsb' 4 4 = 15 ∧ f.p1.getLsbD 6 = true ∧ f.p0.extractLsb' 6 2 = 3 := by
  unfold EvexForm.p0 EvexForm.p1
  rw [hr, hx, hb, hr']
  generalize f.w = w, f.v = v at hv ⊢
  revert w v
  decide

/-- The bytes of a well-formed EVEX form begin EVEX in its mode and name registers of that mode (R112). -/
theorem EvexForm.mode_ok {m : Mode} (ll : BitVec 2) {f : EvexForm}
    (h : m = .long64 ∨ ((((f.r = false ∧ f.x = false) ∧ f.b = false) ∧ f.r' = false) ∧ f.v' = false) ∧ f.v < 8) :
    ¬ (m = .prot32 ∧ (f.p0.extractLsb' 4 4 ≠ 15 ∨ f.p1.getLsbD 6 = false ∨ (f.p2 ll).getLsbD 3 = false))
      ∧ isVexIn m f.p0 = true := by
  rcases h with rfl | ⟨⟨⟨⟨⟨hr, hx⟩, hb⟩, hr'⟩, hv'⟩, hv⟩
  · exact ⟨fun h => (by cases h.1), rfl⟩
  · obtain ⟨h1, h2, h3⟩ := EvexForm.fixedBits hr hx hb hr' hv
    obtain ⟨-, -, -, h4, -⟩ := f.p2_fields ll
    simp [isVexIn, h1, h2, h3, h4, hv']

/-- A form whose W is the row's matches the row (R107). -/
theorem maskedEq_evex {w : Option Bool} {f : EvexForm} (hw : w.isNone = true ∨ w = some f.w) (ll : BitVec 2)
    (op modrm : Byte) : maskedEq [0x62, f.p0, f.p1, f.p2 ll, op, modrm] (evexMask w) (evexPattern w ll op) = true := by
  obtain ⟨hp0, -⟩ := f.p0_fields
  obtain ⟨hp1, hp1w, -⟩ := f.p1_fields
  obtain ⟨hp2, -⟩ := f.p2_fields ll
  rcases hw with hw | rfl
  · obtain rfl := Option.isNone_iff_eq_none.mp hw
    simp [maskedEq, evexMask, evexPattern, and_ones, hp0, hp1, hp2]
  · simp [maskedEq, evexMask, evexPattern, and_ones, hp0, hp1w, hp2]

theorem decodeBody_evex {m : Mode} {p0 : Byte} (h : isVexIn m p0 = true) (ps : List Prefix) (rex : Option Rex)
    (p1 p2 : Byte) (bs : List Byte) :
    decodeBody m ps rex (0x62 :: p0 :: p1 :: p2 :: bs) = decodeEvexBody m ps rex p0 p1 p2 bs := by
  simp [decodeBody, h]

/-- A well-formed EVEX form is read back by its row. -/
theorem decode_evexBytes {m : Mode} {op : Byte} {w : Option Bool} {ll : BitVec 2} {f : EvexForm} {row : Row EvexForm}
    (hrow : row ∈ evexRows) (hmask : row.mask = evexMask w) (hpattern : row.pattern = evexPattern w ll op)
    (hwf : f.wf m w = true) (rest : List Byte) : decode m (f.bytes ll op ++ rest) = .ok (row.build f, rest) := by
  simp only [EvexForm.wf, Bool.and_eq_true, Bool.or_eq_true, Bool.not_eq_true', decide_eq_true_eq,
    beq_iff_eq] at hwf
  obtain ⟨⟨⟨⟨hrm, hps⟩, hrex⟩, hw⟩, hlow⟩ := hwf
  obtain ⟨-, hr, hx, hb, hr'⟩ := f.p0_fields
  obtain ⟨-, -, hp1w, hv⟩ := f.p1_fields
  obtain ⟨-, hz, hbc, hv', haaa⟩ := f.p2_fields ll
  obtain ⟨hfixed, hopen⟩ := EvexForm.mode_ok ll hlow
  obtain ⟨modrm, tail, hbytes, hoperand⟩ :=
    decodeOperand_rmBytes hrm hps f.reg (badLead f.prefixes f.rex) (f.prefixes.length + 6) rest
      fun reg rm => row.build { f with reg := reg, rm := rm }
  have hfind : findRow evexRows [0x62, f.p0, f.p1, f.p2 ll, op, modrm] = some row :=
    findRow_of_maskedEq evexRows_clash hrow (by rw [hmask, hpattern]; exact maskedEq_evex hw ll op modrm)
  simp only [EvexForm.bytes, hbytes, List.append_assoc, List.cons_append]
  rw [decode_lead (prefixesWf_iff.mp hps).1 hrex (.inr (.inr (.inr rfl))), decodeBody_evex hopen]
  simp only [decodeEvexBody, hfind, if_neg hfixed]
  simp only [hr, hx, hb, hr', hp1w, hv, hz, hbc, hv', haaa, Bool.not_not, BitVec.not_not]
  exact hoperand

/-! ## Every instruction -/

/-- The decoder reads back the encoding of a well-formed instruction, whatever follows it. -/
theorem decode_encode_append {m : Mode} {i : Instr} (h : i.wf m = true) (rest : List Byte) :
    decode m (encode i ++ rest) = .ok (i, rest) := by
  cases i with
  | punpcklbwMm f => exact decode_legacyBytes (row := legacyRows[0]) (List.getElem_mem _) rfl rfl h rest
  | punpcklbwXmm f => exact decode_legacyBytes (row := legacyRows[1]) (List.getElem_mem _) rfl rfl h rest
  | punpcklwdMm f => exact decode_legacyBytes (row := legacyRows[2]) (List.getElem_mem _) rfl rfl h rest
  | punpcklwdXmm f => exact decode_legacyBytes (row := legacyRows[3]) (List.getElem_mem _) rfl rfl h rest
  | punpckldqMm f => exact decode_legacyBytes (row := legacyRows[4]) (List.getElem_mem _) rfl rfl h rest
  | punpckldqXmm f => exact decode_legacyBytes (row := legacyRows[5]) (List.getElem_mem _) rfl rfl h rest
  | punpcklqdqXmm f => exact decode_legacyBytes (row := legacyRows[6]) (List.getElem_mem _) rfl rfl h rest
  | vpunpcklbwXmmVex f => exact decode_vexBytes (row := vexRows[0]) (List.getElem_mem _) rfl rfl h rest
  | vpunpcklbwYmmVex f => exact decode_vexBytes (row := vexRows[1]) (List.getElem_mem _) rfl rfl h rest
  | vpunpcklwdXmmVex f => exact decode_vexBytes (row := vexRows[2]) (List.getElem_mem _) rfl rfl h rest
  | vpunpcklwdYmmVex f => exact decode_vexBytes (row := vexRows[3]) (List.getElem_mem _) rfl rfl h rest
  | vpunpckldqXmmVex f => exact decode_vexBytes (row := vexRows[4]) (List.getElem_mem _) rfl rfl h rest
  | vpunpckldqYmmVex f => exact decode_vexBytes (row := vexRows[5]) (List.getElem_mem _) rfl rfl h rest
  | vpunpcklqdqXmmVex f => exact decode_vexBytes (row := vexRows[6]) (List.getElem_mem _) rfl rfl h rest
  | vpunpcklqdqYmmVex f => exact decode_vexBytes (row := vexRows[7]) (List.getElem_mem _) rfl rfl h rest
  | vpunpcklbwXmmEvex f => exact decode_evexBytes (row := evexRows[0]) (List.getElem_mem _) rfl rfl h rest
  | vpunpcklbwYmmEvex f => exact decode_evexBytes (row := evexRows[1]) (List.getElem_mem _) rfl rfl h rest
  | vpunpcklbwZmmEvex f => exact decode_evexBytes (row := evexRows[2]) (List.getElem_mem _) rfl rfl h rest
  | vpunpcklwdXmmEvex f => exact decode_evexBytes (row := evexRows[3]) (List.getElem_mem _) rfl rfl h rest
  | vpunpcklwdYmmEvex f => exact decode_evexBytes (row := evexRows[4]) (List.getElem_mem _) rfl rfl h rest
  | vpunpcklwdZmmEvex f => exact decode_evexBytes (row := evexRows[5]) (List.getElem_mem _) rfl rfl h rest
  | vpunpckldqXmmEvex f => exact decode_evexBytes (row := evexRows[6]) (List.getElem_mem _) rfl rfl h rest
  | vpunpckldqYmmEvex f => exact decode_evexBytes (row := evexRows[7]) (List.getElem_mem _) rfl rfl h rest
  | vpunpckldqZmmEvex f => exact decode_evexBytes (row := evexRows[8]) (List.getElem_mem _) rfl rfl h rest
  | vpunpcklqdqXmmEvex f => exact decode_evexBytes (row := evexRows[9]) (List.getElem_mem _) rfl rfl h rest
  | vpunpcklqdqYmmEvex f => exact decode_evexBytes (row := evexRows[10]) (List.getElem_mem _) rfl rfl h rest
  | vpunpcklqdqZmmEvex f => exact decode_evexBytes (row := evexRows[11]) (List.getElem_mem _) rfl rfl h rest

end Sys2Proof

namespace Sys2Proof.Machine

/-! ## A step -/

/-- An admitted mode with RFLAGS.TF clear launches (R224, D4). -/
theorem launched_of_mode {s : State} {m : Mode} (hm : s.mode? = .ok m) (htf : s.tf = false) :
    s.launched = .ok m := by
  have hadm : s.admitted = .ok m := by simp [State.admitted, hm]
  rw [State.launched, hadm, htf]
  rfl

/-- A launched step runs the instruction that its bytes decode to, the next instruction pointer being inside (D12). -/
theorem step_of_decode {s : State} {m : Mode} {i : Instr} {rest : List Byte} (hm : s.mode? = .ok m)
    (htf : s.tf = false) (hdec : decode m (s.fetchBytes m) = .ok (i, rest))
    (hrip : s.ripInside m (nextRip m s.rip i.len) = true) : step s = exec i s := by
  have hfetch : s.fetchInstr m = .ok i := by simp only [State.fetchInstr, hdec, hrip, if_true]
  have hcur : s.current = .ok i := by
    rw [State.current, launched_of_mode hm htf]
    exact hfetch
  rw [step, hcur]

/-- Settles O53: the window holds the bytes, and the decoder reads them back. -/
theorem stepRunsBytesAtRip : Obligations.StepRunsBytesAtRip := by
  unfold Obligations.StepRunsBytesAtRip
  intro s m i hm htf hwf hbytes hrip
  obtain ⟨rest, hfetch⟩ := fetchBytes_of_bytes hbytes
  exact step_of_decode hm htf (hfetch ▸ decode_encode_append hwf rest) hrip

end Sys2Proof.Machine

/-! # Encoding (30_encoding.md)

The decoder is inverted part by part: what a part answers is well formed, and its bytes, written by the encoder's part, are
the bytes it has read. A matched row is put once per format as the fields it fixes; the round trip through the decoder and
the strings that match no row both follow from that. -/

namespace Sys2Proof

/-! ## Inverting the parts of the decoder -/

/-- A ModRM or SIB byte is made of its three fields (R87, R90). -/
theorem fieldByte_fields (b : Byte) : fieldByte (modField b) (regField b) (rmField b) = b := by
  revert b
  decide

/-- A byte read as a REX is that REX's byte (R84). -/
theorem Rex.byte_of_ofByte? {b : Byte} {r : Rex} (h : Rex.ofByte? b = some r) : r.byte = b := by
  have hbyte : ∀ b : Byte, b.extractLsb' 4 4 = 4 →
      Rex.byte ⟨b.getLsbD 3, b.getLsbD 2, b.getLsbD 1, b.getLsbD 0⟩ = b := by decide
  unfold Rex.ofByte? at h
  split at h
  · next hb => cases h; exact hbyte b hb
  · cases h

/-- What step 2 of R114 answers: a REX only where there is one (R84), and the bytes put back together. -/
theorem takeRex_eq (m : Mode) (bs : List Byte) :
    rexWf m (takeRex m bs).1 = true ∧ ((takeRex m bs).1.map Rex.byte).toList ++ (takeRex m bs).2 = bs := by
  cases bs with
  | nil => simp [takeRex, rexWf]
  | cons b bs =>
    cases m with
    | prot32 => simp [takeRex, rexWf]
    | long64 =>
      cases hb : Rex.ofByte? b with
      | none => simp [takeRex, rexWf, hb]
      | some r => simp [takeRex, rexWf, hb, Rex.byte_of_ofByte? hb]

/-- A displacement that is read is the one `mod` asks for (R89). -/
theorem takeDisp_eq_some {mod : BitVec 2} {bs rest : List Byte} {d : Disp} (hmod : mod ≠ 3)
    (h : takeDisp mod bs = some (d, rest)) : d.mod = mod ∧ d.bytes ++ rest = bs := by
  unfold takeDisp at h
  split at h
  · next h0 => cases h; exact ⟨h0.symm, rfl⟩
  · next h0 =>
    split at h
    · next h1 =>
      split at h
      · cases h; exact ⟨h1.symm, rfl⟩
      · cases h
    · next h1 =>
      have h2 : mod = 2 := by
        clear h
        revert mod
        decide
      obtain ⟨⟨d32, rest'⟩, htake, heq⟩ := Option.map_eq_some_iff.mp h
      cases heq
      exact ⟨h2.symm, le32_of_take32 htake⟩

/-- Only the absent displacement has `mod = 00B` (R89). -/
theorem Disp.mod_eq_zero_iff (d : Disp) : d.mod = 0 ↔ d = .none := by
  cases d <;> simp [Disp.mod]

/-- A SIB byte and what follows it are a well-formed address whose bytes are those read (R90). -/
theorem takeSib_eq_some {mod : BitVec 2} {bs rest : List Byte} {a : Addr} (hmod : mod ≠ 3)
    (h : takeSib mod bs = some (a, rest)) (reg : BitVec 3) :
    a.wf = true ∧ rmBytes reg (.mem a) ++ rest = fieldByte mod reg 4 :: bs := by
  cases bs with
  | nil => cases h
  | cons s bs =>
    have hs := fieldByte_fields s
    rw [takeSib] at h
    split at h
    · next hbase =>
      obtain ⟨rfl, hrm⟩ := hbase
      obtain ⟨⟨d, rest'⟩, htake, heq⟩ := Option.map_eq_some_iff.mp h
      cases heq
      rw [hrm] at hs
      exact ⟨rfl, List.cons_eq_cons.mpr ⟨rfl, List.cons_eq_cons.mpr ⟨hs, le32_of_take32 htake⟩⟩⟩
    · next hbase =>
      obtain ⟨⟨d, rest'⟩, htake, heq⟩ := Option.map_eq_some_iff.mp h
      cases heq
      obtain ⟨rfl, hbytes⟩ := takeDisp_eq_some hmod htake
      rw [Disp.mod_eq_zero_iff, not_and_or] at hbase
      exact ⟨by simpa [Addr.wf] using hbase, List.cons_eq_cons.mpr ⟨rfl, List.cons_eq_cons.mpr ⟨hs, hbytes⟩⟩⟩

/-- ModRM:r/m that is read is well formed, and its bytes are those read (R87, R89 to R91). -/
theorem takeRm_eq_some {modrm : Byte} {bs rest : List Byte} {rm : Rm} (h : takeRm modrm bs = some (rm, rest)) :
    rm.wf = true ∧ (rm.isMem = true ↔ modField modrm ≠ 3) ∧ rmBytes (regField modrm) rm ++ rest = modrm :: bs := by
  have hbyte := fieldByte_fields modrm
  unfold takeRm at h
  split at h
  · next h3 =>
    cases h
    rw [h3] at hbyte
    exact ⟨rfl, iff_of_false Bool.false_ne_true (not_not.mpr h3), List.cons_eq_cons.mpr ⟨hbyte, rfl⟩⟩
  · next h3 =>
    split at h
    · next h4 =>
      obtain ⟨⟨a, rest'⟩, htake, heq⟩ := Option.map_eq_some_iff.mp h
      cases heq
      obtain ⟨hwf, hbytes⟩ := takeSib_eq_some h3 htake (regField modrm)
      rw [h4] at hbyte
      exact ⟨hwf, iff_of_true rfl h3, by rw [hbytes, hbyte]⟩
    · next h4 =>
      split at h
      · next h5 =>
        obtain ⟨hmod, hrm⟩ := h5
        obtain ⟨⟨d, rest'⟩, htake, heq⟩ := Option.map_eq_some_iff.mp h
        cases heq
        rw [hmod, hrm] at hbyte
        exact ⟨rfl, iff_of_true rfl h3, List.cons_eq_cons.mpr ⟨hbyte, le32_of_take32 htake⟩⟩
      · next h5 =>
        obtain ⟨⟨d, rest'⟩, htake, heq⟩ := Option.map_eq_some_iff.mp h
        cases heq
        obtain ⟨hd, hbytes⟩ := takeDisp_eq_some h3 htake
        rw [← hd] at hbyte
        rw [← hd, Disp.mod_eq_zero_iff, not_and_or] at h5
        have hwf : rmField modrm ≠ 4 ∧ (d ≠ .none ∨ rmField modrm ≠ 5) := ⟨h4, h5⟩
        exact ⟨by simpa [Rm.wf, Addr.wf] using hwf, iff_of_true rfl h3, List.cons_eq_cons.mpr ⟨hbyte, hbytes⟩⟩

/-- An operand that step 5 of R114 accepts is well formed after its prefixes, and its bytes are those read. -/
theorem decodeOperand_inv {m : Mode} {ps : List Prefix} {bad : Bool} {size : Nat} {modrm : Byte} {bs rest : List Byte}
    {build : BitVec 3 → Rm → Instr} {i : Instr} (hps : overrideCount ps ≤ 1)
    (h : decodeOperand m ps bad size modrm bs build = .ok (i, rest)) :
    ∃ rm, i = build (regField modrm) rm ∧ rm.wf = true ∧ prefixesWf m ps rm = true
      ∧ rmBytes (regField modrm) rm ++ rest = modrm :: bs := by
  obtain ⟨rm, htake, hi⟩ := Machine.decodeOperand_eq_ok h
  obtain ⟨hwf, hmem, hbytes⟩ := takeRm_eq_some htake
  refine ⟨rm, hi, hwf, prefixesWf_iff.mpr ⟨hps, ?_⟩, hbytes⟩
  rw [hmem]
  intro h16
  rw [decodeOperand, if_pos h16] at h
  cases h

/-! ## What a matched row fixes -/

/-- A row of the LEGACY table, with or without 66H (`mand66`), and its opcode `op` (R93): what it matches, which of its forms
are well formed, and their encoding. -/
structure IsLegacyRow (row : Row LegacyForm) (mand66 : Bool) (op : Byte) : Prop where
  mask : row.mask = [0xFF, 0xFF, 0xFF, 0x00]
  pattern : row.pattern = [if mand66 then 0x66 else 0x00, 0x0F, op, 0x00]
  opcode : op ∈ [0x60, 0x61, 0x62] ∨ op = 0x6C ∧ mand66 = true
  wf : ∀ m f, (row.build f).wf m = f.wf m mand66
  encode : ∀ f, encode (row.build f) = f.bytes op

/-- A row of the VEX table with bit `L` and opcode `op` (R99). -/
structure IsVexRow (row : Row VexForm) (l : Bool) (op : Byte) : Prop where
  mask : row.mask = [0xFF, 0x1F, 0x07, 0xFF, 0x00]
  pattern : row.pattern = [0xC4, 0x01, if l then 0x05 else 0x01, op, 0x00]
  wf : ∀ m f, (row.build f).wf m = f.wf m
  encode : ∀ f, encode (row.build f) = f.bytes l op

/-- A row of the EVEX table with bit `W` (none for WIG), field `L'L` and opcode `op` (R106, R107). -/
structure IsEvexRow (row : Row EvexForm) (w : Option Bool) (ll : BitVec 2) (op : Byte) : Prop where
  mask : row.mask = evexMask w
  pattern : row.pattern = evexPattern w ll op
  length : ll ≠ 3
  opcode : (w, op) ∈ [(none, 0x60), (none, 0x61), (some false, 0x62), (some true, (0x6C : Byte))]
  wf : ∀ m f, (row.build f).wf m = f.wf m w
  encode : ∀ f, encode (row.build f) = f.bytes ll op

theorem isLegacyRow_of_mem {row : Row LegacyForm} (h : row ∈ legacyRows) : ∃ mand66 op, IsLegacyRow row mand66 op := by
  simp only [legacyRows, List.mem_cons, List.not_mem_nil, or_false] at h
  rcases h with rfl | rfl | rfl | rfl | rfl | rfl | rfl
  · exact ⟨false, 0x60, rfl, rfl, by decide, fun _ _ => rfl, fun _ => rfl⟩
  · exact ⟨true, 0x60, rfl, rfl, by decide, fun _ _ => rfl, fun _ => rfl⟩
  · exact ⟨false, 0x61, rfl, rfl, by decide, fun _ _ => rfl, fun _ => rfl⟩
  · exact ⟨true, 0x61, rfl, rfl, by decide, fun _ _ => rfl, fun _ => rfl⟩
  · exact ⟨false, 0x62, rfl, rfl, by decide, fun _ _ => rfl, fun _ => rfl⟩
  · exact ⟨true, 0x62, rfl, rfl, by decide, fun _ _ => rfl, fun _ => rfl⟩
  · exact ⟨true, 0x6C, rfl, rfl, by decide, fun _ _ => rfl, fun _ => rfl⟩

theorem isVexRow_of_mem {row : Row VexForm} (h : row ∈ vexRows) : ∃ l op, IsVexRow row l op := by
  simp only [vexRows, List.mem_cons, List.not_mem_nil, or_false] at h
  rcases h with rfl | rfl | rfl | rfl | rfl | rfl | rfl | rfl
  · exact ⟨false, 0x60, rfl, rfl, fun _ _ => rfl, fun _ => rfl⟩
  · exact ⟨true, 0x60, rfl, rfl, fun _ _ => rfl, fun _ => rfl⟩
  · exact ⟨false, 0x61, rfl, rfl, fun _ _ => rfl, fun _ => rfl⟩
  · exact ⟨true, 0x61, rfl, rfl, fun _ _ => rfl, fun _ => rfl⟩
  · exact ⟨false, 0x62, rfl, rfl, fun _ _ => rfl, fun _ => rfl⟩
  · exact ⟨true, 0x62, rfl, rfl, fun _ _ => rfl, fun _ => rfl⟩
  · exact ⟨false, 0x6C, rfl, rfl, fun _ _ => rfl, fun _ => rfl⟩
  · exact ⟨true, 0x6C, rfl, rfl, fun _ _ => rfl, fun _ => rfl⟩

theorem isEvexRow_of_mem {row : Row EvexForm} (h : row ∈ evexRows) : ∃ w ll op, IsEvexRow row w ll op := by
  simp only [evexRows, List.mem_cons, List.not_mem_nil, or_false] at h
  rcases h with rfl | rfl | rfl | rfl | rfl | rfl | rfl | rfl | rfl | rfl | rfl | rfl
  · exact ⟨none, 0, 0x60, rfl, rfl, by decide, by decide, fun _ _ => rfl, fun _ => rfl⟩
  · exact ⟨none, 1, 0x60, rfl, rfl, by decide, by decide, fun _ _ => rfl, fun _ => rfl⟩
  · exact ⟨none, 2, 0x60, rfl, rfl, by decide, by decide, fun _ _ => rfl, fun _ => rfl⟩
  · exact ⟨none, 0, 0x61, rfl, rfl, by decide, by decide, fun _ _ => rfl, fun _ => rfl⟩
  · exact ⟨none, 1, 0x61, rfl, rfl, by decide, by decide, fun _ _ => rfl, fun _ => rfl⟩
  · exact ⟨none, 2, 0x61, rfl, rfl, by decide, by decide, fun _ _ => rfl, fun _ => rfl⟩
  · exact ⟨some false, 0, 0x62, rfl, rfl, by decide, by decide, fun _ _ => rfl, fun _ => rfl⟩
  · exact ⟨some false, 1, 0x62, rfl, rfl, by decide, by decide, fun _ _ => rfl, fun _ => rfl⟩
  · exact ⟨some false, 2, 0x62, rfl, rfl, by decide, by decide, fun _ _ => rfl, fun _ => rfl⟩
  · exact ⟨some true, 0, 0x6C, rfl, rfl, by decide, by decide, fun _ _ => rfl, fun _ => rfl⟩
  · exact ⟨some true, 1, 0x6C, rfl, rfl, by decide, by decide, fun _ _ => rfl, fun _ => rfl⟩
  · exact ⟨some true, 2, 0x6C, rfl, rfl, by decide, by decide, fun _ _ => rfl, fun _ => rfl⟩

/-- A row that is found is matched by the normal form (R114 step 4). -/
theorem maskedEq_of_findRow {α : Type} {rows : List (Row α)} {nf : List Byte} {row : Row α}
    (h : findRow rows nf = some row) : maskedEq nf row.mask row.pattern = true :=
  List.find?_some (p := fun r : Row α => maskedEq nf r.mask r.pattern) h

/-- A LEGACY normal form finds the row of its opcode, with 66H where it has 66H. -/
theorem isLegacyRow_of_findRow {opSize : Bool} {op modrm : Byte} {row : Row LegacyForm}
    (h : findRow legacyRows [if opSize then 0x66 else 0x00, 0x0F, op, modrm] = some row) :
    IsLegacyRow row opSize op := by
  obtain ⟨mand66, op', hrow⟩ := isLegacyRow_of_mem (Machine.findRow_mem h)
  have hmatch := maskedEq_of_findRow h
  rw [hrow.mask, hrow.pattern] at hmatch
  have hfields : mand66 = opSize ∧ op' = op := by
    cases mand66 <;> cases opSize <;> simp_all [maskedEq, and_ones]
  rwa [← hfields.1, ← hfields.2]

/-- A VEX normal form finds a row of its opcode, whose fixed bits it has (R95, R96, R99). -/
theorem isVexRow_of_findRow {v1 v2 op modrm : Byte} {row : Row VexForm}
    (h : findRow vexRows [0xC4, v1, v2, op, modrm] = some row) :
    ∃ l, IsVexRow row l op ∧ v1 &&& 31 = 1 ∧ v2 &&& 7 = if l then 5 else 1 := by
  obtain ⟨l, op', hrow⟩ := isVexRow_of_mem (Machine.findRow_mem h)
  have hmatch := maskedEq_of_findRow h
  rw [hrow.mask, hrow.pattern] at hmatch
  simp only [maskedEq, Bool.and_eq_true, beq_iff_eq] at hmatch
  obtain ⟨-, hv1, hv2, hop, -⟩ := hmatch
  obtain rfl : op = op' := (and_ones op).symm.trans hop
  exact ⟨l, hrow, hv1, hv2⟩

/-- An EVEX normal form finds a row of its opcode, whose fixed bits it has (R101 to R107). -/
theorem isEvexRow_of_findRow {p0 p1 p2 op modrm : Byte} {row : Row EvexForm}
    (h : findRow evexRows [0x62, p0, p1, p2, op, modrm] = some row) :
    ∃ w ll, IsEvexRow row w ll op ∧ p0 &&& 15 = 1 ∧ p1 &&& 7 = 5 ∧ (w = none ∨ w = some (p1.getLsbD 7))
      ∧ p2.extractLsb' 5 2 = ll := by
  obtain ⟨w, ll, op', hrow⟩ := isEvexRow_of_mem (Machine.findRow_mem h)
  have hmatch := maskedEq_of_findRow h
  rw [hrow.mask, hrow.pattern] at hmatch
  simp only [evexMask, evexPattern, maskedEq, Bool.and_eq_true, beq_iff_eq] at hmatch
  obtain ⟨-, hp0, hp1, hp2, hop, -⟩ := hmatch
  obtain rfl : op = op' := (and_ones op).symm.trans hop
  have hw : p1 &&& 7 = 5 ∧ (w = none ∨ w = some (p1.getLsbD 7)) := by
    clear hp0 hp2 hrow h
    revert w p1
    decide
  have hll : p2.extractLsb' 5 2 = ll := by
    clear hp0 hp1 hrow h
    revert ll p2
    decide
  exact ⟨w, ll, hrow, hp0, hw.1, hw.2, hll⟩

/-! ## Inverting the formats -/

/-- A LEGACY string that is accepted is a well-formed form and its bytes. -/
theorem decodeLegacy_inv {m : Mode} {ps : List Prefix} {rex : Option Rex} {bs rest : List Byte} {i : Instr}
    (hps : overrideCount ps ≤ 1) (hrex : rexWf m rex = true) (h : decodeLegacy m ps rex bs = .ok (i, rest)) :
    i.wf m = true ∧ encode i ++ rest = leadBytes ps rex ++ 0x0F :: bs := by
  unfold decodeLegacy at h
  split at h
  · split at h
    · cases h
    · next hrep =>
      split at h
      · next row hrow =>
        have hr := isLegacyRow_of_findRow hrow
        obtain ⟨rm, rfl, hrm, hpw, hbytes⟩ := decodeOperand_inv hps h
        rw [hr.wf, hr.encode]
        exact ⟨by simp_all [LegacyForm.wf], by simp [LegacyForm.bytes, hbytes]⟩
      · cases h
  · cases h

/-- The VEX form of the bytes `v1`, `v2` and of an operand, as step 3 of R114 reads it (R95 to R97). -/
def VexForm.ofBytes (ps : List Prefix) (rex : Option Rex) (short : Bool) (v1 v2 : Byte) (reg : BitVec 3) (rm : Rm) :
    VexForm :=
  { prefixes := ps, rex := rex, short := short, r := !v1.getLsbD 7, x := !v1.getLsbD 6, b := !v1.getLsbD 5,
    w := v2.getLsbD 7, v := ~~~(v2.extractLsb' 3 4), reg := reg, rm := rm }

/-- The bytes that step 3 of R114 reads as `v1` and `v2`: `C5 v` stands for its three-byte form (R98). -/
inductive VexOpener : Bool → Byte → Byte → List Byte → Prop where
  | two (v : Byte) : VexOpener true (expandVex v).1 (expandVex v).2 [0xC5, v]
  | three (v1 v2 : Byte) : VexOpener false v1 v2 [0xC4, v1, v2]

/-- A form that was read has the bytes `v1` and `v2` it was read from, or the byte `v` after C5H. -/
theorem VexForm.v1_ofBytes {v1 : Byte} (h : v1 &&& 31 = 1) (ps : List Prefix) (rex : Option Rex) (short : Bool)
    (v2 : Byte) (reg : BitVec 3) (rm : Rm) : (VexForm.ofBytes ps rex short v1 v2 reg rm).v1 = v1 := by
  simp only [VexForm.v1, VexForm.ofBytes]
  revert v1
  decide

theorem VexForm.v2_ofBytes {v2 : Byte} {l : Bool} (h : v2 &&& 7 = if l then 5 else 1) (ps : List Prefix)
    (rex : Option Rex) (short : Bool) (v1 : Byte) (reg : BitVec 3) (rm : Rm) :
    (VexForm.ofBytes ps rex short v1 v2 reg rm).v2 l = v2 := by
  simp only [VexForm.v2, VexForm.ofBytes]
  revert l v2
  decide

theorem VexForm.shortByte_ofBytes {v : Byte} {l : Bool} (h : (expandVex v).2 &&& 7 = if l then 5 else 1)
    (ps : List Prefix) (rex : Option Rex) (short : Bool) (reg : BitVec 3) (rm : Rm) :
    (VexForm.ofBytes ps rex short (expandVex v).1 (expandVex v).2 reg rm).shortByte l = v := by
  simp only [VexForm.shortByte, VexForm.ofBytes]
  revert l v
  decide

/-- The bytes that `C5 v` stands for have X, B and W clear (R94, R98). -/
theorem expandVex_bits (v : Byte) :
    (expandVex v).1.getLsbD 6 = true ∧ (expandVex v).1.getLsbD 5 = true ∧ (expandVex v).2.getLsbD 7 = false := by
  revert v
  decide

/-- The bytes of a form that was read begin with the bytes it was read from. -/
theorem VexForm.bytes_ofBytes {short l : Bool} {v1 v2 : Byte} {opener : List Byte}
    (ho : VexOpener short v1 v2 opener) (hv1 : v1 &&& 31 = 1) (hv2 : v2 &&& 7 = if l then 5 else 1)
    (ps : List Prefix) (rex : Option Rex) (op : Byte) (reg : BitVec 3) (rm : Rm) :
    (VexForm.ofBytes ps rex short v1 v2 reg rm).bytes l op =
      leadBytes ps rex ++ opener ++ op :: rmBytes reg rm := by
  rw [VexForm.bytes]
  cases ho with
  | two v =>
    rw [shortByte_ofBytes hv2]
    rfl
  | three v1 v2 =>
    rw [v1_ofBytes hv1, v2_ofBytes hv2]
    rfl

/-- A form that was read is well formed: in `Prot32` its fixed bits keep it to registers 0 to 7 (R94, R100). -/
theorem VexForm.wf_ofBytes {m : Mode} {short : Bool} {v1 v2 : Byte} {opener : List Byte}
    (ho : VexOpener short v1 v2 opener) {ps : List Prefix} {rex : Option Rex} {rm : Rm} (hrm : rm.wf = true)
    (hps : prefixesWf m ps rm = true) (hrex : rexWf m rex = true)
    (hfixed : ¬ (m = .prot32 ∧ (v1.extractLsb' 5 3 ≠ 7 ∨ v2.getLsbD 6 = false))) (reg : BitVec 3) :
    (VexForm.ofBytes ps rex short v1 v2 reg rm).wf m = true := by
  have hshort : (!short || (!(!v1.getLsbD 6) && !(!v1.getLsbD 5) && !v2.getLsbD 7)) = true := by
    cases ho with
    | two v =>
      obtain ⟨h6, h5, h7⟩ := expandVex_bits v
      rw [h6, h5, h7]
      rfl
    | three => rfl
  have hlow : (decide (m = .long64) || (!(!v1.getLsbD 7) && !(!v1.getLsbD 6) && !(!v1.getLsbD 5)
      && decide (~~~(v2.extractLsb' 3 4) < 8))) = true := by
    cases m with
    | long64 => rfl
    | prot32 =>
      simp only [true_and, not_or, ne_eq, not_not, Bool.not_eq_false] at hfixed
      obtain ⟨h7, h6, h5⟩ := Machine.bits_of_extract_eq_seven hfixed.1
      have hv : ~~~(v2.extractLsb' 3 4) < 8 := Machine.complement_lt_eight hfixed.2
      simpa [h7, h6, h5] using hv
  simp only [VexForm.wf, Bool.and_eq_true]
  exact ⟨⟨⟨⟨hrm, hps⟩, hrex⟩, hshort⟩, hlow⟩

/-- A VEX string that is accepted is a well-formed form and its bytes. -/
theorem decodeVexBody_inv {m : Mode} {ps : List Prefix} {rex : Option Rex} {short : Bool} {v1 v2 : Byte}
    {opener bs rest : List Byte} {i : Instr} (ho : VexOpener short v1 v2 opener) (hps : overrideCount ps ≤ 1)
    (hrex : rexWf m rex = true) (h : decodeVexBody m ps rex short v1 v2 bs = .ok (i, rest)) :
    i.wf m = true ∧ encode i ++ rest = leadBytes ps rex ++ (opener ++ bs) := by
  unfold decodeVexBody at h
  split at h
  · next op modrm tail =>
    split at h
    · next row hrow =>
      split at h
      · cases h
      · next hfixed =>
        obtain ⟨l, hr, hv1, hv2⟩ := isVexRow_of_findRow hrow
        obtain ⟨rm, hi, hrm, hpw, hbytes⟩ := decodeOperand_inv hps h
        obtain rfl : i = row.build (.ofBytes ps rex short v1 v2 (regField modrm) rm) := hi
        rw [hr.wf, hr.encode, VexForm.bytes_ofBytes ho hv1 hv2]
        exact ⟨VexForm.wf_ofBytes ho hrm hpw hrex hfixed _, by simp [hbytes]⟩
    · cases h
  · cases h

/-- The EVEX form of the bytes `p0`, `p1`, `p2` and of an operand, as step 3 of R114 reads it (R101 to R105). -/
def EvexForm.ofBytes (ps : List Prefix) (rex : Option Rex) (p0 p1 p2 : Byte) (reg : BitVec 3) (rm : Rm) : EvexForm :=
  { prefixes := ps, rex := rex, r := !p0.getLsbD 7, x := !p0.getLsbD 6, b := !p0.getLsbD 5, r' := !p0.getLsbD 4,
    w := p1.getLsbD 7, v := ~~~(p1.extractLsb' 3 4), z := p2.getLsbD 7, bc := p2.getLsbD 4, v' := !p2.getLsbD 3,
    aaa := p2.extractLsb' 0 3, reg := reg, rm := rm }

/-- A form that was read has the bytes `p0`, `p1` and `p2` it was read from. -/
theorem EvexForm.p0_ofBytes {p0 : Byte} (h : p0 &&& 15 = 1) (ps : List Prefix) (rex : Option Rex) (p1 p2 : Byte)
    (reg : BitVec 3) (rm : Rm) : (EvexForm.ofBytes ps rex p0 p1 p2 reg rm).p0 = p0 := by
  simp only [EvexForm.p0, EvexForm.ofBytes]
  revert p0
  decide

theorem EvexForm.p1_ofBytes {p1 : Byte} (h : p1 &&& 7 = 5) (ps : List Prefix) (rex : Option Rex) (p0 p2 : Byte)
    (reg : BitVec 3) (rm : Rm) : (EvexForm.ofBytes ps rex p0 p1 p2 reg rm).p1 = p1 := by
  simp only [EvexForm.p1, EvexForm.ofBytes]
  revert p1
  decide

theorem EvexForm.p2_ofBytes (ps : List Prefix) (rex : Option Rex) (p0 p1 p2 : Byte) (reg : BitVec 3) (rm : Rm) :
    (EvexForm.ofBytes ps rex p0 p1 p2 reg rm).p2 (p2.extractLsb' 5 2) = p2 := by
  simp only [EvexForm.p2, EvexForm.ofBytes]
  revert p2
  decide

/-- The bytes of a form that was read are the bytes it was read from. -/
theorem EvexForm.bytes_ofBytes {p0 p1 : Byte} (hp0 : p0 &&& 15 = 1) (hp1 : p1 &&& 7 = 5) (p2 : Byte)
    (ps : List Prefix) (rex : Option Rex) (op : Byte) (reg : BitVec 3) (rm : Rm) :
    (EvexForm.ofBytes ps rex p0 p1 p2 reg rm).bytes (p2.extractLsb' 5 2) op =
      leadBytes ps rex ++ 0x62 :: p0 :: p1 :: p2 :: op :: rmBytes reg rm := by
  rw [EvexForm.bytes, p0_ofBytes hp0, p1_ofBytes hp1, p2_ofBytes]
  rfl

/-- A form that was read is well formed: W is its row's, and in `Prot32` its fixed bits keep it to registers 0 to 7 (R107,
R112). -/
theorem EvexForm.wf_ofBytes {m : Mode} {w : Option Bool} {p0 p1 p2 : Byte} {ps : List Prefix} {rex : Option Rex}
    {rm : Rm} (hrm : rm.wf = true) (hps : prefixesWf m ps rm = true) (hrex : rexWf m rex = true)
    (hw : w = none ∨ w = some (p1.getLsbD 7))
    (hfixed : ¬ (m = .prot32 ∧ (p0.extractLsb' 4 4 ≠ 15 ∨ p1.getLsbD 6 = false ∨ p2.getLsbD 3 = false)))
    (reg : BitVec 3) : (EvexForm.ofBytes ps rex p0 p1 p2 reg rm).wf m w = true := by
  have hrow : (w.isNone || w == some (p1.getLsbD 7)) = true := by
    rcases hw with rfl | rfl <;> simp
  have hlow : (decide (m = .long64) || (!(!p0.getLsbD 7) && !(!p0.getLsbD 6) && !(!p0.getLsbD 5)
      && !(!p0.getLsbD 4) && !(!p2.getLsbD 3) && decide (~~~(p1.extractLsb' 3 4) < 8))) = true := by
    cases m with
    | long64 => rfl
    | prot32 =>
      simp only [true_and, not_or, ne_eq, not_not, Bool.not_eq_false] at hfixed
      obtain ⟨hp0, hp1, hp2⟩ := hfixed
      obtain ⟨h7, h6, h5, h4⟩ := Machine.bits_of_extract_eq_fifteen hp0
      have hv : ~~~(p1.extractLsb' 3 4) < 8 := Machine.complement_lt_eight hp1
      simpa [h7, h6, h5, h4, hp2] using hv
  simp only [EvexForm.wf, Bool.and_eq_true]
  exact ⟨⟨⟨⟨hrm, hps⟩, hrex⟩, hrow⟩, hlow⟩

/-- An EVEX string that is accepted is a well-formed form and its bytes. -/
theorem decodeEvexBody_inv {m : Mode} {ps : List Prefix} {rex : Option Rex} {p0 p1 p2 : Byte}
    {bs rest : List Byte} {i : Instr} (hps : overrideCount ps ≤ 1) (hrex : rexWf m rex = true)
    (h : decodeEvexBody m ps rex p0 p1 p2 bs = .ok (i, rest)) :
    i.wf m = true ∧ encode i ++ rest = leadBytes ps rex ++ 0x62 :: p0 :: p1 :: p2 :: bs := by
  unfold decodeEvexBody at h
  split at h
  · next op modrm tail =>
    split at h
    · next row hrow =>
      split at h
      · cases h
      · next hfixed =>
        obtain ⟨w, ll, hr, hp0, hp1, hw, rfl⟩ := isEvexRow_of_findRow hrow
        obtain ⟨rm, hi, hrm, hpw, hbytes⟩ := decodeOperand_inv hps h
        obtain rfl : i = row.build (.ofBytes ps rex p0 p1 p2 (regField modrm) rm) := hi
        rw [hr.wf, hr.encode, EvexForm.bytes_ofBytes hp0 hp1]
        exact ⟨EvexForm.wf_ofBytes hrm hpw hrex hw hfixed _, by simp [hbytes]⟩
    · cases h
  · cases h

/-- A string that is accepted after its prefixes and REX, in each format, is a well-formed form and its bytes. -/
theorem decodeBody_inv {m : Mode} {ps : List Prefix} {rex : Option Rex} {bs rest : List Byte} {i : Instr}
    (hps : overrideCount ps ≤ 1) (hrex : rexWf m rex = true) (h : decodeBody m ps rex bs = .ok (i, rest)) :
    i.wf m = true ∧ encode i ++ rest = leadBytes ps rex ++ bs := by
  unfold decodeBody at h
  split at h
  · cases h
  split at h
  · next he => exact he ▸ decodeLegacy_inv hps hrex h
  split at h
  · next he =>
    split at h
    · next v bs =>
      split at h
      · exact he ▸ decodeVexBody_inv (.two v) hps hrex h
      · cases h
    · cases h
  split at h
  · next he =>
    split at h
    · next v1 v2 bs =>
      split at h
      · exact he ▸ decodeVexBody_inv (.three v1 v2) hps hrex h
      · cases h
    · cases h
  split at h
  · next he =>
    split at h
    · split at h
      · exact he ▸ decodeEvexBody_inv hps hrex h
      · cases h
    · cases h
  split at h <;> cases h

/-- What the decoder accepts is a well-formed instruction and the bytes of its encoding. -/
theorem decode_inv {m : Mode} {bs rest : List Byte} {i : Instr} (h : decode m bs = .ok (i, rest)) :
    i.wf m = true ∧ encode i ++ rest = bs := by
  unfold decode at h
  split at h
  · cases h
  · next hps =>
    obtain ⟨hrex, htail⟩ := takeRex_eq m (scanPrefixes bs).2
    obtain ⟨hwf, hbytes⟩ := decodeBody_inv (Nat.not_lt.mp hps) hrex h
    refine ⟨hwf, ?_⟩
    rw [hbytes, leadBytes, List.append_assoc, htail, scanPrefixes_eq]

/-! ## The round trip -/

/-- Settles O46: the decoder reads each format back, row by row. -/
theorem decodeOfEncode : Obligations.DecodeOfEncode := by
  unfold Obligations.DecodeOfEncode
  exact fun m i rest hwf => decode_encode_append hwf rest

/-- Settles O47: each part of the decoder is inverted by the encoder's. -/
theorem encodeOfDecode : Obligations.EncodeOfDecode := by
  unfold Obligations.EncodeOfDecode
  intro m bs i rest h
  obtain ⟨hwf, hbytes⟩ := decode_inv h
  exact ⟨hwf, hbytes.symm⟩

/-! ## Strings that match no row -/

/-- A LEGACY row for each opcode byte with and without 66H, but 6CH with 66H only (R93). -/
theorem exists_legacyRow {opSize : Bool} {op : Byte} (h : op ∈ [0x60, 0x61, 0x62] ∨ op = 0x6C ∧ opSize = true) :
    ∃ row ∈ legacyRows, row.mask = [0xFF, 0xFF, 0xFF, 0x00]
      ∧ row.pattern = [if opSize then 0x66 else 0x00, 0x0F, op, 0x00] := by
  simp only [List.mem_cons, List.not_mem_nil, or_false] at h
  rcases h with (rfl | rfl | rfl) | ⟨rfl, rfl⟩
  · cases opSize
    · exact ⟨legacyRows[0], List.getElem_mem _, rfl, rfl⟩
    · exact ⟨legacyRows[1], List.getElem_mem _, rfl, rfl⟩
  · cases opSize
    · exact ⟨legacyRows[2], List.getElem_mem _, rfl, rfl⟩
    · exact ⟨legacyRows[3], List.getElem_mem _, rfl, rfl⟩
  · cases opSize
    · exact ⟨legacyRows[4], List.getElem_mem _, rfl, rfl⟩
    · exact ⟨legacyRows[5], List.getElem_mem _, rfl, rfl⟩
  · exact ⟨legacyRows[6], List.getElem_mem _, rfl, rfl⟩

/-- Which LEGACY normal forms find a row (R114 step 4). -/
theorem findRow_legacy_eq_none_iff {opSize : Bool} {op modrm : Byte} :
    findRow legacyRows [if opSize then 0x66 else 0x00, 0x0F, op, modrm] = none ↔
      ¬ (op ∈ [0x60, 0x61, 0x62] ∨ op = 0x6C ∧ opSize = true) := by
  constructor
  · intro hnone hop
    obtain ⟨row, hmem, hmask, hpattern⟩ := exists_legacyRow hop
    rw [findRow_of_maskedEq legacyRows_clash hmem (by rw [hmask, hpattern]; simp [maskedEq, and_ones])] at hnone
    cases hnone
  · intro hop
    rw [Option.eq_none_iff_forall_ne_some]
    exact fun row hrow => hop (isLegacyRow_of_findRow hrow).opcode

/-- A LEGACY string after its prefixes, one override at most among them (R114 steps 1 to 3). -/
theorem decode_prefixes_legacy {m : Mode} {ps : List Prefix} (hps : overrideCount ps ≤ 1) (bs : List Byte) :
    decode m (ps.map Prefix.byte ++ 0x0F :: bs) = decodeLegacy m ps none bs := by
  have h := decode_lead (m := m) (rex := none) hps (by simp [rexWf]) (.inl rfl) bs
  rwa [leadBytes, Option.map_none, Option.toList_none, List.append_nil, decodeBody_legacy] at h

/-- More than one segment override is refused before anything else (R85). -/
theorem decode_twoOverrides {m : Mode} {ps : List Prefix} (hps : 1 < overrideCount ps) (bs : List Byte) :
    decode m (ps.map Prefix.byte ++ 0x0F :: bs) = .error .twoOverrides := by
  rw [decode, scanPrefixes_map ps (scanPrefixes_of_not_prefix bs (by decide)), if_pos hps]

/-- F2H or F3H before a LEGACY string is refused before its row is looked for (R83). -/
theorem decodeLegacy_rep {m : Mode} {ps : List Prefix} {rex : Option Rex} {op modrm : Byte} {bs : List Byte}
    (h : .repne ∈ ps ∨ .rep ∈ ps) : decodeLegacy m ps rex (op :: modrm :: bs) = .error .repBeforeLegacy := by
  simp [decodeLegacy, h]

/-- Without F2H and F3H a string that finds no row is not of the family (R114 step 4, R115). -/
theorem decodeLegacy_of_findRow_none {m : Mode} {ps : List Prefix} {rex : Option Rex} {op modrm : Byte}
    {bs : List Byte} (hrepne : .repne ∉ ps) (hrep : .rep ∉ ps)
    (hrow : findRow legacyRows [if ps.contains .opSize then 0x66 else 0x00, 0x0F, op, modrm] = none) :
    decodeLegacy m ps rex (op :: modrm :: bs) = .error .notFamily := by
  simp only [decodeLegacy, Machine.not_contains_iff.mpr hrepne, Machine.not_contains_iff.mpr hrep, Bool.or_self,
    Bool.false_eq_true, if_false, hrow]

/-- Without F2H and F3H the row that is found goes on with the operand (R114 step 5). -/
theorem decodeLegacy_of_findRow_some {m : Mode} {ps : List Prefix} {rex : Option Rex} {op modrm : Byte}
    {bs : List Byte} {row : Row LegacyForm} (hrepne : .repne ∉ ps) (hrep : .rep ∉ ps)
    (hrow : findRow legacyRows [if ps.contains .opSize then 0x66 else 0x00, 0x0F, op, modrm] = some row) :
    decodeLegacy m ps rex (op :: modrm :: bs) =
      decodeOperand m ps (ps.contains .lock) (ps.length + 3) modrm bs fun reg rm => row.build ⟨ps, rex, reg, rm⟩ := by
  simp only [decodeLegacy, Machine.not_contains_iff.mpr hrepne, Machine.not_contains_iff.mpr hrep, Bool.or_self,
    Bool.false_eq_true, if_false, hrow]

/-- An opcode byte of no row (R115). -/
theorem decodeLegacy_notFamily {m : Mode} {ps : List Prefix} {rex : Option Rex} {op modrm : Byte} {bs : List Byte}
    (hrepne : .repne ∉ ps) (hrep : .rep ∉ ps) (hop : op ∉ [0x60, 0x61, 0x62, 0x6C] ∨ op = 0x6C ∧ .opSize ∉ ps) :
    decodeLegacy m ps rex (op :: modrm :: bs) = .error .notFamily := by
  have hnone : ¬ (op ∈ [0x60, 0x61, 0x62] ∨ op = 0x6C ∧ ps.contains .opSize = true) := by
    rw [List.contains_iff_mem]
    rcases hop with hop | ⟨rfl, hsize⟩
    · simp_all
    · simp [hsize]
  exact decodeLegacy_of_findRow_none hrepne hrep (findRow_legacy_eq_none_iff.mpr hnone)

/-- 16-bit addressing of a row's string: refused, or the exception of LOCK before it (R86, log entry 14). -/
theorem decodeLegacy_addr16 {ps : List Prefix} {rex : Option Rex} {op modrm : Byte} {bs : List Byte}
    (hrepne : .repne ∉ ps) (hrep : .rep ∉ ps) (hop : op ∈ [0x60, 0x61, 0x62] ∨ op = 0x6C ∧ .opSize ∈ ps)
    (haddr : .addrSize ∈ ps) (hmod : modField modrm ≠ 3) :
    decodeLegacy .prot32 ps rex (op :: modrm :: bs) = .error (addr16Error (ps.contains .lock) (ps.length + 3)) := by
  rw [← List.contains_iff_mem (a := Prefix.opSize)] at hop
  cases hrow : findRow legacyRows [if ps.contains .opSize then 0x66 else 0x00, 0x0F, op, modrm] with
  | none => exact absurd hop (findRow_legacy_eq_none_iff.mp hrow)
  | some row =>
    rw [decodeLegacy_of_findRow_some hrepne hrep hrow, decodeOperand, if_pos ⟨rfl, List.contains_iff_mem.mpr haddr, hmod⟩]

/-- What 16-bit addressing answers, by LOCK and by the length (log entry 14). -/
theorem addr16Error_eq (ps : List Prefix) (size : Nat) :
    addr16Error (ps.contains .lock) size =
      if .lock ∉ ps then .addr16 else if size ≤ 15 then .badPrefix else .tooLong := by
  by_cases hlock : .lock ∈ ps <;> by_cases hsize : size ≤ 15 <;> simp [addr16Error, hlock, hsize, Nat.lt_of_not_le]

/-- Settles O51: the prefixes are read first, then F2H and F3H are looked for, then the row, then the operand. -/
theorem legacyStringsRefused : Obligations.LegacyStringsRefused := by
  unfold Obligations.LegacyStringsRefused
  refine fun m ps op modrm bs => ⟨fun hps => decode_twoOverrides hps _, fun hps hrep => ?_,
    fun hps hrepne hrep hop => ?_, fun hps hrepne hrep hop hm haddr hmod => ?_⟩
  · rw [decode_prefixes_legacy hps, decodeLegacy_rep hrep]
  · rw [decode_prefixes_legacy hps, decodeLegacy_notFamily hrepne hrep hop]
  · rw [decode_prefixes_legacy hps, hm, decodeLegacy_addr16 hrepne hrep hop haddr hmod, addr16Error_eq]

/-- An EVEX string that finds a row has no reserved and no foreign field (R101 to R107). -/
theorem evexFields_of_findRow {p0 p1 p2 op modrm : Byte} {row : Row EvexForm}
    (h : findRow evexRows [0x62, p0, p1, p2, op, modrm] = some row) :
    p0.extractLsb' 2 2 = 0 ∧ p0.extractLsb' 0 2 = 1 ∧ p1.getLsbD 2 = true ∧ p1.extractLsb' 0 2 = 1
      ∧ p2.extractLsb' 5 2 ≠ 3 ∧ (op = 0x62 → p1.getLsbD 7 = false) ∧ (op = 0x6C → p1.getLsbD 7 = true)
      ∧ op ∈ [0x60, 0x61, 0x62, 0x6C] := by
  obtain ⟨w, ll, hrow, hp0, hp1, hw, rfl⟩ := isEvexRow_of_findRow h
  have h0 : ∀ p : Byte, p &&& 15 = 1 → p.extractLsb' 2 2 = 0 ∧ p.extractLsb' 0 2 = 1 := by decide
  have h1 : ∀ p : Byte, p &&& 7 = 5 → p.getLsbD 2 = true ∧ p.extractLsb' 0 2 = 1 := by decide
  have hop := hrow.opcode
  simp only [List.mem_cons, Prod.mk.injEq, List.not_mem_nil, or_false] at hop
  refine ⟨(h0 p0 hp0).1, (h0 p0 hp0).2, (h1 p1 hp1).1, (h1 p1 hp1).2, hrow.length, ?_⟩
  rcases hop with ⟨rfl, rfl⟩ | ⟨rfl, rfl⟩ | ⟨rfl, rfl⟩ | ⟨rfl, rfl⟩ <;> simp_all

/-- Settles O50: `62` begins EVEX or nothing, and the fields of a row that is found are none of those. -/
theorem reservedEvexMatchesNoRow : Obligations.ReservedEvexMatchesNoRow := by
  unfold Obligations.ReservedEvexMatchesNoRow
  intro m p0 p1 p2 op modrm bs hfields
  have hnone : findRow evexRows [0x62, p0, p1, p2, op, modrm] = none := by
    rw [Option.eq_none_iff_forall_ne_some]
    intro row hrow
    obtain ⟨hreserved, hmm, hfixed, hpp, hll, hw62, hw6C, hop⟩ := evexFields_of_findRow hrow
    rcases hfields with h | h | h | h | h | ⟨h, hw⟩ | ⟨h, hw⟩ | h
    · exact h hreserved
    · exact h hmm
    · exact Bool.false_ne_true (h.symm.trans hfixed)
    · exact h hpp
    · exact hll h
    · exact Bool.false_ne_true ((hw62 h).symm.trans hw)
    · exact Bool.false_ne_true (hw.symm.trans (hw6C h))
    · exact h hop
  have hlead := decode_lead (m := m) (ps := []) (rex := none) (Nat.zero_le 1) (by simp [rexWf])
    (.inr (.inr (.inr rfl))) (p0 :: p1 :: p2 :: op :: modrm :: bs)
  have hbody : decodeEvexBody m [] none p0 p1 p2 (op :: modrm :: bs) = .error .notFamily := by
    rw [decodeEvexBody, hnone]
  refine hlead.trans ?_
  cases hvex : isVexIn m p0 with
  | true => rw [decodeBody_evex hvex, hbody]
  | false => simp [decodeBody, hvex]

/-! ## Words and register numbers -/

/-- Settles O48: each word is the encoding of its instruction, which the decoder reads back. -/
theorem wordsDecodeRight : Obligations.WordsDecodeRight := by
  unfold Obligations.WordsDecodeRight
  exact ⟨decode_encode_append (i := .punpcklbwMm ⟨[], none, 0, .reg 1⟩) rfl [],
    decode_encode_append (i := .punpcklwdXmm ⟨[.opSize], some ⟨false, true, false, true⟩, 1, .reg 6⟩) rfl [],
    decode_encode_append
      (i := .vpunpckldqYmmVex ⟨[], none, true, false, false, false, false, 1, 3, .mem (.base 3 .none)⟩) rfl [],
    decode_encode_append
      (i := .vpunpcklqdqZmmEvex ⟨[], none, false, false, false, false, true, 1, true, true, false, 1, 4,
        .mem (.base 1 (.d8 1))⟩) rfl []⟩

/-- A register number of two extension bits and a field, as a number (R88, R97, R105). -/
theorem num5_toNat (high ext : Bool) (field : BitVec 3) :
    (num5 high ext field).toNat = 16 * high.toNat + 8 * ext.toNat + field.toNat := by
  revert high ext field
  decide

/-- The first source of an EVEX or VEX form, as a number (R97, R105). -/
theorem EvexForm.s1_toNat (f : EvexForm) : f.s1.toNat = 16 * f.v'.toNat + f.v.toNat := by
  unfold EvexForm.s1
  generalize f.v' = v', f.v = v
  revert v' v
  decide

theorem VexForm.s1_toNat (f : VexForm) : f.s1.toNat = f.v.toNat := by
  rw [VexForm.s1, BitVec.toNat_setWidth]
  omega

/-- Settles O40: every register number is `num5` of its bits, or the field `v`. -/
theorem registerNumbers : Obligations.RegisterNumbers := by
  unfold Obligations.RegisterNumbers
  refine ⟨fun f rm => ⟨?_, ?_⟩, fun f rm => ⟨?_, f.s1_toNat, ?_⟩, fun f rm => ⟨num5_toNat .., f.s1_toNat, num5_toNat ..⟩⟩
  · simp [LegacyForm.d, num5_toNat]
  · simp [LegacyForm.s, num5_toNat]
  · simp [VexForm.d, num5_toNat]
  · simp [VexForm.s2, num5_toNat]

end Sys2Proof

namespace Sys2Proof.Machine

/-! ## Length -/

/-- The length is the first check of every shape (R211 step 1). -/
theorem Shape.checks_of_tooLong {h : Shape} (hlen : 15 < h.len) (s : State) :
    firstStop (h.checks s) = .error (.fault (.gp s.rip)) := by
  have hlong : tooLong h.len = true := decide_eq_true hlen
  cases h <;> exact if_pos hlong

/-- Settles O29: the first check fails. -/
theorem tooLongRaisesGp : Obligations.TooLongRaisesGp := by
  unfold Obligations.TooLongRaisesGp
  intro i m s hm hlen
  exact exec_of_stop hm (Shape.checks_of_tooLong (len_eq_shape_len i ▸ hlen) s)

/-! ## Effective addresses -/

/-- A register term is its number modulo 2^64 (R92). -/
theorem addrTerm_eq_ofInt (s : State) (size32 : Bool) (i : BitVec 4) :
    s.addrTerm size32 i = BitVec.ofInt 64 (termValue s size32 i) := by
  rw [BitVec.ofInt_natCast]
  apply BitVec.eq_of_toNat_eq
  have := (s.gAt i).isLt
  cases size32 <;> simp [State.addrTerm, termValue]

/-- A displacement term is its signed number modulo 2^64 (R89, R113). -/
theorem dispTerm_eq_ofInt (scale : Nat) (d : Disp) : dispTerm scale d = BitVec.ofInt 64 (dispValue scale d) := by
  cases d with
  | none => rfl
  | d8 d => rw [dispTerm, dispValue, BitVec.ofInt_mul, BitVec.ofInt_natCast]; rfl
  | d32 d => rfl

/-- The index term is its number modulo 2^64 (R90). -/
theorem indexTerm_eq_ofInt (s : State) (c : Addressing) (size32 : Bool) (scale : BitVec 2) (index : BitVec 3) :
    s.indexTerm c size32 scale index =
      BitVec.ofInt 64
        (if num4 c.x index = 4 then 0 else termValue s size32 (num4 c.x index) * 2 ^ scale.toNat : Nat) := by
  rw [State.indexTerm]
  split
  · rfl
  · rw [addrTerm_eq_ofInt, BitVec.ofInt_natCast, BitVec.ofInt_natCast]
    apply BitVec.eq_of_toNat_eq
    simp [Nat.shiftLeft_eq]

/-- The sum of R89 to R91 is the exact sum modulo 2^64. -/
theorem addrSum_eq_ofInt (s : State) (m : Mode) (c : Addressing) (a : Addr) :
    s.addrSum m c a = BitVec.ofInt 64 (addrValue s m c a) := by
  cases a with
  | base rm d => rw [State.addrSum, addrValue, BitVec.ofInt_add, addrTerm_eq_ofInt, dispTerm_eq_ofInt]
  | disp32 d =>
    cases m with
    | prot32 => rfl
    | long64 =>
      simp only [State.addrSum, addrValue, BitVec.ofInt_add, BitVec.ofInt_natCast, BitVec.ofNat_toNat,
        BitVec.setWidth_eq, BitVec.signExtend]
  | sib ss i b d =>
    rw [State.addrSum, addrValue, BitVec.ofInt_add, BitVec.ofInt_add, addrTerm_eq_ofInt, indexTerm_eq_ofInt,
      dispTerm_eq_ofInt]
  | sibDisp32 ss i d =>
    rw [State.addrSum, addrValue, BitVec.ofInt_add, indexTerm_eq_ofInt]
    rfl

/-- The effective address is the exact sum modulo the address size (R92). -/
theorem effAddr_toNat (s : State) (m : Mode) (c : Addressing) (a : Addr) :
    ((s.effAddr m c a).toNat : Int) = addrValue s m c a % (if c.size32 m = true then 2 ^ 32 else 2 ^ 64) := by
  rw [State.effAddr, addrSum_eq_ofInt]
  split
  · simp only [BitVec.toNat_setWidth, BitVec.toNat_ofInt]
    omega
  · rw [BitVec.toNat_ofInt]
    omega

/-- With a REX the REX bits are its own (R88). -/
theorem rexBit_of_some {f : LegacyForm} {r : Rex} (h : f.rex = some r) (bit : Rex → Bool) : f.rexBit bit = bit r := by
  rw [LegacyForm.rexBit, h]

/-- `B` and `X` of a legacy form's address are those of its REX, 0 without REX (R89, R90). -/
theorem legacyAddressing_bits (f : LegacyForm) :
    (f.rex = none → (legacyAddressing f).b = false ∧ (legacyAddressing f).x = false)
      ∧ ∀ r, f.rex = some r → (legacyAddressing f).b = r.b ∧ (legacyAddressing f).x = r.x :=
  ⟨fun h => ⟨rexBit_of_none h _, rexBit_of_none h _⟩, fun _ h => ⟨rexBit_of_some h _, rexBit_of_some h _⟩⟩

/-- A shape's address is read after the shape's own prefixes and counts the shape's own bytes (R91). -/
theorem Shape.addressing_prefixes_len (h : Shape) :
    h.addressing.prefixes = h.prefixes ∧ h.addressing.len = h.len := by
  cases h <;> exact ⟨rfl, rfl⟩

/-- Settles O41: the terms are numbers modulo 2^64, and cutting to 32 bits commutes with the sum. -/
theorem effectiveAddressSum : Obligations.EffectiveAddressSum := by
  unfold Obligations.EffectiveAddressSum
  refine ⟨effAddr_toNat, fun i => ?_⟩
  obtain ⟨hprefixes, hlen⟩ := (shape i).addressing_prefixes_len
  refine ⟨hprefixes, hlen.trans (len_eq_shape_len i).symm, ?_⟩
  cases shape i with
  | mm esz f => exact ⟨rfl, legacyAddressing_bits f⟩
  | xmm esz f => exact ⟨rfl, legacyAddressing_bits f⟩
  | vex esz vl f => exact ⟨rfl, rfl, rfl⟩
  | evex esz vl f =>
    have hscale : (Shape.evex esz vl f).addressing.scale = if f.bc then esz / 8 else vl / 8 := rfl
    exact ⟨fun h => by rw [hscale, h]; rfl, fun h _ => by rw [hscale, h]; rfl, rfl, rfl⟩

/-! ## Segments -/

/-- The base registers whose default segment is SS, by their numbers (R85). -/
theorem num4_eq_four_or_five_iff (b : Bool) (field : BitVec 3) :
    num4 b field = 4 ∨ num4 b field = 5 ↔ (num4 b field).toNat ∈ [4, 5] := by
  revert b field
  decide

/-- Without an override the segment is the default one. -/
theorem operandSegment_of_none {c : Addressing} (h : overrideOf c.prefixes = none) (m : Mode) (a : Addr) :
    operandSegment m c a = defaultSegment c a := by
  unfold operandSegment
  rw [h]
  cases m <;> rfl

/-- An override decides in `Prot32`; in `Long64` FS and GS do. -/
theorem operandSegment_of_some {c : Addressing} {n : SegName} (h : overrideOf c.prefixes = some n) (a : Addr) :
    operandSegment .prot32 c a = n
      ∧ operandSegment .long64 c a = if n = .fs ∨ n = .gs then n else defaultSegment c a := by
  unfold operandSegment
  rw [h]
  cases n <;> exact ⟨rfl, rfl⟩

/-- The default segment does not depend on the prefixes. -/
theorem defaultSegment_prefixes (c : Addressing) (ps : List Prefix) (a : Addr) :
    defaultSegment { c with prefixes := ps } a = defaultSegment c a := by
  cases a <;> rfl

/-- Settles O42: the default segment of each addressing form, and the overrides of each mode. -/
theorem segmentChoice : Obligations.SegmentChoice := by
  unfold Obligations.SegmentChoice
  refine ⟨fun c a m h => ?_, fun c a n h => ?_⟩
  · rw [operandSegment_of_none h]
    cases a with
    | base rm d => simp only [defaultSegment, num4_eq_four_or_five_iff]
    | disp32 d => rfl
    | sib ss i b d => simp only [defaultSegment, num4_eq_four_or_five_iff]
    | sibDisp32 ss i d => rfl
  · rw [operandSegment_of_none (c := { c with prefixes := [] }) rfl, defaultSegment_prefixes]
    exact operandSegment_of_some h a

end Sys2Proof.Machine

/-! # The interleave primitives (40_interleave_primitives.md)

`UNPCKL` is each block of the source, because a block lists the result's elements; `UNPCKL` and `MASKWRITE` are fixed by
what their elements are, one lane at a time. -/

namespace Sys2Proof.Machine

/-! ## The blocks of the source

A block is `++` of the elements of its result, so once `ofElems` is known to be that concatenation, `UNPCKL` and a block are
the same lines by unfolding. -/

/-- The width of `k + 1` elements written one after the other. -/
def concatWidth (esz : Nat) : Nat → Nat
  | 0 => esz
  | k + 1 => concatWidth esz k + esz

/-- The elements `f k`, …, `f 1`, `f 0`, most significant first, joined by `++` as the lines of a block are. -/
def elemConcat (esz : Nat) : (k : Nat) → (Nat → BitVec esz) → BitVec (concatWidth esz k)
  | 0, f => f 0
  | k + 1, f => elemConcat esz k (fun q => f (q + 1)) ++ f 0

/-- `k + 1` elements of `esz` bits. -/
theorem concatWidth_eq (esz k : Nat) : concatWidth esz k = (k + 1) * esz := by
  induction k with
  | zero => simp [concatWidth]
  | succ k ih => rw [concatWidth, ih, Nat.succ_mul (k + 1)]

/-- An element of a concatenation of elements. -/
theorem elem_elemConcat {esz k q : Nat} (f : Nat → BitVec esz) (hq : q ≤ k) : elem esz (elemConcat esz k f) q = f q := by
  induction k generalizing f q with
  | zero =>
    obtain rfl : q = 0 := by omega
    exact elem_self _
  | succ k ih =>
    cases q with
    | zero => exact elem_append_zero _ _
    | succ q => exact (elem_append_succ _ _ _).trans (ih _ (by omega))

/-- `ofElems` writes its elements one after the other. -/
theorem ofElems_eq_elemConcat {esz : Nat} (hesz : 0 < esz) (k : Nat) (f : Nat → BitVec esz) :
    ofElems esz (concatWidth esz k) f = elemConcat esz k f := by
  have hdvd : esz ∣ concatWidth esz k := ⟨k + 1, by rw [concatWidth_eq, Nat.mul_comm]⟩
  refine eq_of_elem_eq hesz hdvd fun q hq => ?_
  have hle : q ≤ k := by
    rw [concatWidth_eq, Nat.mul_div_cancel _ hesz] at hq
    omega
  rw [elem_ofElems f hesz hdvd hq, elem_elemConcat f hle]

/-- PUNPCKLBW with 64-bit operands is UNPCKL (R131). -/
theorem unpckl_eq_punpcklbw64 (a b : BitVec 64) : unpckl 8 64 a b = punpcklbw64 a b :=
  ofElems_eq_elemConcat (by decide) 7 _

/-- PUNPCKLWD with 64-bit operands is UNPCKL (R132). -/
theorem unpckl_eq_punpcklwd64 (a b : BitVec 64) : unpckl 16 64 a b = punpcklwd64 a b :=
  ofElems_eq_elemConcat (by decide) 3 _

/-- PUNPCKLDQ with 64-bit operands is UNPCKL (R133). -/
theorem unpckl_eq_punpckldq64 (a b : BitVec 64) : unpckl 32 64 a b = punpckldq64 a b :=
  ofElems_eq_elemConcat (by decide) 1 _

/-- INTERLEAVE_BYTES is UNPCKL (R134). -/
theorem unpckl_eq_interleaveBytes (a b : BitVec 128) : unpckl 8 128 a b = interleaveBytes a b :=
  ofElems_eq_elemConcat (by decide) 15 _

/-- INTERLEAVE_BYTES_256b is UNPCKL (R135). -/
theorem unpckl_eq_interleaveBytes256 (a b : BitVec 256) : unpckl 8 256 a b = interleaveBytes256 a b :=
  ofElems_eq_elemConcat (by decide) 31 _

/-- INTERLEAVE_WORDS is UNPCKL (R143). -/
theorem unpckl_eq_interleaveWords (a b : BitVec 128) : unpckl 16 128 a b = interleaveWords a b :=
  ofElems_eq_elemConcat (by decide) 7 _

/-- INTERLEAVE_WORDS_256b is UNPCKL (R144). -/
theorem unpckl_eq_interleaveWords256 (a b : BitVec 256) : unpckl 16 256 a b = interleaveWords256 a b :=
  ofElems_eq_elemConcat (by decide) 15 _

/-- Settles O1: each 64-bit block lists the elements of `UNPCKL`. -/
theorem unpckl64EqualsBlocks : Obligations.Unpckl64EqualsBlocks := by
  unfold Obligations.Unpckl64EqualsBlocks
  exact fun a b => ⟨unpckl_eq_punpcklbw64 a b, unpckl_eq_punpcklwd64 a b, unpckl_eq_punpckldq64 a b⟩

/-- Settles O2: each byte block lists the elements of `UNPCKL`, the 512-bit one by its halves. -/
theorem unpcklBytesEqualsBlocks : Obligations.UnpcklBytesEqualsBlocks := by
  unfold Obligations.UnpcklBytesEqualsBlocks
  exact ⟨unpckl_eq_interleaveBytes, unpckl_eq_interleaveBytes256,
    unpckl_512_eq (by decide) (by decide) unpckl_eq_interleaveBytes256⟩

/-- Settles O3: each word block lists the elements of `UNPCKL`, the 512-bit one by its halves. -/
theorem unpcklWordsEqualsBlocks : Obligations.UnpcklWordsEqualsBlocks := by
  unfold Obligations.UnpcklWordsEqualsBlocks
  exact ⟨unpckl_eq_interleaveWords, unpckl_eq_interleaveWords256,
    unpckl_512_eq (by decide) (by decide) unpckl_eq_interleaveWords256⟩

/-- Settles O4: the doubleword blocks, at each width. -/
theorem unpcklDwordsEqualsBlocks : Obligations.UnpcklDwordsEqualsBlocks := by
  unfold Obligations.UnpcklDwordsEqualsBlocks
  exact ⟨unpckl_eq_interleaveDwords, unpckl_eq_interleaveDwords256, unpckl_eq_interleaveDwords512⟩

/-- Settles O5: the quadword blocks, at each width. -/
theorem unpcklQwordsEqualsBlocks : Obligations.UnpcklQwordsEqualsBlocks := by
  unfold Obligations.UnpcklQwordsEqualsBlocks
  exact ⟨unpckl_eq_interleaveQwords, unpckl_eq_interleaveQwords256, unpckl_eq_interleaveQwords512⟩

/-! ## Elements by lane -/

/-- `n` bits are whole lanes, and a lane is whole elements of width `esz`. -/
structure WholeLanes (esz n : Nat) : Prop where
  pos : 0 < esz
  elems : esz ∣ laneWidth n
  lanes : laneWidth n ∣ n

/-- Decidable at given widths, by its parts. -/
theorem wholeLanes_iff {esz n : Nat} :
    WholeLanes esz n ↔ 0 < esz ∧ esz ∣ laneWidth n ∧ laneWidth n ∣ n :=
  ⟨fun h => ⟨h.pos, h.elems, h.lanes⟩, fun ⟨hpos, helems, hlanes⟩ => ⟨hpos, helems, hlanes⟩⟩

/-- The element and operation widths of R139. -/
theorem wholeLanes_of_mem : ∀ esz ∈ [8, 16, 32, 64], ∀ n ∈ [64, 128, 256, 512], WholeLanes esz n := by
  simp only [wholeLanes_iff]
  decide

/-- At the widths that occur a lane is whole pairs of elements: its low-order half is whole elements. -/
theorem wholeLanes_two_mul_of_occurs {esz n : Nat}
    (h : (esz, n) ∈ [(8, 64), (16, 64), (32, 64)] ∨ (esz ∈ [8, 16, 32, 64] ∧ n ∈ [128, 256, 512])) :
    WholeLanes (2 * esz) n := by
  have hmmx : ∀ p ∈ [(8, 64), (16, 64), (32, 64)], WholeLanes (2 * p.1) p.2 := by
    simp only [wholeLanes_iff]
    decide
  have hvec : ∀ e ∈ [8, 16, 32, 64], ∀ w ∈ [128, 256, 512], WholeLanes (2 * e) w := by
    simp only [wholeLanes_iff]
    decide
  rcases h with hpair | ⟨he, hn⟩
  · exact hmmx _ hpair
  · exact hvec _ he _ hn

section Lanes
variable {esz n : Nat}

/-- The value is whole elements. -/
theorem WholeLanes.dvd (h : WholeLanes esz n) : esz ∣ n := h.elems.trans h.lanes

/-- The elements of a value, counted lane by lane. -/
theorem WholeLanes.elems_eq (h : WholeLanes esz n) : n / esz = n / laneWidth n * (laneWidth n / esz) := by
  rw [← Nat.mul_div_assoc _ h.elems, Nat.div_mul_cancel h.lanes]

/-- A lane holds an element. -/
theorem WholeLanes.epl_pos (h : WholeLanes esz n) : 0 < laneWidth n / esz := by
  have hlane : 0 < laneWidth n := by
    unfold laneWidth
    split <;> decide
  exact Nat.div_pos (Nat.le_of_dvd hlane h.elems) h.pos

/-- Where element `t` of lane `l` begins. -/
theorem WholeLanes.elem_pos (h : WholeLanes esz n) (l t : Nat) :
    (l * (laneWidth n / esz) + t) * esz = laneWidth n * l + t * esz := by
  rw [Nat.add_mul, Nat.mul_assoc, Nat.div_mul_cancel h.elems, Nat.mul_comm l]

/-- Element `t` of lane `l` is an element of the value. -/
theorem WholeLanes.index_lt (h : WholeLanes esz n) {l t : Nat} (hl : l < n / laneWidth n)
    (ht : t < laneWidth n / esz) : l * (laneWidth n / esz) + t < n / esz := by
  have hlane : (l + 1) * (laneWidth n / esz) ≤ n / laneWidth n * (laneWidth n / esz) := Nat.mul_le_mul_right _ hl
  rw [h.elems_eq]
  rw [Nat.succ_mul] at hlane
  omega

/-- Every element is one of some lane. -/
theorem WholeLanes.exists_lane (h : WholeLanes esz n) {q : Nat} (hq : q < n / esz) :
    ∃ l < n / laneWidth n, ∃ t < laneWidth n / esz, q = l * (laneWidth n / esz) + t := by
  rw [h.elems_eq] at hq
  exact ⟨q / (laneWidth n / esz), Nat.div_lt_of_lt_mul (by rwa [Nat.mul_comm]), q % (laneWidth n / esz),
    Nat.mod_lt _ h.epl_pos, (Nat.div_add_mod' q _).symm⟩

/-- Two values with the same elements in each lane are equal. -/
theorem WholeLanes.eq_of_elem_lane_eq (h : WholeLanes esz n) {a b : BitVec n}
    (heq : ∀ l < n / laneWidth n, ∀ t < laneWidth n / esz,
      elem esz a (l * (laneWidth n / esz) + t) = elem esz b (l * (laneWidth n / esz) + t)) : a = b := by
  refine eq_of_elem_eq h.pos h.dvd fun q hq => ?_
  obtain ⟨l, hl, t, ht, rfl⟩ := h.exists_lane hq
  exact heq l hl t ht

/-- Element `t` of lane `l` of `UNPCKL` (R139). -/
theorem elem_unpckl_lane (h : WholeLanes esz n) (a b : BitVec n) {l t : Nat} (hl : l < n / laneWidth n)
    (ht : t < laneWidth n / esz) :
    elem esz (unpckl esz n a b) (l * (laneWidth n / esz) + t) =
      if t % 2 = 0 then elem esz a (l * (laneWidth n / esz) + t / 2)
      else elem esz b (l * (laneWidth n / esz) + t / 2) := by
  have hmod : (l * (laneWidth n / esz) + t) % (laneWidth n / esz) = t := by
    rw [Nat.mul_add_mod_self_right, Nat.mod_eq_of_lt ht]
  have hsrc : sourceIndex (laneWidth n / esz) t = t / 2 := by
    rw [sourceIndex, Nat.div_eq_of_lt ht, Nat.mod_eq_of_lt ht, Nat.zero_mul, Nat.zero_add]
  rw [elem_unpckl h.pos h.dvd a b (h.index_lt hl ht), hmod, sourceIndex_add_lanes h.epl_pos, hsrc]

/-! ## Pairs of elements -/

/-- Whole pairs of elements are whole elements. -/
theorem WholeLanes.of_two_mul (h : WholeLanes (2 * esz) n) : WholeLanes esz n where
  pos := Nat.pos_of_mul_pos_left h.pos
  elems := (Nat.dvd_mul_left esz 2).trans h.elems
  lanes := h.lanes

/-- A lane holds twice as many elements as pairs of elements. -/
theorem WholeLanes.epl_eq_two_mul (h : WholeLanes (2 * esz) n) :
    laneWidth n / esz = 2 * (laneWidth n / esz / 2) := by
  obtain ⟨c, hc⟩ := h.elems
  have hepl : laneWidth n / esz = 2 * c := by
    rw [hc, Nat.mul_right_comm, Nat.mul_div_cancel _ h.of_two_mul.pos]
  omega

/-- The two elements of `UNPCKL` that copy element `i` of the low half of lane `l` (R139). -/
theorem elem_unpckl_pair (h : WholeLanes (2 * esz) n) (a b : BitVec n) {l i : Nat} (hl : l < n / laneWidth n)
    (hi : i < laneWidth n / esz / 2) :
    elem esz (unpckl esz n a b) (l * (laneWidth n / esz) + 2 * i) = elem esz a (l * (laneWidth n / esz) + i)
      ∧ elem esz (unpckl esz n a b) (l * (laneWidth n / esz) + 2 * i + 1) =
        elem esz b (l * (laneWidth n / esz) + i) := by
  constructor
  · rw [elem_unpckl_lane h.of_two_mul a b hl (by omega), if_pos (by omega), Nat.mul_div_cancel_left i two_pos]
  · rw [Nat.add_assoc, elem_unpckl_lane h.of_two_mul a b hl (by omega), if_neg (by omega),
      show (2 * i + 1) / 2 = i by omega]

/-- Element `i` of the low half of lane `l`, read from that half alone. -/
theorem elem_eq_elem_lowHalf (h : WholeLanes (2 * esz) n) (a : BitVec n) (l : Nat) {i : Nat}
    (hi : i < laneWidth n / esz / 2) :
    elem esz a (l * (laneWidth n / esz) + i) =
      elem esz (a.extractLsb' (laneWidth n * l) (laneWidth n / 2)) i := by
  have hlane : 2 * (laneWidth n / esz / 2 * esz) = laneWidth n := by
    rw [← Nat.mul_assoc, ← h.epl_eq_two_mul, Nat.div_mul_cancel h.of_two_mul.elems]
  have hend : (i + 1) * esz ≤ laneWidth n / esz / 2 * esz := Nat.mul_le_mul_right esz hi
  refine BitVec.eq_of_getLsbD_eq fun p hp => ?_
  have hlt : i * esz + p < laneWidth n / 2 := by
    rw [Nat.succ_mul] at hend
    omega
  rw [elem_getLsbD, elem_getLsbD, BitVec.getLsbD_extractLsb', h.of_two_mul.elem_pos, Nat.add_assoc,
    decide_eq_true hlt, Bool.true_and]

/-- `UNPCKL` is the same for inputs with the same low half of each lane (R140). -/
theorem unpckl_congr_of_lowHalves (h : WholeLanes (2 * esz) n) {a a' b b' : BitVec n}
    (ha : ∀ l < n / laneWidth n, a.extractLsb' (laneWidth n * l) (laneWidth n / 2) =
      a'.extractLsb' (laneWidth n * l) (laneWidth n / 2))
    (hb : ∀ l < n / laneWidth n, b.extractLsb' (laneWidth n * l) (laneWidth n / 2) =
      b'.extractLsb' (laneWidth n * l) (laneWidth n / 2)) :
    unpckl esz n a b = unpckl esz n a' b' := by
  refine h.of_two_mul.eq_of_elem_lane_eq fun l hl t ht => ?_
  have hi : t / 2 < laneWidth n / esz / 2 := by
    have heven := h.epl_eq_two_mul
    omega
  rw [elem_unpckl_lane h.of_two_mul a b hl ht, elem_unpckl_lane h.of_two_mul a' b' hl ht]
  simp only [elem_eq_elem_lowHalf h _ l hi, ha l hl, hb l hl]

/-- A bit of an element of double width is one of the pair of elements it covers. -/
theorem elem_two_mul_getLsbD (x : BitVec n) (q : Nat) {p : Nat} (hp : p < 2 * esz) :
    (elem (2 * esz) x q).getLsbD p =
      if p < esz then (elem esz x (2 * q)).getLsbD p else (elem esz x (2 * q + 1)).getLsbD (p - esz) := by
  have hlow : q * (2 * esz) = 2 * q * esz := by ring
  split
  · next hlt => simp only [elem_getLsbD, hp, hlt, hlow, decide_true, Bool.true_and]
  · next hge =>
    have hpos : q * (2 * esz) + p = (2 * q + 1) * esz + (p - esz) := by
      have hodd : (2 * q + 1) * esz = 2 * q * esz + esz := Nat.succ_mul _ _
      omega
    have hsub : p - esz < esz := by omega
    simp only [elem_getLsbD, hp, hsub, hpos, decide_true, Bool.true_and]

/-- A pair of elements whose upper one is zero is the lower one, zero-extended. -/
theorem elem_two_mul_eq_setWidth {x : BitVec n} {q : Nat} (hzero : elem esz x (2 * q + 1) = 0) :
    elem (2 * esz) x q = (elem esz x (2 * q)).setWidth (2 * esz) := by
  refine BitVec.eq_of_getLsbD_eq fun p hp => ?_
  rw [elem_two_mul_getLsbD x q hp, hzero, BitVec.getLsbD_setWidth, decide_eq_true hp, Bool.true_and]
  split
  · rfl
  · next hge => rw [BitVec.getLsbD_of_ge _ p (by omega)]; exact BitVec.getLsbD_zero

end Lanes

/-- An element of zero is zero. -/
theorem elem_zero (esz n j : Nat) : elem esz (0 : BitVec n) j = 0 := by
  refine BitVec.eq_of_getLsbD_eq fun p _ => ?_
  simp [elem_getLsbD]

/-! ## The statements by elements -/

/-- Settles O6: the element of a lane, at the widths of R139. -/
theorem unpcklByElements : Obligations.UnpcklByElements := by
  unfold Obligations.UnpcklByElements
  intro esz n hesz hn a b l t hl ht
  exact elem_unpckl_lane (wholeLanes_of_mem esz hesz n hn) a b hl ht

/-- Settles O7: every source element lies in the low half of its lane; the one lane of a 64-bit input begins at bit 0. -/
theorem unpcklIgnoresHighElements : Obligations.UnpcklIgnoresHighElements := by
  unfold Obligations.UnpcklIgnoresHighElements
  constructor
  · intro esz hesz a a' b b' ha hb
    have hlanes : WholeLanes (2 * esz) 64 := wholeLanes_two_mul_of_occurs (.inl (by simpa using hesz))
    refine unpckl_congr_of_lowHalves hlanes (fun l hl => ?_) (fun l hl => ?_) <;>
      obtain rfl : l = 0 := Nat.lt_one_iff.mp hl
    · exact ha
    · exact hb
  · intro esz n hesz hn a a' b b' ha hb
    have hwidth : laneWidth n = 128 :=
      laneWidth_of_dvd ((by decide : ∀ n ∈ [128, 256, 512], 128 ∣ n) n hn)
    have hlanes : WholeLanes (2 * esz) n := wholeLanes_two_mul_of_occurs (.inr ⟨hesz, hn⟩)
    refine unpckl_congr_of_lowHalves hlanes ?_ ?_ <;> rw [hwidth]
    · exact ha
    · exact hb

/-- Settles O8: the odd element of each pair comes from the zero input. -/
theorem zeroSourceZeroExtends : Obligations.ZeroSourceZeroExtends := by
  unfold Obligations.ZeroSourceZeroExtends
  intro esz n hocc a l i hl hi
  have hlanes : WholeLanes (2 * esz) n := wholeLanes_two_mul_of_occurs hocc
  obtain ⟨heven, hodd⟩ := elem_unpckl_pair hlanes a 0 hl hi
  have hpair : 2 * (l * (laneWidth n / esz / 2) + i) = l * (laneWidth n / esz) + 2 * i := by
    rw [Nat.mul_add, Nat.mul_left_comm, ← hlanes.epl_eq_two_mul]
  rw [elem_zero, ← hpair] at hodd
  rw [← hpair] at heven
  exact (elem_two_mul_eq_setWidth hodd).trans (by rw [heven]; rfl)

/-- Settles O9: both elements of a pair copy the same element. -/
theorem sameSourceDuplicates : Obligations.SameSourceDuplicates := by
  unfold Obligations.SameSourceDuplicates
  intro esz n hocc a l i hl hi
  exact elem_unpckl_pair (wholeLanes_two_mul_of_occurs hocc) a a hl hi

/-- Settles O10: the element of MASKWRITE, which reads mask bit `j` for element `j` and no other. -/
theorem maskWriteByElements : Obligations.MaskWriteByElements := by
  unfold Obligations.MaskWriteByElements
  intro esz vl hesz hvl nomask k k' z old tmp
  have hlanes : WholeLanes esz vl := wholeLanes_of_mem esz hesz vl (List.mem_cons_of_mem 64 hvl)
  refine ⟨fun j hj => ?_, fun hmask => eq_of_elem_eq hlanes.pos hlanes.dvd fun j hj => ?_⟩
  · simp only [elem_maskWrite hlanes.pos hlanes.dvd nomask k z old tmp hj, Bool.or_eq_true]
  · simp only [elem_maskWrite hlanes.pos hlanes.dvd nomask _ z old tmp hj, hmask j hj]

end Sys2Proof.Machine

/-! # The instructions complete with the results of their blocks (41_punpcklbw.md to 44_punpcklqdq.md)

A ready instruction with a readable operand leaves `UNPCKL` of its two sources; the second source is the register that
ModRM:r/m names or the little-endian value of the operand's bytes; `UNPCKL` is the block of the row. -/

namespace Sys2Proof.Machine

/-! ## Second sources -/

/-- A register operand asks nothing of memory. -/
theorem operandOk_of_reg {i : Instr} {rm : BitVec 3} (hrm : (shape i).rm = .reg rm) (m : Mode) (s : State) :
    OperandOk i m s := by
  intro a ha
  rw [hrm] at ha
  cases ha

section Sources

variable {s : State} {m : Mode} {a : Addr} {rm : BitVec 3}

theorem mmValue_of_reg {f : LegacyForm} (hrm : f.rm = .reg rm) : s.mmValue m f = s.mmAt rm := by
  simp only [State.mmValue, hrm]

theorem xmmValue_of_reg {f : LegacyForm} (hrm : f.rm = .reg rm) : s.xmmValue m f = s.vLow 128 (f.s rm) := by
  simp only [State.xmmValue, hrm]

theorem vexValue_of_reg {vl : Nat} {f : VexForm} (hrm : f.rm = .reg rm) :
    s.vexValue m vl f = s.vLow vl (f.s2 rm) := by
  simp only [State.vexValue, hrm]

theorem evexValue_of_reg {esz vl : Nat} {f : EvexForm} (hrm : f.rm = .reg rm) :
    s.evexValue m esz vl f = s.vLow vl (f.s2 rm) := by
  simp only [State.evexValue, hrm]

/-- The little-endian value of an operand's bytes is the value of the operand (R50). -/
theorem IsMemValue.eq_operandValue {c : Addressing} {w : Nat} {b : BitVec w}
    (hb : IsMemValue s m (s.linear m (operandSegment m c a) (s.effAddr m c a)) b) (hw : 8 ∣ w) :
    s.operandValue m c a w = b :=
  (hb.eq_readBytes hw).symm

/-- The 4 bytes of an MMX form's operand, zero-extended (R53). -/
theorem mmValue_of_mem {esz : Nat} {f : LegacyForm} {b : DWord} (hrm : f.rm = .mem a)
    (hb : IsMemValue s m ((Shape.mm esz f).la m a s) b) : s.mmValue m f = b.setWidth 64 := by
  simp only [State.mmValue, hrm]
  exact congrArg (BitVec.setWidth 64) (IsMemValue.eq_operandValue hb (by decide))

theorem xmmValue_of_mem {esz : Nat} {f : LegacyForm} {b : BitVec 128} (hrm : f.rm = .mem a)
    (hb : IsMemValue s m ((Shape.xmm esz f).la m a s) b) : s.xmmValue m f = b := by
  simp only [State.xmmValue, hrm]
  exact IsMemValue.eq_operandValue hb (by decide)

theorem vexValue_of_mem {esz vl : Nat} {f : VexForm} {b : BitVec vl} (hvl : 8 ∣ vl) (hrm : f.rm = .mem a)
    (hb : IsMemValue s m ((Shape.vex esz vl f).la m a s) b) : s.vexValue m vl f = b := by
  simp only [State.vexValue, hrm]
  exact IsMemValue.eq_operandValue hb hvl

/-- The full-width operand of an EVEX form (`EVEX.b = 0`), whatever the mask holds (R55). -/
theorem evexValue_of_mem {esz vl : Nat} {f : EvexForm} {b : BitVec vl} (hvl : 8 ∣ vl) (hrm : f.rm = .mem a)
    (hbc : f.bc = false) (hb : IsMemValue s m ((Shape.evex esz vl f).la m a s) b) : s.evexValue m esz vl f = b := by
  simp only [State.evexValue, hrm, hbc, Bool.false_eq_true, if_false]
  exact IsMemValue.eq_operandValue hb hvl

end Sources

/-! ## Completion -/

section Completion

variable {i : Instr} {m : Mode} {s : State}

/-- A ready instruction with a readable operand completes with the closed form, its frame, and the next `rip`. -/
theorem exec_frame_of_operandOk (hm : s.mode? = .ok m) (hr : Ready i s) (hop : OperandOk i m s) :
    exec i s = .next ((shape i).result m s) ∧ Frame i s ((shape i).result m s)
      ∧ ((shape i).result m s).rip = nextRip m s.rip i.len := by
  have hexec := exec_of_operandOk hm hr hop
  obtain ⟨hframe, m', hm', hrip⟩ := exec_next_frame hexec
  obtain rfl : m' = m := Except.ok.inj (hm'.symm.trans hm)
  exact ⟨hexec, hframe, hrip⟩

/-- An MMX form completes with `UNPCKL` of its sources and its frame (R156). -/
theorem exec_mm_of_operandOk {esz : Nat} {f : LegacyForm} (hshape : shape i = .mm esz f) (hm : s.mode? = .ok m)
    (hr : Ready i s) (hop : OperandOk i m s) :
    ∃ t, exec i s = .next t ∧ t.mmAt f.reg = unpckl esz 64 (s.mmAt f.reg) (s.mmValue m f)
      ∧ t.rip = nextRip m s.rip i.len ∧ MmFrame f.reg s t := by
  obtain ⟨hexec, hframe, hrip⟩ := exec_frame_of_operandOk hm hr hop
  unfold Frame at hframe
  rw [hshape] at hframe hexec hrip
  exact ⟨_, hexec, by simp [Shape.result], hrip, hframe⟩

/-- A legacy 128-bit form completes with `UNPCKL` of its sources, the bits from 128 on kept, and its frame (R156). -/
theorem exec_xmm_of_operandOk {esz : Nat} {f : LegacyForm} (hshape : shape i = .xmm esz f) (hm : s.mode? = .ok m)
    (hr : Ready i s) (hop : OperandOk i m s) :
    ∃ t, exec i s = .next t ∧ t.vLow 128 f.d = unpckl esz 128 (s.vLow 128 f.d) (s.xmmValue m f)
      ∧ (∀ p, 128 ≤ p → (t.vAt f.d).getLsbD p = (s.vAt f.d).getLsbD p)
      ∧ t.rip = nextRip m s.rip i.len ∧ VecFrame f.d s t := by
  obtain ⟨hexec, hframe, hrip⟩ := exec_frame_of_operandOk hm hr hop
  unfold Frame at hframe
  rw [hshape] at hframe hexec hrip
  exact ⟨_, hexec, s.writeVec_vLow (by decide) _ _ _, fun _ hp => exec_next_xmm_upper hexec hshape hp, hrip, hframe⟩

/-- A VEX form completes with `UNPCKL` of its sources, zeros from `vl` on, and its frame (R156). -/
theorem exec_vex_of_operandOk {esz vl : Nat} {f : VexForm} (hshape : shape i = .vex esz vl f) (hm : s.mode? = .ok m)
    (hr : Ready i s) (hop : OperandOk i m s) :
    ∃ t, exec i s = .next t ∧ t.vLow vl f.d = unpckl esz vl (s.vLow vl f.s1) (s.vexValue m vl f)
      ∧ (∀ p, vl ≤ p → (t.vAt f.d).getLsbD p = false)
      ∧ t.rip = nextRip m s.rip i.len ∧ VecFrame f.d s t := by
  obtain ⟨hexec, hframe, hrip⟩ := exec_frame_of_operandOk hm hr hop
  unfold Frame at hframe
  rw [hshape] at hframe hexec hrip
  exact ⟨_, hexec, s.writeVec_vLow (shape_vex_vl_le hshape) _ _ _,
    fun _ hp => exec_next_vex_upper hexec hshape hp, hrip, hframe⟩

/-- A VEX row's operand is whole bytes. -/
theorem shape_vex_bytes {esz vl : Nat} {f : VexForm} (hshape : shape i = .vex esz vl f) : 8 ∣ vl := by
  have := shape_vex_vl hshape
  omega

/-- A full-width EVEX operand is whole bytes. -/
theorem shape_evex_bytes {esz vl : Nat} {f : EvexForm} (hshape : shape i = .evex esz vl f) : 8 ∣ vl := by
  have := shape_evex_vl hshape
  omega

/-- An EVEX row's vector is whole elements. -/
theorem shape_evex_elems {esz vl : Nat} {f : EvexForm} (hshape : shape i = .evex esz vl f) : 0 < esz ∧ esz ∣ vl := by
  cases i <;> simp only [shape, Shape.evex.injEq, reduceCtorEq] at hshape <;> obtain ⟨rfl, rfl, -⟩ := hshape <;> decide

end Completion

/-! ## MMX rows -/

section Mm

variable {esz : Nat} {row : LegacyForm → Instr} {block : QWord → QWord → QWord}

/-- The register form of a row that interleaves as `block` does. -/
theorem mmRegisterResult_of_row (hshape : ∀ f, shape (row f) = .mm esz f)
    (hblock : ∀ a b, unpckl esz 64 a b = block a b) : MmRegisterResult row block := by
  intro m f rm s hm hrm hr
  have hop : OperandOk (row f) m s := operandOk_of_reg (rm := rm) (by rw [hshape]; exact hrm) m s
  have h := exec_mm_of_operandOk (hshape f) hm hr hop
  rwa [mmValue_of_reg hrm, hblock] at h

/-- The memory form of a row that interleaves as `block` does. -/
theorem mmMemoryResult_of_row (hshape : ∀ f, shape (row f) = .mm esz f)
    (hblock : ∀ a b, unpckl esz 64 a b = block a b) : MmMemoryResult row block := by
  intro m f a s b hm hrm hr hop hb
  rw [hshape] at hb
  have h := exec_mm_of_operandOk (hshape f) hm hr hop
  rwa [mmValue_of_mem hrm hb, hblock] at h

end Mm

/-- Settles O12: the three rows, by their blocks. -/
theorem mmRegisterForms : Obligations.MmRegisterForms := by
  unfold Obligations.MmRegisterForms
  exact ⟨mmRegisterResult_of_row (fun _ => rfl) unpckl_eq_punpcklbw64,
    mmRegisterResult_of_row (fun _ => rfl) unpckl_eq_punpcklwd64,
    mmRegisterResult_of_row (fun _ => rfl) unpckl_eq_punpckldq64⟩

/-- Settles O13: the three rows, by their blocks. -/
theorem mmMemoryForms : Obligations.MmMemoryForms := by
  unfold Obligations.MmMemoryForms
  exact ⟨mmMemoryResult_of_row (fun _ => rfl) unpckl_eq_punpcklbw64,
    mmMemoryResult_of_row (fun _ => rfl) unpckl_eq_punpcklwd64,
    mmMemoryResult_of_row (fun _ => rfl) unpckl_eq_punpckldq64⟩

/-! ## Legacy 128-bit rows -/

section Xmm

variable {esz : Nat} {row : LegacyForm → Instr} {block : BitVec 128 → BitVec 128 → BitVec 128}

/-- The register form of a row that interleaves as `block` does. -/
theorem xmmRegisterResult_of_row (hshape : ∀ f, shape (row f) = .xmm esz f)
    (hblock : ∀ a b, unpckl esz 128 a b = block a b) : XmmRegisterResult row block := by
  intro m f rm s hm hrm hr
  have hop : OperandOk (row f) m s := operandOk_of_reg (rm := rm) (by rw [hshape]; exact hrm) m s
  have h := exec_xmm_of_operandOk (hshape f) hm hr hop
  rwa [xmmValue_of_reg hrm, hblock] at h

/-- The memory form of a row that interleaves as `block` does. -/
theorem xmmMemoryResult_of_row (hshape : ∀ f, shape (row f) = .xmm esz f)
    (hblock : ∀ a b, unpckl esz 128 a b = block a b) : XmmMemoryResult row block := by
  intro m f a s b hm hrm hr hop hb
  rw [hshape] at hb
  have h := exec_xmm_of_operandOk (hshape f) hm hr hop
  rwa [xmmValue_of_mem hrm hb, hblock] at h

end Xmm

/-- Settles O14: the four rows, by their blocks. -/
theorem xmmRegisterForms : Obligations.XmmRegisterForms := by
  unfold Obligations.XmmRegisterForms
  exact ⟨xmmRegisterResult_of_row (fun _ => rfl) unpckl_eq_interleaveBytes,
    xmmRegisterResult_of_row (fun _ => rfl) unpckl_eq_interleaveWords,
    xmmRegisterResult_of_row (fun _ => rfl) unpckl_eq_interleaveDwords,
    xmmRegisterResult_of_row (fun _ => rfl) unpckl_eq_interleaveQwords⟩

/-- Settles O15: the four rows, by their blocks. -/
theorem xmmMemoryForms : Obligations.XmmMemoryForms := by
  unfold Obligations.XmmMemoryForms
  exact ⟨xmmMemoryResult_of_row (fun _ => rfl) unpckl_eq_interleaveBytes,
    xmmMemoryResult_of_row (fun _ => rfl) unpckl_eq_interleaveWords,
    xmmMemoryResult_of_row (fun _ => rfl) unpckl_eq_interleaveDwords,
    xmmMemoryResult_of_row (fun _ => rfl) unpckl_eq_interleaveQwords⟩

/-! ## VEX rows -/

section Vex

variable {esz vl : Nat} {row : VexForm → Instr} {block : BitVec vl → BitVec vl → BitVec vl}

/-- The register form of a row that interleaves as `block` does. -/
theorem vexRegisterResult_of_row (hshape : ∀ f, shape (row f) = .vex esz vl f)
    (hblock : ∀ a b, unpckl esz vl a b = block a b) : VexRegisterResult vl row block := by
  intro m f rm s hm hrm hr
  have hop : OperandOk (row f) m s := operandOk_of_reg (rm := rm) (by rw [hshape]; exact hrm) m s
  have h := exec_vex_of_operandOk (hshape f) hm hr hop
  rwa [vexValue_of_reg hrm, hblock] at h

/-- The memory form of a row that interleaves as `block` does. -/
theorem vexMemoryResult_of_row (hshape : ∀ f, shape (row f) = .vex esz vl f)
    (hblock : ∀ a b, unpckl esz vl a b = block a b) : VexMemoryResult vl row block := by
  intro m f a s b hm hrm hr hop hb
  rw [hshape] at hb
  have h := exec_vex_of_operandOk (hshape f) hm hr hop
  rwa [vexValue_of_mem (shape_vex_bytes (hshape f)) hrm hb, hblock] at h

end Vex

/-- Settles O16: the eight rows, by their blocks. -/
theorem vexRegisterForms : Obligations.VexRegisterForms := by
  unfold Obligations.VexRegisterForms
  exact ⟨vexRegisterResult_of_row (fun _ => rfl) unpckl_eq_interleaveBytes,
    vexRegisterResult_of_row (fun _ => rfl) unpckl_eq_interleaveBytes256,
    vexRegisterResult_of_row (fun _ => rfl) unpckl_eq_interleaveWords,
    vexRegisterResult_of_row (fun _ => rfl) unpckl_eq_interleaveWords256,
    vexRegisterResult_of_row (fun _ => rfl) unpckl_eq_interleaveDwords,
    vexRegisterResult_of_row (fun _ => rfl) unpckl_eq_interleaveDwords256,
    vexRegisterResult_of_row (fun _ => rfl) unpckl_eq_interleaveQwords,
    vexRegisterResult_of_row (fun _ => rfl) unpckl_eq_interleaveQwords256⟩

/-- Settles O17: the eight rows, by their blocks. -/
theorem vexMemoryForms : Obligations.VexMemoryForms := by
  unfold Obligations.VexMemoryForms
  exact ⟨vexMemoryResult_of_row (fun _ => rfl) unpckl_eq_interleaveBytes,
    vexMemoryResult_of_row (fun _ => rfl) unpckl_eq_interleaveBytes256,
    vexMemoryResult_of_row (fun _ => rfl) unpckl_eq_interleaveWords,
    vexMemoryResult_of_row (fun _ => rfl) unpckl_eq_interleaveWords256,
    vexMemoryResult_of_row (fun _ => rfl) unpckl_eq_interleaveDwords,
    vexMemoryResult_of_row (fun _ => rfl) unpckl_eq_interleaveDwords256,
    vexMemoryResult_of_row (fun _ => rfl) unpckl_eq_interleaveQwords,
    vexMemoryResult_of_row (fun _ => rfl) unpckl_eq_interleaveQwords256⟩

/-! ## EVEX rows -/

section Evex

variable {esz vl : Nat} {row : EvexForm → Instr} {block : BitVec vl → BitVec vl → BitVec vl}

/-- The register form of a row that interleaves as `block` does. -/
theorem evexRegisterResult_of_row (hshape : ∀ f, shape (row f) = .evex esz vl f)
    (hblock : ∀ a b, unpckl esz vl a b = block a b) : EvexRegisterResult esz vl row block := by
  intro m f rm s hm hrm hr
  have hop : OperandOk (row f) m s := operandOk_of_reg (rm := rm) (by rw [hshape]; exact hrm) m s
  obtain ⟨hesz, hdvd⟩ := shape_evex_elems (hshape f)
  have h := exec_evex_of_operandOk (hshape f) hesz hdvd hm hr hop
  rwa [evexValue_of_reg hrm, hblock] at h

/-- The full-width memory form of a row that interleaves as `block` does. -/
theorem evexMemoryResult_of_row (hshape : ∀ f, shape (row f) = .evex esz vl f)
    (hblock : ∀ a b, unpckl esz vl a b = block a b) : EvexMemoryResult esz vl row block := by
  intro m f a s b hm hrm hbc hr hop hb
  rw [hshape] at hb
  obtain ⟨hesz, hdvd⟩ := shape_evex_elems (hshape f)
  have h := exec_evex_of_operandOk (hshape f) hesz hdvd hm hr hop
  rwa [evexValue_of_mem (shape_evex_bytes (hshape f)) hrm hbc hb, hblock] at h

end Evex

/-- INTERLEAVE_BYTES_512b is UNPCKL (R136). -/
theorem unpckl_eq_interleaveBytes512 (a b : BitVec 512) : unpckl 8 512 a b = interleaveBytes512 a b :=
  unpckl_512_eq (by decide) (by decide) unpckl_eq_interleaveBytes256 a b

/-- INTERLEAVE_WORDS_512b is UNPCKL (R145). -/
theorem unpckl_eq_interleaveWords512 (a b : BitVec 512) : unpckl 16 512 a b = interleaveWords512 a b :=
  unpckl_512_eq (by decide) (by decide) unpckl_eq_interleaveWords256 a b

/-- Settles O18: the twelve rows, by their blocks. -/
theorem evexRegisterForms : Obligations.EvexRegisterForms := by
  unfold Obligations.EvexRegisterForms
  refine ⟨⟨?_, ?_, ?_⟩, ⟨?_, ?_, ?_⟩, ⟨?_, ?_, ?_⟩, ?_, ?_, ?_⟩
  · exact evexRegisterResult_of_row (fun _ => rfl) unpckl_eq_interleaveBytes
  · exact evexRegisterResult_of_row (fun _ => rfl) unpckl_eq_interleaveBytes256
  · exact evexRegisterResult_of_row (fun _ => rfl) unpckl_eq_interleaveBytes512
  · exact evexRegisterResult_of_row (fun _ => rfl) unpckl_eq_interleaveWords
  · exact evexRegisterResult_of_row (fun _ => rfl) unpckl_eq_interleaveWords256
  · exact evexRegisterResult_of_row (fun _ => rfl) unpckl_eq_interleaveWords512
  · exact evexRegisterResult_of_row (fun _ => rfl) unpckl_eq_interleaveDwords
  · exact evexRegisterResult_of_row (fun _ => rfl) unpckl_eq_interleaveDwords256
  · exact evexRegisterResult_of_row (fun _ => rfl) unpckl_eq_interleaveDwords512
  · exact evexRegisterResult_of_row (fun _ => rfl) unpckl_eq_interleaveQwords
  · exact evexRegisterResult_of_row (fun _ => rfl) unpckl_eq_interleaveQwords256
  · exact evexRegisterResult_of_row (fun _ => rfl) unpckl_eq_interleaveQwords512

/-- Settles O19: the twelve rows, by their blocks. -/
theorem evexMemoryForms : Obligations.EvexMemoryForms := by
  unfold Obligations.EvexMemoryForms
  refine ⟨⟨?_, ?_, ?_⟩, ⟨?_, ?_, ?_⟩, ⟨?_, ?_, ?_⟩, ?_, ?_, ?_⟩
  · exact evexMemoryResult_of_row (fun _ => rfl) unpckl_eq_interleaveBytes
  · exact evexMemoryResult_of_row (fun _ => rfl) unpckl_eq_interleaveBytes256
  · exact evexMemoryResult_of_row (fun _ => rfl) unpckl_eq_interleaveBytes512
  · exact evexMemoryResult_of_row (fun _ => rfl) unpckl_eq_interleaveWords
  · exact evexMemoryResult_of_row (fun _ => rfl) unpckl_eq_interleaveWords256
  · exact evexMemoryResult_of_row (fun _ => rfl) unpckl_eq_interleaveWords512
  · exact evexMemoryResult_of_row (fun _ => rfl) unpckl_eq_interleaveDwords
  · exact evexMemoryResult_of_row (fun _ => rfl) unpckl_eq_interleaveDwords256
  · exact evexMemoryResult_of_row (fun _ => rfl) unpckl_eq_interleaveDwords512
  · exact evexMemoryResult_of_row (fun _ => rfl) unpckl_eq_interleaveQwords
  · exact evexMemoryResult_of_row (fun _ => rfl) unpckl_eq_interleaveQwords256
  · exact evexMemoryResult_of_row (fun _ => rfl) unpckl_eq_interleaveQwords512

end Sys2Proof.Machine

/-! # Exceptions and refusals (60_exceptions.md)

The checks before the operand are put once as a ladder over all shapes (`Shape.firstStop_checks`, the order of R211):
each statement about a check is one rung of it, and every exception has its cause on a rung or in the read of the
operand (`exec_eq_fault_cause`). For the stops before `exec`: an error of the decoder other than `truncated` stays
whatever bytes follow, so where a byte of the instruction is missing the decoder can only say `truncated`. -/

namespace Sys2Proof

/-! ## Bytes that end too early -/

section Truncation

variable {m : Mode} {ps : List Prefix} {rex : Option Rex} {bs : List Byte} {e : DecodeError}

/-- Scanning that stops before the end of the bytes stops there whatever follows. -/
theorem scanPrefixes_append (h : (scanPrefixes bs).2 ≠ []) (t : List Byte) :
    scanPrefixes (bs ++ t) = ((scanPrefixes bs).1, (scanPrefixes bs).2 ++ t) := by
  induction bs with
  | nil => exact absurd rfl h
  | cons b bs ih =>
    cases hb : Prefix.ofByte? b with
    | none => simp [scanPrefixes, hb]
    | some p =>
      simp only [scanPrefixes, hb] at h
      simp [scanPrefixes, hb, ih h]

/-- More bytes hold no fewer segment overrides. -/
theorem overrideCount_scanPrefixes_le (bs t : List Byte) :
    overrideCount (scanPrefixes bs).1 ≤ overrideCount (scanPrefixes (bs ++ t)).1 := by
  induction bs with
  | nil => exact Nat.zero_le _
  | cons b bs ih =>
    cases hb : Prefix.ofByte? b with
    | none => simp [scanPrefixes, hb, overrideCount]
    | some p => cases p <;> simpa [scanPrefixes, hb, overrideCount] using ih

/-- A byte that is there is a REX or none whatever follows. -/
theorem takeRex_append (h : bs ≠ []) (t : List Byte) :
    takeRex m (bs ++ t) = ((takeRex m bs).1, (takeRex m bs).2 ++ t) := by
  cases bs with
  | nil => exact absurd rfl h
  | cons b bs => cases m <;> cases hb : Rex.ofByte? b <;> simp [takeRex, hb]

/-- A choice has a value again where each branch that has it has it again. -/
theorem ite_eq_of_branches {α : Type} {c : Prop} [Decidable c] {x y x' y' r : α} (h : (if c then x else y) = r)
    (hx : x = r → x' = r) (hy : y = r → y' = r) : (if c then x' else y') = r := by
  by_cases hc : c
  · rw [if_pos hc] at h ⊢
    exact hx h
  · rw [if_neg hc] at h ⊢
    exact hy h

theorem decodeOperand_error_append {bad : Bool} {size : Nat} {modrm : Byte} {build : BitVec 3 → Rm → Instr}
    (h : decodeOperand m ps bad size modrm bs build = .error e) (he : e ≠ .truncated) (t : List Byte) :
    decodeOperand m ps bad size modrm (bs ++ t) build = .error e := by
  refine ite_eq_of_branches h id fun h => ?_
  split at h
  · cases h
  · exact absurd (Except.error.inj h).symm he

theorem decodeLegacy_error_append (h : decodeLegacy m ps rex bs = .error e) (he : e ≠ .truncated) (t : List Byte) :
    decodeLegacy m ps rex (bs ++ t) = .error e := by
  match bs, h with
  | [], h | [_], h => exact absurd (Except.error.inj h).symm he
  | op :: modrm :: bs, h =>
    refine ite_eq_of_branches h id fun h => ?_
    cases hrow : findRow legacyRows [if ps.contains .opSize then 0x66 else 0x00, 0x0F, op, modrm] with
    | none => simpa only [hrow] using h
    | some row =>
      simp only [hrow] at h
      exact decodeOperand_error_append h he t

theorem decodeVexBody_error_append {short : Bool} {v1 v2 : Byte} (h : decodeVexBody m ps rex short v1 v2 bs = .error e)
    (he : e ≠ .truncated) (t : List Byte) : decodeVexBody m ps rex short v1 v2 (bs ++ t) = .error e := by
  match bs, h with
  | [], h | [_], h => exact absurd (Except.error.inj h).symm he
  | op :: modrm :: bs, h =>
    simp only [decodeVexBody, List.cons_append] at h ⊢
    cases hrow : findRow vexRows [0xC4, v1, v2, op, modrm] with
    | none => simpa only [hrow] using h
    | some row =>
      simp only [hrow] at h ⊢
      exact ite_eq_of_branches h id fun h => decodeOperand_error_append h he t

theorem decodeEvexBody_error_append {p0 p1 p2 : Byte} (h : decodeEvexBody m ps rex p0 p1 p2 bs = .error e)
    (he : e ≠ .truncated) (t : List Byte) : decodeEvexBody m ps rex p0 p1 p2 (bs ++ t) = .error e := by
  match bs, h with
  | [], h | [_], h => exact absurd (Except.error.inj h).symm he
  | op :: modrm :: bs, h =>
    simp only [decodeEvexBody, List.cons_append] at h ⊢
    cases hrow : findRow evexRows [0x62, p0, p1, p2, op, modrm] with
    | none => simpa only [hrow] using h
    | some row =>
      simp only [hrow] at h ⊢
      exact ite_eq_of_branches h id fun h => decodeOperand_error_append h he t

theorem decodeBody_error_append (h : decodeBody m ps rex bs = .error e) (he : e ≠ .truncated) (t : List Byte) :
    decodeBody m ps rex (bs ++ t) = .error e := by
  cases bs with
  | nil => exact absurd (Except.error.inj h).symm he
  | cons b bs =>
    refine ite_eq_of_branches h (fun h => decodeLegacy_error_append h he t) fun h =>
      ite_eq_of_branches h (fun h => ?vex2) fun h => ite_eq_of_branches h (fun h => ?vex3) fun h =>
      ite_eq_of_branches h (fun h => ?evex) id
    case vex2 =>
      match bs, h with
      | [], h => exact absurd (Except.error.inj h).symm he
      | v :: bs, h => exact ite_eq_of_branches h (fun h => decodeVexBody_error_append h he t) id
    case vex3 =>
      match bs, h with
      | [], h | [_], h => exact absurd (Except.error.inj h).symm he
      | v1 :: v2 :: bs, h => exact ite_eq_of_branches h (fun h => decodeVexBody_error_append h he t) id
    case evex =>
      match bs, h with
      | [], h | [_], h | [_, _], h => exact absurd (Except.error.inj h).symm he
      | p0 :: p1 :: p2 :: bs, h => exact ite_eq_of_branches h (fun h => decodeEvexBody_error_append h he t) id

/-- An error of the decoder other than `truncated` stays whatever bytes follow (R114, R115). -/
theorem decode_error_append (h : decode m bs = .error e) (he : e ≠ .truncated) (t : List Byte) :
    decode m (bs ++ t) = .error e := by
  unfold decode at h
  split at h
  · next hover =>
    rw [decode, if_pos (lt_of_lt_of_le hover (overrideCount_scanPrefixes_le bs t)), h]
  · next hover =>
    have htail : (scanPrefixes bs).2 ≠ [] := by
      intro hnil
      rw [hnil] at h
      exact he (Except.error.inj h).symm
    rw [decode, scanPrefixes_append htail, if_neg hover, takeRex_append htail]
    exact decodeBody_error_append h he t

/-- The decoder finds every proper part of an encoding too short. -/
theorem decode_take_encode {i : Instr} (hwf : i.wf m = true) {n : Nat} (hn : n < (encode i).length) :
    decode m ((encode i).take n) = .error .truncated := by
  have hall : (encode i).take n ++ (encode i).drop n = encode i := List.take_append_drop n _
  have hwhole : decode m (encode i) = .ok (i, []) := by simpa using decode_encode_append hwf []
  cases hpart : decode m ((encode i).take n) with
  | error e =>
    by_contra hne
    have hlong := decode_error_append hpart (fun he => hne (by rw [he])) ((encode i).drop n)
    rw [hall, hwhole] at hlong
    cases hlong
  | ok r =>
    obtain ⟨j, rest⟩ := r
    obtain ⟨hj, hbytes⟩ := decode_inv hpart
    have hlong := decode_encode_append hj (rest ++ (encode i).drop n)
    rw [← List.append_assoc, hbytes, hall, hwhole] at hlong
    have hnil : rest ++ (encode i).drop n = [] := (Prod.ext_iff.mp (Except.ok.inj hlong)).2.symm
    have hdrop := List.drop_eq_nil_iff.mp (List.append_eq_nil_iff.mp hnil).2
    omega

end Truncation

end Sys2Proof

namespace Sys2Proof.Machine

/-! ## The stops before `exec` -/

/-- Fetching stops before the first byte that cannot be fetched, or at the end of the window (D12). -/
theorem fetchFrom_of_unfetchable {s : State} {m : Mode} {bs : List Byte} {n : Nat} (w k : Nat) (hn : n < bs.length)
    (h : ∀ j, ∀ hj : j < bs.length, j < n →
      s.fetchable m (k + j) = true ∧ s.mem.read (s.fetchAddr m (k + j)).toNat = bs[j])
    (hstop : s.fetchable m (k + n) = false) : s.fetchFrom m w k = bs.take (min w n) := by
  induction w generalizing bs k n with
  | zero => simp [State.fetchFrom]
  | succ w ih =>
    cases n with
    | zero =>
      have hk : s.fetchable m k = false := hstop
      simp [State.fetchFrom, hk]
    | succ n =>
      cases bs with
      | nil => cases hn
      | cons b bs =>
        obtain ⟨hf, hb⟩ := h 0 (Nat.zero_lt_succ _) (Nat.zero_lt_succ _)
        have hrest := ih (bs := bs) (n := n) (k + 1) (Nat.lt_of_succ_lt_succ hn)
          (fun j hj hjn => by
            have hnext := h (j + 1) (Nat.succ_lt_succ hj) (Nat.succ_lt_succ hjn)
            simpa [Nat.add_assoc, Nat.add_comm 1 j] using hnext)
          (by rwa [Nat.add_assoc, Nat.add_comm 1 n])
        simp only [Nat.add_zero, List.getElem_cons_zero] at hf hb
        rw [State.fetchFrom, if_pos hf, hb, hrest, Nat.succ_min_succ, List.take_succ_cons]

section Step

variable {s : State} {m : Mode}

/-- A step that finds no instruction ends with the stop that says why. -/
theorem step_of_current_error {x : Stop} (h : s.current = .error x) : step s = outcome (.error x) := by
  rw [step, h]

/-- A launched state runs what it fetches. -/
theorem current_of_mode (hm : s.mode? = .ok m) (htf : s.tf = false) : s.current = s.fetchInstr m := by
  rw [State.current, launched_of_mode hm htf]
  rfl

/-- Single stepping is refused before anything is fetched (R224). -/
theorem step_of_singleStep (hm : s.mode? = .ok m) (htf : s.tf = true) : step s = .refused .singleStep := by
  have hadm : s.admitted = .ok m := by simp [State.admitted, hm]
  refine step_of_current_error (x := .refused .singleStep) ?_
  rw [State.current, State.launched, hadm, htf]
  rfl

/-- Bytes that decode to nothing end the step with the decoder's error (R115, D5). -/
theorem step_of_decode_error {e : DecodeError} (hm : s.mode? = .ok m) (htf : s.tf = false)
    (hdec : decode m (s.fetchBytes m) = .error e) : step s = outcome (.error (s.decodeStop e)) := by
  apply step_of_current_error
  rw [current_of_mode hm htf]
  simp only [State.fetchInstr, hdec]

/-- A next instruction pointer outside the code segment is refused before the instruction runs (D12). -/
theorem step_of_nextRip_outside {i : Instr} {rest : List Byte} (hm : s.mode? = .ok m) (htf : s.tf = false)
    (hdec : decode m (s.fetchBytes m) = .ok (i, rest)) (hrip : s.ripInside m (nextRip m s.rip i.len) = false) :
    step s = .refused .nextRip := by
  refine step_of_current_error (x := .refused .nextRip) ?_
  rw [current_of_mode hm htf]
  simp only [State.fetchInstr, hdec, hrip, Bool.false_eq_true, if_false]

/-- An instruction of which a byte cannot be fetched is refused: the decoder gets a proper part of its bytes (D12). -/
theorem step_of_unfetchable {i : Instr} {n : Nat} (hm : s.mode? = .ok m) (htf : s.tf = false) (hwf : i.wf m = true)
    (hn : n < (encode i).length)
    (hbytes : ∀ k, ∀ h : k < (encode i).length, k < n →
      s.fetchable m k = true ∧ s.mem.read (s.fetchAddr m k).toNat = (encode i)[k])
    (hstop : s.fetchable m n = false) : step s = .refused .fetch := by
  have hfetch : s.fetchBytes m = (encode i).take (min s.fetchWindow n) :=
    fetchFrom_of_unfetchable s.fetchWindow 0 hn (by simpa using hbytes) (by simpa using hstop)
  have hdec : decode m (s.fetchBytes m) = .error .truncated := by
    rw [hfetch]
    exact decode_take_encode hwf (lt_of_le_of_lt (Nat.min_le_right _ _) hn)
  exact step_of_decode_error hm htf hdec

end Step

/-- Settles O52: fetching and decoding answer the instruction. -/
theorem stepRunsDecoded : Obligations.StepRunsDecoded := by
  unfold Obligations.StepRunsDecoded
  exact fun s m i rest hm htf hdec hrip => step_of_decode hm htf hdec hrip

/-- Settles O54: one lemma per stop; the length is the first check of the instruction that runs. -/
theorem stepStopsBeforeExec : Obligations.StepStopsBeforeExec := by
  unfold Obligations.StepStopsBeforeExec
  refine ⟨fun s r hm => step_of_mode_error hm, fun s m hm htf => step_of_singleStep hm htf,
    fun s m e hm htf hdec => ?_, fun s m i rest hm htf hdec hrip => step_of_nextRip_outside hm htf hdec hrip,
    fun s m i n hm htf hwf hn hbytes hstop => step_of_unfetchable hm htf hwf hn hbytes hstop,
    fun s m i rest hm htf hdec hrip hlen => ?_⟩
  · rw [step_of_decode_error hm htf hdec]
    cases e <;> rfl
  · rw [step_of_decode hm htf hdec hrip]
    exact tooLongRaisesGp i m s hm hlen

/-! ## CPL -/

/-- The closed form carries CPL along and does not read it. -/
theorem Shape.result_withCpl (h : Shape) (m : Mode) (s : State) (x : BitVec 2) :
    h.result m { s with cpl := x } = { h.result m s with cpl := x } := by
  cases h <;> rfl

/-- The checks before the operand do not read CPL (R218). -/
theorem Shape.checks_withCpl (h : Shape) (s : State) (x : BitVec 2) : h.checks { s with cpl := x } = h.checks s := by
  cases h <;> rfl

/-- A form with a register operand completes with the closed form. -/
theorem finish_of_register {h : Shape} (hreg : h.rm.isMem = false) (m : Mode) (s : State) :
    h.finish m s = .ok (h.result m s) := by
  obtain ⟨t, ht⟩ := finish_reg_ok (m := m) (s := s) hreg
  rw [ht, finish_eq_ok ht]

/-- Settles O27: neither the mode nor the checks nor the closed form read CPL. -/
theorem registerFormsIgnoreCpl : Obligations.RegisterFormsIgnoreCpl := by
  unfold Obligations.RegisterFormsIgnoreCpl
  intro i s x hreg
  cases hm : s.mode? with
  | error r => rw [exec_of_mode_error hm, exec_of_mode_error (s := { s with cpl := x }) hm, mapNext]
  | ok m =>
    have hchecks := (shape i).checks_withCpl s x
    cases hc : firstStop ((shape i).checks s) with
    | error y =>
      rw [exec_of_stop hm hc, exec_of_stop (s := { s with cpl := x }) hm (hchecks ▸ hc)]
      cases y <;> rfl
    | ok u =>
      rw [exec_of_checks hm hc, exec_of_checks (s := { s with cpl := x }) hm (hchecks ▸ hc),
        finish_of_register hreg, finish_of_register hreg, Shape.result_withCpl]
      rfl

/-! ## The order of the checks -/

section Ladder

variable {c d : Bool} {x : Stop} {l : List (Bool × Stop)} {r : Except Stop Unit} {P : Prop} [Decidable P]

/-- One cause is one rung. -/
theorem firstStop_rung (hc : c = true ↔ P) (hr : firstStop l = r) :
    firstStop ((c, x) :: l) = if P then .error x else r := by
  rw [firstStop_cons, hr]
  simp only [hc]

/-- A rung that the class does not have. -/
theorem firstStop_noRung (hP : ¬ P) (hr : firstStop l = r) : firstStop l = if P then .error x else r := by
  rw [if_neg hP, hr]

/-- Two causes of one stop are one cause. -/
theorem firstStop_join (h : firstStop ((c || d, x) :: l) = r) : firstStop ((c, x) :: (d, x) :: l) = r := by
  rw [← h]
  cases c <;> rfl

end Ladder

theorem tooLong_iff (len : Nat) : tooLong len = true ↔ 15 < len := decide_eq_true_iff

/-- `aaa = 000B` with `z = 1` (R108). -/
def Shape.ZeroingNoMask : Shape → Prop
  | .mm _ _ => False
  | .xmm _ _ => False
  | .vex _ _ _ => False
  | .evex _ _ f => f.aaa = 0 ∧ f.z = true

/-- `EVEX.b = 1` with a register operand where the row has broadcast (R109). -/
def Shape.BroadcastRegister : Shape → Prop
  | .mm _ _ => False
  | .xmm _ _ => False
  | .vex _ _ _ => False
  | .evex esz _ f => 32 ≤ esz ∧ f.bc = true ∧ f.rm.isMem = false

/-- The two refused byte strings (R205). -/
theorem Shape.refused_iff (h : Shape) : h.Refused ↔ h.ZeroingNoMask ∨ h.BroadcastRegister := by
  cases h <;> simp [Shape.Refused, Shape.ZeroingNoMask, Shape.BroadcastRegister]

/-- What a shape asks of the control bits, the feature flags and the broadcast bit (R203, R206). -/
structure Shape.Enabled (h : Shape) (s : State) : Prop where
  control : h.ControlOk s
  features : h.FeaturesOk s
  broadcast : h.BroadcastOk

theorem noUd_iff (i : Instr) (s : State) : NoUd i s ↔ (shape i).PrefixesOk ∧ (shape i).Enabled s :=
  ⟨fun ⟨hp, hc, hf, hb⟩ => ⟨hp, hc, hf, hb⟩, fun ⟨hp, hc, hf, hb⟩ => ⟨hp, hc, hf, hb⟩⟩

theorem Shape.enabled_iff (h : Shape) (s : State) :
    h.Enabled s ↔ h.ControlOk s ∧ h.FeaturesOk s ∧ h.BroadcastOk :=
  ⟨fun ⟨hc, hf, hb⟩ => ⟨hc, hf, hb⟩, fun ⟨hc, hf, hb⟩ => ⟨hc, hf, hb⟩⟩

theorem features_vex_iff (f : Features) (vl : Nat) :
    f.vex vl = true ↔ (vl = 128 → f.avx = true) ∧ (vl ≠ 128 → f.avx2 = true) := by
  by_cases hv : vl = 128 <;> simp [Features.vex, hv]

theorem features_evex_iff (f : Features) (esz vl : Nat) :
    f.evex esz vl = true ↔ (esz < 32 → f.avx512bw = true) ∧ (32 ≤ esz → f.avx512f = true)
      ∧ (vl ≠ 512 → f.avx512vl = true) := by
  by_cases he : esz < 32 <;> by_cases hv : vl = 512 <;> simp [Features.evex, he, hv] <;> omega

/-- The control bits, feature flags and broadcast bit of each class that raise #UD (R203, R206). -/
theorem mm_disabled_iff (esz : Nat) (f : LegacyForm) (s : State) :
    (s.em || !s.features.mmx) = true ↔ ¬ (Shape.mm esz f).Enabled s := by
  rw [← Bool.not_eq_false, not_iff_not, Shape.enabled_iff]
  simp [Shape.ControlOk, Shape.FeaturesOk, Shape.BroadcastOk]

theorem xmm_disabled_iff (esz : Nat) (f : LegacyForm) (s : State) :
    (s.em || !s.osfxsr || !s.features.sse2) = true ↔ ¬ (Shape.xmm esz f).Enabled s := by
  rw [← Bool.not_eq_false, not_iff_not, Shape.enabled_iff]
  simp [Shape.ControlOk, Shape.FeaturesOk, Shape.BroadcastOk]

theorem vex_disabled_iff (esz vl : Nat) (f : VexForm) (s : State) :
    (!s.osxsave || !s.xcr0Avx || !s.features.vex vl) = true ↔ ¬ (Shape.vex esz vl f).Enabled s := by
  rw [← Bool.not_eq_false, not_iff_not, Shape.enabled_iff]
  simp only [Bool.or_eq_false_iff, Bool.not_eq_false', xcr0Avx_iff, features_vex_iff, Shape.ControlOk, Shape.FeaturesOk,
    Shape.BroadcastOk, and_true]

theorem evex_disabled_iff (esz vl : Nat) (f : EvexForm) (s : State) :
    (!s.osxsave || !s.xcr0Avx || !s.xcr0Avx512 || !s.features.evex esz vl || decide (esz < 32) && f.bc) = true
      ↔ ¬ (Shape.evex esz vl f).Enabled s := by
  rw [← Bool.not_eq_false, not_iff_not, Shape.enabled_iff]
  simp only [Bool.or_eq_false_iff, Bool.not_eq_false', xcr0Avx_iff, xcr0Avx512_iff, features_evex_iff, Shape.ControlOk,
    Shape.FeaturesOk, Shape.BroadcastOk, Bool.and_eq_false_imp, decide_eq_true_eq, and_assoc]

/-- LOCK before a legacy form (R204). -/
theorem lock_iff (ps : List Prefix) : ps.contains .lock = true ↔ ¬ .lock ∉ ps := by
  rw [List.contains_iff_mem, not_not]

/-- A bad byte before VEX or EVEX (R204). -/
theorem badLead_iff (ps : List Prefix) (rex : Option Rex) :
    badLead ps rex = true ↔
      ¬ (.lock ∉ ps ∧ .opSize ∉ ps ∧ .repne ∉ ps ∧ .rep ∉ ps ∧ rex = none) := by
  rw [← badLead_false_iff, Bool.not_eq_false]

open scoped Classical in
/-- The checks before the operand in their order, for every class (R211 steps 1 to 7; log entry 15). -/
theorem Shape.firstStop_checks (h : Shape) (s : State) :
    firstStop (h.checks s) =
      if 15 < h.len then .error (s.takeException .gp)
      else if ¬ h.PrefixesOk then .error (s.takeException .ud)
      else if h.ZeroingNoMask then .error (.refused .zeroingNoMask)
      else if h.BroadcastRegister then .error (.refused .broadcastRegister)
      else if ¬ h.Enabled s then .error (s.takeException .ud)
      else if s.ts = true then .error (s.takeException .nm)
      else if ¬ h.X87Ok s then .error (s.takeException .mf)
      else .ok () := by
  cases h with
  | mm esz f =>
    exact firstStop_rung (tooLong_iff _) <| firstStop_rung (lock_iff _) <| firstStop_noRung id <| firstStop_noRung id <|
      firstStop_join <| firstStop_rung (mm_disabled_iff esz f s) <| firstStop_rung Iff.rfl <|
      firstStop_rung (Bool.not_eq_false _).symm.to_iff rfl
  | xmm esz f =>
    exact firstStop_rung (tooLong_iff _) <| firstStop_rung (lock_iff _) <| firstStop_noRung id <| firstStop_noRung id <|
      firstStop_join <| firstStop_rung (xmm_disabled_iff esz f s) <| firstStop_rung Iff.rfl <|
      firstStop_noRung (not_not.mpr trivial) rfl
  | vex esz vl f =>
    exact firstStop_rung (tooLong_iff _) <| firstStop_rung (badLead_iff _ _) <| firstStop_noRung id <|
      firstStop_noRung id <| firstStop_join <| firstStop_rung (vex_disabled_iff esz vl f s) <|
      firstStop_rung Iff.rfl <| firstStop_noRung (not_not.mpr trivial) rfl
  | evex esz vl f =>
    have hzeroing : (decide (f.aaa = 0) && f.z) = true ↔ f.aaa = 0 ∧ f.z = true := by simp
    have hbroadcast : (decide (32 ≤ esz) && f.bc && !f.rm.isMem) = true ↔
        32 ≤ esz ∧ f.bc = true ∧ f.rm.isMem = false := by simp [and_assoc]
    exact firstStop_rung (tooLong_iff _) <| firstStop_rung (badLead_iff _ _) <| firstStop_rung hzeroing <|
      firstStop_rung hbroadcast <| firstStop_join <| firstStop_join <|
      firstStop_rung (evex_disabled_iff esz vl f s) <| firstStop_rung Iff.rfl <|
      firstStop_noRung (not_not.mpr trivial) rfl

section Checks

variable {i : Instr} {m : Mode} {s : State}

/-- The second rung (R204). -/
theorem exec_of_badPrefixes (hm : s.mode? = .ok m) (hlen : i.len ≤ 15) (hp : ¬ (shape i).PrefixesOk) :
    exec i s = .fault (.ud s.rip) := by
  have hc := (shape i).firstStop_checks s
  rw [len_eq_shape_len] at hlen
  rw [if_neg (Nat.not_lt.mpr hlen), if_pos hp] at hc
  exact exec_of_stop hm hc

open scoped Classical in
/-- What comes behind the prefixes and the refused byte strings: the last three rungs. -/
theorem firstStop_checks_of_notRefused (hlen : i.len ≤ 15) (hp : (shape i).PrefixesOk) (hr : ¬ (shape i).Refused) :
    firstStop ((shape i).checks s) =
      if ¬ (shape i).Enabled s then .error (s.takeException .ud)
      else if s.ts = true then .error (s.takeException .nm)
      else if ¬ (shape i).X87Ok s then .error (s.takeException .mf)
      else .ok () := by
  obtain ⟨hz, hb⟩ := not_or.mp ((Shape.refused_iff _).not.mp hr)
  rw [len_eq_shape_len] at hlen
  rw [Shape.firstStop_checks, if_neg (Nat.not_lt.mpr hlen), if_neg (not_not.mpr hp), if_neg hz, if_neg hb]

end Checks

/-- Settles O30: the second rung, and the fifth of an instruction that is not refused. -/
theorem badEncodingOrControlRaisesUd : Obligations.BadEncodingOrControlRaisesUd := by
  unfold Obligations.BadEncodingOrControlRaisesUd
  refine ⟨fun i m s hm hlen hp => exec_of_badPrefixes hm hlen hp, fun i m s hm hr hlen hud => ?_⟩
  by_cases hp : (shape i).PrefixesOk
  · have hdisabled : ¬ (shape i).Enabled s := fun he => hud ((noUd_iff i s).mpr ⟨hp, he⟩)
    have hc := firstStop_checks_of_notRefused (s := s) hlen hp hr
    rw [if_pos hdisabled] at hc
    exact exec_of_stop hm hc
  · exact exec_of_badPrefixes hm hlen hp

/-- Settles O31: the sixth rung. -/
theorem taskSwitchedRaisesNm : Obligations.TaskSwitchedRaisesNm := by
  unfold Obligations.TaskSwitchedRaisesNm
  intro i m s hm hr hlen hud hts
  obtain ⟨hp, he⟩ := (noUd_iff i s).mp hud
  have hc := firstStop_checks_of_notRefused (s := s) hlen hp hr
  rw [if_neg (not_not.mpr he), if_pos hts] at hc
  exact exec_of_stop hm hc

/-- Only MMX forms look for a pending x87 exception, and none of them is refused (R205, R207). -/
theorem Shape.not_refused_of_not_x87Ok {h : Shape} {s : State} (hx : ¬ h.X87Ok s) : ¬ h.Refused := by
  cases h with
  | evex esz vl f => exact absurd trivial hx
  | _ => exact id

/-- Settles O32: the last rung. -/
theorem pendingX87RaisesMf : Obligations.PendingX87RaisesMf := by
  unfold Obligations.PendingX87RaisesMf
  intro i m s hm hlen hud hts hx
  obtain ⟨hp, he⟩ := (noUd_iff i s).mp hud
  have hc := firstStop_checks_of_notRefused (s := s) hlen hp (Shape.not_refused_of_not_x87Ok hx)
  rw [if_neg (not_not.mpr he), if_neg (Bool.eq_false_iff.mp hts), if_pos hx] at hc
  exact exec_of_stop hm hc

/-- Settles O39: the third and the fourth rung. -/
theorem refusedEncodings : Obligations.RefusedEncodings := by
  unfold Obligations.RefusedEncodings
  intro i m s esz vl f hm hlen hp hs
  have hc := (shape i).firstStop_checks s
  rw [len_eq_shape_len] at hlen
  rw [if_neg (Nat.not_lt.mpr hlen), if_neg (not_not.mpr hp)] at hc
  refine ⟨fun haaa hz => ?_, fun hzm hesz hbc hreg => ?_⟩
  · have hzm : (shape i).ZeroingNoMask := by rw [hs]; exact ⟨haaa, hz⟩
    rw [if_pos hzm] at hc
    exact exec_of_stop hm hc
  · have hzm' : ¬ (shape i).ZeroingNoMask := by rw [hs]; exact hzm
    have hbr : (shape i).BroadcastRegister := by rw [hs]; exact ⟨hesz, hbc, hreg⟩
    rw [if_neg hzm', if_pos hbr] at hc
    exact exec_of_stop hm hc

/-! ## Every exception and its cause -/

/-- The exceptions an instruction can raise, each with its cause (R201, R203 to R208, R59 to R62). -/
inductive FaultCause (i : Instr) (s : State) : Fault → Prop where
  | tooLong (hlen : 15 < i.len) : FaultCause i s (.gp s.rip)
  | encodingOrControl (hlen : i.len ≤ 15) (hud : ¬ NoUd i s) : FaultCause i s (.ud s.rip)
  | taskSwitched (hts : s.ts = true) : FaultCause i s (.nm s.rip)
  | pendingX87 (hx : ¬ (shape i).X87Ok s) : FaultCause i s (.mf s.rip)
  | segment {m : Mode} {a : Addr} (hm : s.mode? = .ok m) (ha : (shape i).rm = .mem a) :
    FaultCause i s (segmentException ((shape i).segment m a) s.rip)
  | misaligned {a : Addr} (ha : (shape i).rm = .mem a) : FaultCause i s (.gp s.rip)
  | denied {a : Addr} (ha : (shape i).rm = .mem a) (code : PfCode) (address : QWord) :
    FaultCause i s (.pf s.rip (code.bits s.cpl) address)
  | alignChecking {a : Addr} (ha : (shape i).rm = .mem a) (hac : s.alignChecking = true)
    (hal : (shape i).alignment ≠ .sse) : FaultCause i s (.ac s.rip)

/-- An exception of a check has its cause on the rung. -/
theorem checks_fault_cause {i : Instr} {s : State} {f : Fault}
    (hc : firstStop ((shape i).checks s) = .error (.fault f)) : FaultCause i s f := by
  rw [Shape.firstStop_checks] at hc
  rw [← len_eq_shape_len] at hc
  split at hc
  · next hlen => cases hc; exact .tooLong hlen
  next hlen =>
  split at hc
  · next hp => cases hc; exact .encodingOrControl (Nat.not_lt.mp hlen) fun hud => hp hud.prefixes
  split at hc
  · cases hc
  split at hc
  · cases hc
  split at hc
  · next he => cases hc; exact .encodingOrControl (Nat.not_lt.mp hlen) fun hud => he ((noUd_iff i s).mp hud).2
  split at hc
  · next hts => cases hc; exact .taskSwitched hts
  split at hc
  · next hx => cases hc; exact .pendingX87 hx
  · cases hc

/-- An exception of the read of the operand has one of the causes of R58. -/
theorem read_fault_cause {i : Instr} {s : State} {m : Mode} {a : Addr} {f : Fault} (hm : s.mode? = .ok m)
    (ha : (shape i).rm = .mem a) (hread : (shape i).operandRead m a s = .error (.fault f)) : FaultCause i s f := by
  rcases memRead_error hread with h | h | ⟨-, h⟩ | h | ⟨code, address, h⟩ | ⟨hal, hac, h⟩
  · cases h; exact .segment hm ha
  · cases h
  · cases h; exact .misaligned ha
  · cases h
  · cases h; exact .denied ha code address
  · cases h; exact .alignChecking ha hac hal

/-- Every exception has its cause. -/
theorem exec_eq_fault_cause {i : Instr} {s : State} {f : Fault} (h : exec i s = .fault f) : FaultCause i s f := by
  obtain ⟨m, hm, hchecks | ⟨-, hfinish⟩⟩ := exec_eq_fault h
  · exact checks_fault_cause hchecks
  · obtain ⟨a, ha, hread⟩ := finish_eq_error hfinish
    exact read_fault_cause hm ha hread

/-- W/R and I/D are clear in a page-fault code, and U/S is CPL = 3 (R63, R210). -/
theorem PfCode.bits_fields (c : PfCode) (cpl : BitVec 2) :
    (c.bits cpl).getLsbD 1 = false ∧ (c.bits cpl).getLsbD 4 = false ∧ (c.bits cpl).getLsbD 2 = (cpl == 3) := by
  simp only [PfCode.bits, BitVec.getLsbD_append]
  simp

theorem rm_isMem_of_eq_mem {rm : Rm} {a : Addr} (h : rm = .mem a) : rm.isMem = true := by
  rw [h]
  rfl

/-- Settles O28: cause by cause, the clause of its vector; the clauses of the other vectors do not apply. -/
theorem faultsOnlyAsListed : Obligations.FaultsOnlyAsListed := by
  unfold Obligations.FaultsOnlyAsListed
  intro i s f h
  cases exec_eq_fault_cause h with
  | tooLong hlen => simp [Fault.savedRip, Fault.vector, hlen]
  | encodingOrControl hlen hud => simp [Fault.savedRip, Fault.vector, hlen, hud]
  | taskSwitched hts => simp [Fault.savedRip, Fault.vector, hts]
  | pendingX87 hx => simp [Fault.savedRip, Fault.vector, hx]
  | @segment m a hm ha =>
    by_cases hss : (shape i).segment m a = .ss
    · rw [hss]
      simp [segmentException, Fault.savedRip, Fault.vector, hm, ha, hss]
    · have hgp : segmentException ((shape i).segment m a) s.rip = .gp s.rip := by
        cases hseg : (shape i).segment m a <;> simp_all [segmentException]
      rw [hgp]
      simp [Fault.savedRip, Fault.vector, rm_isMem_of_eq_mem ha]
  | misaligned ha => simp [Fault.savedRip, Fault.vector, rm_isMem_of_eq_mem ha]
  | denied ha code address =>
    have hbits := PfCode.bits_fields code s.cpl
    have hpf : (shape i).rm.isMem = true ∧ ∃ c la, Fault.pf s.rip (code.bits s.cpl) address = .pf s.rip c la
        ∧ c.getLsbD 1 = false ∧ c.getLsbD 4 = false ∧ c.getLsbD 2 = (s.cpl == 3) :=
      ⟨rm_isMem_of_eq_mem ha, _, _, rfl, hbits⟩
    simp only [Fault.savedRip, Fault.vector, hpf, Nat.reduceEqDiff, false_imp_iff, true_imp_iff, and_self]
  | alignChecking ha hac hal => simp [Fault.savedRip, Fault.vector, rm_isMem_of_eq_mem ha, hac, hal]

end Sys2Proof.Machine

/-! # When an instruction completes, and that the standard launch makes ready (70_reset_and_hazards.md)

A next state comes of a ready instruction only (`exec_next_result`), and a ready instruction with a readable operand has
one (`exec_frame_of_operandOk`). The standard launch writes the bits that the encoding classes ask for, whatever the state
held before. -/

namespace Sys2Proof.Machine

/-! ## Completion -/

/-- Settles O21: a ready instruction with a readable operand completes with the closed form. -/
theorem everyFormCompletes : Obligations.EveryFormCompletes := by
  unfold Obligations.EveryFormCompletes
  intro i m s hm hr hop
  exact ⟨_, exec_frame_of_operandOk hm hr hop⟩

/-- Settles O22: a next state comes of checks that all passed, and these are the requirements of the class. -/
theorem completesOnlyWhenReady : Obligations.CompletesOnlyWhenReady := by
  unfold Obligations.CompletesOnlyWhenReady
  intro i s t h
  obtain ⟨m, hm, hready, -⟩ := exec_next_result h
  exact ⟨hready, m, hm⟩

/-! ## The bits after the standard launch (R243) -/

@[simp] theorem State.standardLaunch_pe (s : State) : s.standardLaunch.pe = true := by
  simp [State.pe, State.standardLaunch]

@[simp] theorem State.standardLaunch_em (s : State) : s.standardLaunch.em = false := by
  simp [State.em, State.standardLaunch]

@[simp] theorem State.standardLaunch_ts (s : State) : s.standardLaunch.ts = false := by
  simp [State.ts, State.standardLaunch]

@[simp] theorem State.standardLaunch_pg (s : State) : s.standardLaunch.pg = true := by
  simp [State.pg, State.standardLaunch]

@[simp] theorem State.standardLaunch_pae (s : State) : s.standardLaunch.pae = true := by
  simp [State.pae, State.standardLaunch]

@[simp] theorem State.standardLaunch_osfxsr (s : State) : s.standardLaunch.osfxsr = true := by
  simp [State.osfxsr, State.standardLaunch]

@[simp] theorem State.standardLaunch_osxsave (s : State) : s.standardLaunch.osxsave = true := by
  simp [State.osxsave, State.standardLaunch]

@[simp] theorem State.standardLaunch_lma (s : State) : s.standardLaunch.lma = true := by
  simp [State.lma, State.standardLaunch]

@[simp] theorem State.standardLaunch_vm (s : State) : s.standardLaunch.vm = false := by
  simp [State.vm, State.standardLaunch]

@[simp] theorem State.standardLaunch_smm (s : State) : s.standardLaunch.smm = false := rfl

@[simp] theorem State.standardLaunch_cs_long (s : State) : s.standardLaunch.cs.long = true := rfl

@[simp] theorem State.standardLaunch_cs_big (s : State) : s.standardLaunch.cs.big = false := rfl

/-- XCR0 enables the SSE, AVX, opmask and both ZMM states. -/
theorem State.standardLaunch_xcr0_getLsbD (s : State) :
    ∀ p ∈ [1, 2, 5, 6, 7], s.standardLaunch.xcr0.getLsbD p = true := by
  show ∀ p ∈ [1, 2, 5, 6, 7], (0xE7 : QWord).getLsbD p = true
  decide

@[simp] theorem State.standardLaunch_features (s : State) : s.standardLaunch.features = Features.all := rfl

@[simp] theorem State.standardLaunch_x87Pending (s : State) : s.standardLaunch.x87Pending = false := rfl

/-! ## What the launch makes ready (R242) -/

/-- The launch enters 64-bit mode, whichever mode the state was in. -/
theorem State.standardLaunch_mode (s : State) : s.standardLaunch.mode? = .ok .long64 := by
  simp [State.mode?]

theorem State.standardLaunch_maxvl (s : State) : s.standardLaunch.maxvl = 512 := by
  simp [State.maxvl, Features.all]

theorem State.standardLaunch_nv (s : State) : s.standardLaunch.nv = 32 := by
  rw [State.nv, State.standardLaunch_maxvl, if_pos rfl]

/-- The launch sets the control bits of every encoding class (R203). -/
theorem Shape.controlOk_standardLaunch (h : Shape) (s : State) : h.ControlOk s.standardLaunch := by
  have hxcr0 := s.standardLaunch_xcr0_getLsbD
  cases h with
  | mm esz f => exact s.standardLaunch_em
  | xmm esz f => exact ⟨s.standardLaunch_em, s.standardLaunch_osfxsr⟩
  | vex esz vl f => exact ⟨s.standardLaunch_osxsave, hxcr0 1 (by decide), hxcr0 2 (by decide)⟩
  | evex esz vl f =>
    exact ⟨s.standardLaunch_osxsave, hxcr0 1 (by decide), hxcr0 2 (by decide), hxcr0 5 (by decide),
      hxcr0 6 (by decide), hxcr0 7 (by decide)⟩

/-- The launch has every feature flag (R2). -/
theorem Shape.featuresOk_standardLaunch (h : Shape) (s : State) : h.FeaturesOk s.standardLaunch := by
  cases h with
  | mm esz f => rfl
  | xmm esz f => rfl
  | vex esz vl f => exact ⟨fun _ => rfl, fun _ => rfl⟩
  | evex esz vl f => exact ⟨fun _ => rfl, fun _ => rfl, fun _ => rfl⟩

/-- No x87 exception is pending after the launch (R207). -/
theorem Shape.x87Ok_standardLaunch (h : Shape) (s : State) : h.X87Ok s.standardLaunch := by
  cases h with
  | mm esz f => exact s.standardLaunch_x87Pending
  | _ => trivial

/-- Settles O59: what an instruction asks of the state holds after the launch; what it asks of its own bytes is given. -/
theorem standardLaunchIsReady : Obligations.StandardLaunchIsReady := by
  unfold Obligations.StandardLaunchIsReady
  refine fun s => ⟨s.standardLaunch_mode, s.standardLaunch_maxvl, s.standardLaunch_nv,
    fun i hr hlen hprefixes hbroadcast => ?_⟩
  have hud : NoUd i s.standardLaunch :=
    ⟨hprefixes, Shape.controlOk_standardLaunch _ s, Shape.featuresOk_standardLaunch _ s, hbroadcast⟩
  exact ⟨hr, hlen, hud, s.standardLaunch_ts, Shape.x87Ok_standardLaunch _ s⟩

end Sys2Proof.Machine
